-- ==== Sys2Proof/Word.lean ====
section
/-! DEFINITION. The bit patterns of spec/00_scope.md rule R10 and their slices by rule R9. -/

namespace Sys2Proof

/-- `W8` of rule R10: a byte. -/
abbrev Byte := BitVec 8

/-- `W32` of rule R10: a register value, a command word, a PRNG state word. -/
abbrev Word := BitVec 32

/-- `W64` of rule R10: a correlation sum before it is split into its two registers (rule R35). -/
abbrev DWord := BitVec 64

end Sys2Proof
end

