-- ==== Sys2Proof/Config.lean ====
section
/-! DEFINITION. What an implementation of the CFL block fixes (spec/00_scope.md rule R8) and the one value
the spec leaves free (spec/20_memory.md rule R50). The constants of the algorithms and the named readings
stand in Machine/Params.lean. -/

namespace Sys2Proof.Config

/-- `KEYMAX` (rules R8, R29): the number of KEY byte registers. -/
def keyMax : Nat := 16

/-- `IVMAX` (rules R8, R29): the number of IV byte registers. -/
def ivMax : Nat := 16

/-- `NBUCKET` (rule R7): the number of counters of one histogram channel. -/
def nBucket : Nat := 256

/-- The `MEM_BYTES` that `State.reset` carries. `MEM_BYTES` is OPEN (rule R8), so the machine takes it from
the state (`State.memBytes`), where any value may stand; this is the value of the spec's test vectors.
DESIGN CHOICE, unsafe: notes/assumptions/2.md. -/
def vectorMemBytes : Nat := 65536

/-- The `NBLK_MAX` that `State.reset` carries; OPEN as `MEM_BYTES` is. DESIGN CHOICE, unsafe:
notes/assumptions/2.md. -/
def vectorNblkMax : Nat := 4096

/-- What a byte of MEM holds before anything has written it: `powerOnByte epoch address`, where `epoch`
counts the external resets (rule R50, I14: "a model treats each byte as an arbitrary value until something
writes it"). A free value: it has no body, so nothing can be proved of it. notes/assumptions/1.md. -/
opaque powerOnByte : Nat → Nat → Byte

end Sys2Proof.Config
end

