-- ==== Sys2Proof/Syntax.lean ====
section
/-! DEFINITION. The commands of the CFL block (spec/30_encoding.md rule R73), the registers the host names
(spec/10_state.md rule R21), the host's transactions (spec/70_reset_and_hazards.md rule R243) and the
assembler lines that stand for them (rules R77, R78). -/

namespace Sys2Proof

/-- The fourteen commands of rule R73, in the order of spec/opcode_table.json. A command has no operand
fields: every operand comes from a register (rules R70, R75). -/
inductive Instr where
  /-- KSEED, 0x01: seed the PRNG state (rule R97). -/
  | kseed
  /-- KCHUNK, 0x02: advance the PRNG state by one chunk (rule R98). -/
  | kchunk
  /-- KSGEN, 0x03: generate a keystream into memory (rule R99). -/
  | ksgen
  /-- SXF, 0x04: the stream transform (rule R112). -/
  | sxf
  /-- CSEED, 0x10: compute a seed (rule R131). -/
  | cseed
  /-- LGEN, 0x11: one draw of the linear generator (rule R132). -/
  | lgen
  /-- PINIT, 0x12: load the identity index array (rule R133). -/
  | pinit
  /-- SHUF, 0x13: one shuffle of the current array (rule R134). -/
  | shuf
  /-- PREV, 0x14: reverse the current array (rule R135). -/
  | prev
  /-- PBUILD, 0x15: build the forward block mapping (rule R136). -/
  | pbuild
  /-- PINV, 0x16: invert the current array (rule R137). -/
  | pinv
  /-- BREMAP, 0x17: remap and mix the blocks of an image (rule R155). -/
  | bremap
  /-- HIST, 0x20: the per-channel histogram of a buffer (rule R166). -/
  | hist
  /-- CORR, 0x21: accumulate adjacent-pixel differences (rule R172). -/
  | corr
deriving DecidableEq, Repr

/-- Why a word is no command (rules R71, R74); both reasons fault `UnsupportedAlgorithm`. -/
inductive DecodeError where
  /-- Bits 31:8 are not all zero (rule R72). -/
  | reservedBitsSet
  /-- Bits 7:0 are none of the fourteen opcodes (rule R73). -/
  | unassignedOpcode
deriving DecidableEq, Repr

/-- The registers of rule R21 by name; the arrays take their element's number. -/
inductive Reg where
  | cmd | status | errcode | ctrl
  | src | dst | len | width | height | iters | keylen | ivlen | arg | res | seed | nblk
  | s0 | s1 | s2 | s3 | kout0 | kout1
  | ahLo | ahHi | avLo | avHi | adLo | adHi | nh | nv | nd
  | key (k : Nat) | iv (k : Nat)
  | hr (v : Nat) | hg (v : Nat) | hb (v : Nat)
  | perm (k : Nat)
deriving DecidableEq, Repr

/-- What the host can ask of the block (rule R243). Nothing else makes the block act. -/
inductive Transaction where
  /-- `RegRead(i)`: read the register with index `i` (rule R21). -/
  | regRead (i : Word)
  /-- `RegWrite(i, v)`: write it; a write to CMD executes a command (rule R22). -/
  | regWrite (i v : Word)
  /-- `MemRead(a)`: read one byte of MEM (rule R51). -/
  | memRead (a : Nat)
  /-- `MemWrite(a, b)`: write one byte of MEM (rule R51). -/
  | memWrite (a : Nat) (b : Byte)
  /-- The external reset (rule R225). -/
  | externalReset
deriving DecidableEq, Repr

/-- What a transaction answers (rule R243). -/
inductive Reply where
  /-- The zero-extended value of a register. -/
  | word (v : Word)
  /-- A byte of MEM. -/
  | byte (b : Byte)
  /-- A write or a reset answers nothing. -/
  | nothing
deriving DecidableEq, Repr

/-- One line of an assembler program: the transactions and bare mnemonics of rule R77 and the
pseudo-instructions of rule R78. -/
inductive Line where
  /-- `wr REG, value`. -/
  | wr (r : Reg) (v : Word)
  /-- `rd REG`. -/
  | rd (r : Reg)
  /-- `mw addr, byte`. -/
  | mw (a : Nat) (b : Byte)
  /-- `mr addr`. -/
  | mr (a : Nat)
  /-- A bare mnemonic: `wr CMD, match`. -/
  | command (i : Instr)
  /-- `key`: load an n-byte key, 1 ≤ n ≤ 16. -/
  | key (bytes : List Byte)
  /-- `iv`: load an n-byte IV, 0 ≤ n ≤ 16. -/
  | iv (bytes : List Byte)
  /-- `fill addr, n, byte`. -/
  | fill (a n : Nat) (b : Byte)
  /-- `load addr, bytes`. -/
  | load (a : Nat) (bytes : List Byte)
  /-- `SENC`: stream encrypt. -/
  | senc
  /-- `SDEC`: stream decrypt. -/
  | sdec
  /-- `BENC`: permutation-cipher encrypt. -/
  | benc
  /-- `BDEC`: permutation-cipher decrypt. -/
  | bdec
  /-- `reset`: the soft reset. -/
  | reset
deriving DecidableEq, Repr

end Sys2Proof
end

