-- ==== Sys2Proof/WellFormed.lean ====
section
/-! DEFINITION. Which terms of the syntax the spec gives a meaning: commands (all of them), command words
(spec/30_encoding.md rules R71, R72), register names (spec/10_state.md rule R21) and assembler lines
(spec/30_encoding.md rule R78). -/

namespace Sys2Proof

/-- Every command is well-formed: it has no operand field that could be out of range (rules R70, R76). -/
def Instr.wellFormed (i : Instr) : Bool :=
  match i with
  | .kseed => true
  | .kchunk => true
  | .ksgen => true
  | .sxf => true
  | .cseed => true
  | .lgen => true
  | .pinit => true
  | .shuf => true
  | .prev => true
  | .pbuild => true
  | .pinv => true
  | .bremap => true
  | .hist => true
  | .corr => true

/-- `RSV = 0`: bits 31:8 of a command word are zero (rule R72). -/
def rsvIsZero (v : Word) : Bool := v.extractLsb' 8 24 == 0#24

/-- The opcodes of rule R73. -/
def assignedOpcodes : List Nat :=
  [0x01, 0x02, 0x03, 0x04, 0x10, 0x11, 0x12, 0x13, 0x14, 0x15, 0x16, 0x17, 0x20, 0x21]

/-- `OPC` (bits 7:0 of a command word) is one of the fourteen opcodes (rule R73). -/
def opcIsAssigned (v : Word) : Bool := assignedOpcodes.contains (v.extractLsb' 0 8).toNat

/-- A legal command word: neither reserved bits nor an unassigned opcode (rules R71, R74). -/
def legalCommandWord (v : Word) : Bool := rsvIsZero v && opcIsAssigned v

/-- A register name of rule R21 names an element its array has; `PERM` has `nblkMax` elements, of which the
32-bit index space reaches those below `2^32 - 0x10000`. -/
def Reg.wellFormed (nblkMax : Nat) (r : Reg) : Bool :=
  match r with
  | .key k => decide (k < Config.keyMax)
  | .iv k => decide (k < Config.ivMax)
  | .hr v => decide (v < Config.nBucket)
  | .hg v => decide (v < Config.nBucket)
  | .hb v => decide (v < Config.nBucket)
  | .perm k => decide (k < nblkMax) && decide (0x10000 + k < 2 ^ 32)
  | _ => true

/-- A line of rules R77, R78 is well-formed when its register exists, its key has 1 to 16 bytes and its IV
0 to 16 bytes. -/
def Line.wellFormed (nblkMax : Nat) (l : Line) : Bool :=
  match l with
  | .wr r _ => r.wellFormed nblkMax
  | .rd r => r.wellFormed nblkMax
  | .key bytes => decide (1 ≤ bytes.length) && decide (bytes.length ≤ Config.keyMax)
  | .iv bytes => decide (bytes.length ≤ Config.ivMax)
  | _ => true

end Sys2Proof
end

