-- ==== Sys2Proof/Decode.lean ====
section
/-! DEFINITION. The decoder of command words (spec/30_encoding.md rules R70 to R74), total on all 2^32
words, the encoder beside it, and the host's question about one table row. -/

namespace Sys2Proof

/-- The command a word names (rule R71): `RSV` (bits 31:8) is checked first, then `OPC` (bits 7:0) selects
one of the fourteen commands of rule R73. Every other word is rejected by name (rule R74). Decoding reads no
other state. -/
def decode (v : Word) : Except DecodeError Instr :=
  if v.extractLsb' 8 24 ≠ 0#24 then .error .reservedBitsSet
  else
    match (v.extractLsb' 0 8).toNat with
    | 0x01 => .ok .kseed
    | 0x02 => .ok .kchunk
    | 0x03 => .ok .ksgen
    | 0x04 => .ok .sxf
    | 0x10 => .ok .cseed
    | 0x11 => .ok .lgen
    | 0x12 => .ok .pinit
    | 0x13 => .ok .shuf
    | 0x14 => .ok .prev
    | 0x15 => .ok .pbuild
    | 0x16 => .ok .pinv
    | 0x17 => .ok .bremap
    | 0x20 => .ok .hist
    | 0x21 => .ok .corr
    | _ => .error .unassignedOpcode

/-- The `match` value of each command in rule R73: the whole 32-bit word the host writes to CMD. -/
def encode (i : Instr) : Word :=
  match i with
  | .kseed => 0x00000001#32
  | .kchunk => 0x00000002#32
  | .ksgen => 0x00000003#32
  | .sxf => 0x00000004#32
  | .cseed => 0x00000010#32
  | .lgen => 0x00000011#32
  | .pinit => 0x00000012#32
  | .shuf => 0x00000013#32
  | .prev => 0x00000014#32
  | .pbuild => 0x00000015#32
  | .pinv => 0x00000016#32
  | .bremap => 0x00000017#32
  | .hist => 0x00000020#32
  | .corr => 0x00000021#32

/-- The command word of a table row given as its low `nbits` bits, the bits above them zero. A command is
one 32-bit word and no part of it lies in memory (rules R66, R70), so the word is the data of the host's
CMD write. -/
def commandWordOfTable (nbits w : Nat) : Word := BitVec.ofNat 32 (w % 2 ^ nbits)

/-- The instruction the decoder reads from a table row's bits; none where it refuses, or where the bits do
not fit the one 32-bit word a command has. -/
def decodeTableWord (nbits w : Nat) : Option Instr :=
  if w % 2 ^ nbits < 2 ^ 32 then
    match decode (commandWordOfTable nbits w) with
    | .ok i => some i
    | .error _ => none
  else none

end Sys2Proof
end

