-- ==== Sys2Proof/Machine/Params.lean ====
section
/-! DEFINITION. The constants D0 prints (spec/00_scope.md rule R7) and the small named readings (rule R8,
spec/93_implementation_defined.md section 2), each under the one name that every other file uses. The longer
readings stand where they are used: `SEED_MAP` is `seedState` (Keystream.lean), `CSEED_ROTXOR` is
`rotXor` and `LG_SHIFT` is `lgShift` (Permutation.lean), `BLOCK_ORDER` is `blockColumn` and `blockRow`
(Remap.lean). -/

namespace Sys2Proof.Machine

/-- `BLOCK`: the side of a pixel block, in pixels. -/
def blockSide : Nat := 8

/-- `CH`: bytes per pixel, in the order R, G, B. -/
def channels : Nat := 3

/-- `K0`, the seeding constant of S0 (rules R7, R92). -/
def seedK0 : Word := 0x12345678#32

/-- `K1`, the seeding constant of S1. -/
def seedK1 : Word := 0x9ABCDEF0#32

/-- `K2`, the seeding constant of S2. -/
def seedK2 : Word := 0x13579BDF#32

/-- `K3`, the seeding constant of S3. -/
def seedK3 : Word := 0x2468ACE0#32

/-- `PHI`: the position-factor multiplier, the XOR constant of `createSeed` and the multiplier of
`linearGenerator`. -/
def phi : Word := 0x9E3779B9#32

/-- `MURMUR`: the final multiplier of `createSeed`. -/
def murmur : Word := 0x85EBCA6B#32

/-- `LCG_A`: the multiplier of the linear-congruential step. -/
def lcgA : Word := 1664525#32

/-- `LCG_C`: the increment of the linear-congruential step. -/
def lcgC : Word := 1013904223#32

/-- `NPASS`: the passes of one shuffle. -/
def nPass : Nat := 3

/-- `PASS_STRIDE`: the seed offset per pass. -/
def passStride : Nat := 1000

/-- `EXTRA_MOD`: a position that is a multiple of it gets the extra swap. -/
def extraMod : Nat := 7

/-- `REV_PERIOD`: an iteration that is a multiple of it reverses and reshuffles. -/
def revPeriod : Nat := 3

/-- `REV_IV_OFFSET`: the offset of the reshuffle's single IV byte. -/
def revIvOffset : Nat := 1000

/-- `PASS_BASE` (decision D17): the number of the first pass. -/
def passBase : Nat := 0

/-- `CSEED_INIT` (decision D13): the start value of `createSeed`. -/
def cseedInit : Word := 0#32

/-- `IDX_UNIT` (decision D21): `srcIdx` and `destIdx` are this many times the pixel number. -/
def idxUnit : Nat := 3

/-- The two readings of the trailing region that 90_conflicts.md C2 compares. -/
inductive TailMode where
  /-- Trailing pixels are XOR-mixed where they stand. -/
  | mixInPlace
  /-- Trailing pixels are copied unchanged. -/
  | copy
deriving DecidableEq, Repr

/-- `TAIL_MODE` (decision D22): C2 chooses the mix. -/
def tailMode : TailMode := .mixInPlace

end Sys2Proof.Machine
end

