-- ==== Sys2Proof/Machine/Arith.lean ====
section
/-! DEFINITION. Arithmetic on `W32` (spec/00_scope.md rules R9, R11, R12) and the byte orders of
spec/20_memory.md rules R56 to R59. `add32`, `mul32` and the bitwise operators of rule R11 are those of
`BitVec 32`, which wrap and set no flag. -/

namespace Sys2Proof.Machine

/-- `shl32` (rule R11): bits shifted out at the top are lost. -/
def shl32 (a : Word) (n : Nat) : Word := a <<< n

/-- `shr32` (rule R11): logical, zeros enter at the top. -/
def shr32 (a : Word) (n : Nat) : Word := a >>> n

/-- `rotl32` (rule R11), for `1 ≤ n ≤ 31`. -/
def rotl32 (a : Word) (n : Nat) : Word := shl32 a n ||| shr32 a (32 - n)

/-- `PRNG_SHR` (rule R91, decision D11): the kind of every right shift in `customPRNG`. -/
def prngShr (a : Word) (n : Nat) : Word := shr32 a n

/-- `abs32` (rules R12, R123): the absolute value of the two's complement reading, kept as a pattern in
`0 .. 2^31`. -/
def abs32 (v : Word) : Word :=
  if v.toNat < 2 ^ 31 then v else BitVec.ofNat 32 (2 ^ 32 - v.toNat)

/-- `byte0` of rule R9: bits 7:0. -/
def byte0 (w : Word) : Byte := w.extractLsb' 0 8

/-- `byte1` of rule R9: bits 15:8. -/
def byte1 (w : Word) : Byte := w.extractLsb' 8 8

/-- `byte2` of rule R9: bits 23:16. -/
def byte2 (w : Word) : Byte := w.extractLsb' 16 8

/-- `byte3` of rule R9: bits 31:24. -/
def byte3 (w : Word) : Byte := w.extractLsb' 24 8

/-- `w[sh+3 : sh]`: the nibble at a bit offset (rules R94, R95). -/
def nibbleAt (w : Word) (sh : Nat) : BitVec 4 := (shr32 w sh).extractLsb' 0 4

/-- The bytes of a word, most significant first (rule R56). -/
def bytesBE (w : Word) : List Byte := [byte3 w, byte2 w, byte1 w, byte0 w]

/-- `packBE(b, o)` (rule R93): the four bytes from position `o`, most significant first; a position beyond
the end contributes zero. -/
def packBE (b : List Byte) (o : Nat) : Word :=
  b.getD o 0 ++ b.getD (o + 1) 0 ++ b.getD (o + 2) 0 ++ b.getD (o + 3) 0

/-- Channel `c`'s byte of a position factor: bits `8c+7 : 8c` (rule R58). -/
def channelByte (pf : Word) (c : Nat) : Byte := pf.extractLsb' (8 * c) 8

end Sys2Proof.Machine
end

