-- ==== Sys2Proof/Machine/State.lean ====
section
/-! DEFINITION. The whole state of the CFL block (spec/10_state.md rules R20, R21; spec/20_memory.md rule R50),
the fault kinds it can latch (spec/60_exceptions.md rule R200) and its reset values (rule R46). Four fields
are the model's own and no register of the block: `memBytes`, `nblkMax` (the OPEN parameters of rule R8),
`memEpoch` (which external reset the free bytes of MEM belong to) and the pair `inbox`, `replies` (the
transactions the host has still to make and the answers it has had, rules R243, R244). -/

namespace Sys2Proof.Machine

/-- The four error kinds of rule R200. They are latched in ERRCODE by a command that faults; the machine goes
on, so none of them is a stop of the model. -/
inductive FaultKind where
  | invalidInput
  | unsupportedAlgorithm
  /-- Never raised by the block (rule R213). -/
  | dimensionMismatch
  | invalidKey
deriving DecidableEq, Repr

/-- A file of `n` registers of `w` bits each. -/
structure RegFile (w n : Nat) where
  cells : List (BitVec w)
  size : cells.length = n
deriving DecidableEq, Repr

/-- All registers of a file zero. -/
def RegFile.zero (w n : Nat) : RegFile w n := ⟨List.replicate n 0, List.length_replicate⟩

/-- MEM: the bytes that have been written since the external reset, as (address, byte) pairs. -/
abbrev Memory := List Host.Cell

/-- The canonical form of MEM: addresses strictly rising. An unlisted address has no value of its own (its
byte is the free value `Config.powerOnByte`), so every listed entry differs from it and equal memories are
equal lists. -/
abbrev Memory.wf (m : Memory) : Prop := m.Pairwise (fun x y => x.1 < y.1)

/-- The machine. Register widths and names are those of rule R21. CTRL has no field: it stores nothing and
reads as 0 (rule R25). -/
structure State where
  /-- CMD, 0x00: the last command word stored (rule R22). -/
  cmd : Word
  /-- STATUS, 0x01: bit 0 is DONE, bit 1 is ERR (rule R23). -/
  status : BitVec 2
  /-- ERRCODE, 0x02 (rule R24). -/
  errcode : Byte
  /-- SRC, 0x10 (rule R26). -/
  src : Word
  /-- DST, 0x11 (rule R26). -/
  dst : Word
  /-- LEN, 0x12 (rule R26). -/
  len : Word
  /-- WIDTH, 0x13 (rule R27). -/
  width : BitVec 16
  /-- HEIGHT, 0x14 (rule R27). -/
  height : BitVec 16
  /-- ITERS, 0x15 (rule R28). -/
  iters : Word
  /-- KEYLEN, 0x16 (rule R29). -/
  keylen : Byte
  /-- IVLEN, 0x17 (rule R29). -/
  ivlen : Byte
  /-- ARG, 0x18 (rule R30). -/
  arg : Word
  /-- RES, 0x19 (rule R30). -/
  res : Word
  /-- SEED, 0x1A (rule R31). -/
  seed : Word
  /-- NBLK, 0x1B (rule R32). -/
  nblk : Word
  /-- S0, 0x20 (rule R33). -/
  s0 : Word
  /-- S1, 0x21. -/
  s1 : Word
  /-- S2, 0x22. -/
  s2 : Word
  /-- S3, 0x23. -/
  s3 : Word
  /-- KOUT0, 0x24 (rule R34). -/
  kout0 : Word
  /-- KOUT1, 0x25. -/
  kout1 : Word
  /-- AH_LO, 0x30 (rule R35). -/
  ahLo : Word
  /-- AH_HI, 0x31. -/
  ahHi : Word
  /-- AV_LO, 0x32. -/
  avLo : Word
  /-- AV_HI, 0x33. -/
  avHi : Word
  /-- AD_LO, 0x34. -/
  adLo : Word
  /-- AD_HI, 0x35. -/
  adHi : Word
  /-- NH, 0x36. -/
  nh : Word
  /-- NV, 0x37. -/
  nv : Word
  /-- ND, 0x38. -/
  nd : Word
  /-- KEY[0..15], 0x40.. (rule R36). -/
  key : RegFile 8 Config.keyMax
  /-- IV[0..15], 0x50.. (rule R37). -/
  iv : RegFile 8 Config.ivMax
  /-- HR[0..255], 0x100.. (rule R38). -/
  hr : RegFile 32 Config.nBucket
  /-- HG[0..255], 0x200.. -/
  hg : RegFile 32 Config.nBucket
  /-- HB[0..255], 0x300.. -/
  hb : RegFile 32 Config.nBucket
  /-- PERM, 0x10000..: its valid entries, a list of length NBLK (rule R39). -/
  perm : List Word
  /-- MEM (rule R50). -/
  mem : Memory
  /-- The model's own: `MEM_BYTES` (rule R8). No step changes it. -/
  memBytes : Nat
  /-- The model's own: `NBLK_MAX` (rule R8). No step changes it. -/
  nblkMax : Nat
  /-- The model's own: how many external resets the run has had. -/
  memEpoch : Nat
  /-- The model's own: the transactions the host has still to make, the next one first (rule R244). -/
  inbox : List Transaction
  /-- The model's own: the replies so far, the oldest first (rule R244). -/
  replies : List Reply
deriving DecidableEq, Repr

/-- Reasons the machine would stop. There is none: `step` is total and there is no stuck state (rule R243);
the block's own faults latch ERR and leave a next state (rule R207). Nothing raises it; safe. -/
inductive Fault where
deriving DecidableEq, Repr

/-- Reasons an instruction has no meaning. -/
inductive Refusal where
  /-- Raised only by an arm of `exec` for a command that has no meaning yet; no arm raises it. Safe. -/
  | notModelled (mnemonic : String)
deriving DecidableEq, Repr

/-- The state just after an external reset (rules R46, R225) of a block with the given `MEM_BYTES` and
`NBLK_MAX`: every register 0, but for D0's three defaults ITERS = 10, KEYLEN = 16, IVLEN = 16; PERM empty;
nothing in MEM written; no transaction made or waiting. -/
def State.resetOf (memBytes nblkMax : Nat) : State where
  cmd := 0
  status := 0
  errcode := 0
  src := 0
  dst := 0
  len := 0
  width := 0
  height := 0
  iters := 10
  keylen := 16
  ivlen := 16
  arg := 0
  res := 0
  seed := 0
  nblk := 0
  s0 := 0
  s1 := 0
  s2 := 0
  s3 := 0
  kout0 := 0
  kout1 := 0
  ahLo := 0
  ahHi := 0
  avLo := 0
  avHi := 0
  adLo := 0
  adHi := 0
  nh := 0
  nv := 0
  nd := 0
  key := .zero 8 Config.keyMax
  iv := .zero 8 Config.ivMax
  hr := .zero 32 Config.nBucket
  hg := .zero 32 Config.nBucket
  hb := .zero 32 Config.nBucket
  perm := []
  mem := []
  memBytes := memBytes
  nblkMax := nblkMax
  memEpoch := 0
  inbox := []
  replies := []

/-- The machine right after reset, with the `MEM_BYTES` and `NBLK_MAX` of the spec's test vectors
(notes/assumptions/2.md). -/
def State.reset : State := State.resetOf Config.vectorMemBytes Config.vectorNblkMax

end Sys2Proof.Machine
end

