-- ==== Sys2Proof/Machine/Flags.lean ====
section
/-! DEFINITION. The two flags of the block, STATUS.DONE and STATUS.ERR (spec/10_state.md rules R23, R44). No
command computes a carry, overflow, zero or sign flag. -/

namespace Sys2Proof.Machine

/-- `STATUS[0]`. -/
def State.doneFlag (s : State) : Bool := s.status.getLsbD 0

/-- `STATUS[1]`. -/
def State.errFlag (s : State) : Bool := s.status.getLsbD 1

/-- STATUS with DONE set, ERR as it was. -/
def statusWithDone (status : BitVec 2) : BitVec 2 := status ||| 0b01#2

/-- STATUS with DONE clear, ERR as it was. -/
def statusWithoutDone (status : BitVec 2) : BitVec 2 := status &&& 0b10#2

/-- STATUS with ERR set, DONE as it was. -/
def statusWithErr (status : BitVec 2) : BitVec 2 := status ||| 0b10#2

end Sys2Proof.Machine
end

