-- ==== Sys2Proof/Machine/Ops.lean ====
section
/-! DEFINITION. The operations over registers and MEM that every command and transaction shares: register
files, bytes and buffers of MEM (spec/20_memory.md rules R50 to R54), completion and fault entry
(spec/60_exceptions.md rule R207) and the resets (spec/70_reset_and_hazards.md rule R225). -/

namespace Sys2Proof.Machine

/-! ## Register files -/

/-- Element `i` of a register file; an element the file does not have reads as 0 (rule R41). -/
def RegFile.get {w n : Nat} (f : RegFile w n) (i : Nat) : BitVec w := f.cells.getD i 0

/-- Store element `i`; a write to an element the file does not have is ignored (rule R41). -/
def RegFile.set {w n : Nat} (f : RegFile w n) (i : Nat) (v : BitVec w) : RegFile w n :=
  ⟨f.cells.set i v, by rw [List.length_set]; exact f.size⟩

/-! ## MEM -/

/-- The byte last written at `a`, if any was since the external reset. -/
def Memory.find (m : Memory) (a : Nat) : Option Byte := List.lookup a m

/-- Store one byte, keeping the addresses in rising order. -/
def Memory.write (m : Memory) (a : Nat) (v : Byte) : Memory :=
  match m with
  | [] => [(a, v)]
  | c :: rest =>
    if a < c.1 then (a, v) :: c :: rest
    else if a = c.1 then (a, v) :: rest
    else c :: Memory.write rest a v

/-- Store a byte sequence at ascending addresses from `a`. -/
def Memory.writeBuf (m : Memory) (a : Nat) (bytes : List Byte) : Memory :=
  match bytes with
  | [] => m
  | b :: rest => Memory.writeBuf (m.write a b) (a + 1) rest

/-- What `MEM[a]` holds: the byte written last, or, where nothing has written it since the external reset,
the free value of rule R50. -/
def State.memByte (s : State) (a : Nat) : Byte :=
  (s.mem.find a).getD (Config.powerOnByte s.memEpoch a)

/-- The `n` bytes of the buffer at `a` (rule R53). -/
def State.readBuf (s : State) (a n : Nat) : List Byte := (List.range n).map (fun i => s.memByte (a + i))

/-- MEM with a byte sequence stored from `a`. -/
def State.writeMem (s : State) (a : Nat) (bytes : List Byte) : State :=
  { s with mem := s.mem.writeBuf a bytes }

/-- `B + n <= MEM_BYTES`, the sum taken in `Nat` (rule R54). -/
def State.inRange (s : State) (a n : Nat) : Bool := decide (a + n ≤ s.memBytes)

/-- Two buffers of the same length are disjoint (rule R55). -/
def disjoint (a b n : Nat) : Bool := decide (a + n ≤ b) || decide (b + n ≤ a)

/-! ## Completion and fault entry -/

/-- `code(F)` (rule R200, decision D28). -/
def FaultKind.code (f : FaultKind) : Byte :=
  match f with
  | .invalidInput => 1
  | .unsupportedAlgorithm => 2
  | .dimensionMismatch => 3
  | .invalidKey => 4

/-- A command completes: `STATUS.DONE <- 1`. -/
def State.complete (s : State) : State := { s with status := statusWithDone s.status }

/-- Fault entry (rule R207), the block's one exception entry: DONE is cleared, ERR set, ERRCODE takes the
code, and nothing else changes. There is no handler, no vector and no saved pc. -/
def State.takeFault (s : State) (f : FaultKind) : State :=
  { s with status := statusWithErr (statusWithoutDone s.status), errcode := f.code }

/-- The fault of the first check that fails (rule R205: later checks are not evaluated). A check is a
condition under which the command faults, with the kind it then raises. -/
def firstFault (checks : List (Bool × FaultKind)) : Option FaultKind :=
  (checks.find? (fun c => c.1)).map (fun c => c.2)

/-- Run one command: every check is made before any effect (rule R208), then the command either faults with
no effect or has its whole effect and completes. -/
def runCommand (checks : List (Bool × FaultKind)) (effect : State → State) (s : State) :
    Host.Outcome State Fault Refusal :=
  match firstFault checks with
  | some f => .next (s.takeFault f)
  | none => .next (effect s).complete

/-! ## Resets: the only way out of the fault state (rule R210) -/

/-- The soft reset (rule R225): every register to its reset value; MEM, the parameters and the host's own
lists unchanged. -/
def State.softReset (s : State) : State :=
  { State.resetOf s.memBytes s.nblkMax with
    mem := s.mem, memEpoch := s.memEpoch, inbox := s.inbox, replies := s.replies }

/-- The external reset (rule R225): the registers as a soft reset leaves them, and the contents of MEM
unspecified, that is, free bytes of a new epoch. -/
def State.externalReset (s : State) : State :=
  { s.softReset with mem := [], memEpoch := s.memEpoch + 1 }

/-! ## Named updates of State -/

/-- CMD takes the word the host wrote (rule R22). -/
def State.withCmd (s : State) (v : Word) : State := { s with cmd := v }

/-- SEED takes a result (rule R31). -/
def State.withSeed (s : State) (v : Word) : State := { s with seed := v }

/-- RES takes a result (rule R30). -/
def State.withRes (s : State) (v : Word) : State := { s with res := v }

/-- KOUT0 and KOUT1 take a chunk (rule R34). -/
def State.withKout (s : State) (a b : Word) : State := { s with kout0 := a, kout1 := b }

/-- PERM takes an index array; NBLK stays. -/
def State.withPerm (s : State) (P : List Nat) : State :=
  { s with perm := P.map (BitVec.ofNat 32) }

/-- NBLK and PERM take a new index array of `n` entries. -/
def State.withMapping (s : State) (n : Nat) (P : List Nat) : State :=
  { s with nblk := BitVec.ofNat 32 n, perm := P.map (BitVec.ofNat 32) }

/-- The three histograms are replaced (rule R38). -/
def State.withHistogram (s : State) (r g b : RegFile 32 Config.nBucket) : State :=
  { s with hr := r, hg := g, hb := b }

/-- The next transaction has been taken from the host. -/
def State.withInbox (s : State) (ts : List Transaction) : State := { s with inbox := ts }

/-- The host has its reply. -/
def State.pushReply (s : State) (r : Reply) : State := { s with replies := s.replies ++ [r] }

end Sys2Proof.Machine
end

