-- ==== Sys2Proof/Machine/Operands.lean ====
section
/-! DEFINITION. The operand forms of spec/30_encoding.md rule R75: the key and IV bytes, the source and
destination buffers, the image dimensions and the index array a command reads, and the checks of
spec/60_exceptions.md rule R205 made on them. Register operands are unsigned (rule R76). -/

namespace Sys2Proof.Machine

/-- `KEY[0..KEYLEN-1]` (rule R36). -/
def State.keyBytes (s : State) : List Byte := s.key.cells.take s.keylen.toNat

/-- `IV[0..IVLEN-1]` (rule R37). -/
def State.ivBytes (s : State) : List Byte := s.iv.cells.take s.ivlen.toNat

/-- `3 * WIDTH * HEIGHT` in `Nat`: the bytes of a pixel buffer (rules R52, R54). -/
def State.imageBytes (s : State) : Nat := channels * s.width.toNat * s.height.toNat

/-- `(WIDTH div 8) * (HEIGHT div 8)`: the number of whole blocks (rule R150). -/
def State.blockCount (s : State) : Nat := s.width.toNat / blockSide * (s.height.toNat / blockSide)

/-- `PERM[0..NBLK-1]` as numbers; an entry the list does not hold reads as 0 (rule R39). -/
def State.permEntries (s : State) : List Nat := (s.perm.takeD s.nblk.toNat 0).map BitVec.toNat

/-! ## Checks: a condition under which a command faults, and the fault -/

/-- `KEYLEN = 0`: InvalidKey (rule R204). -/
def State.emptyKey (s : State) : Bool × FaultKind := (decide (s.keylen.toNat = 0), .invalidKey)

/-- `KEYLEN > 16`: InvalidInput (rule R202 a). -/
def State.longKey (s : State) : Bool × FaultKind :=
  (decide (s.keylen.toNat > Config.keyMax), .invalidInput)

/-- `KEYLEN > 16 or IVLEN > 16`: InvalidInput (rule R202 a). -/
def State.longKeyOrIv (s : State) : Bool × FaultKind :=
  (decide (s.keylen.toNat > Config.keyMax) || decide (s.ivlen.toNat > Config.ivMax), .invalidInput)

/-- `LEN = 0`: InvalidInput (rule R202 b). -/
def State.zeroLen (s : State) : Bool × FaultKind := (decide (s.len.toNat = 0), .invalidInput)

/-- `WIDTH = 0 or HEIGHT = 0`: InvalidInput (rule R202 b). -/
def State.zeroDimension (s : State) : Bool × FaultKind :=
  (decide (s.width.toNat = 0) || decide (s.height.toNat = 0), .invalidInput)

/-- A buffer of `n` bytes at `a` is not inside MEM: InvalidInput (rule R202 f). -/
def State.outOfMem (s : State) (a : Word) (n : Nat) : Bool × FaultKind :=
  (!s.inRange a.toNat n, .invalidInput)

/-- A source and a destination buffer of `n` bytes are not both inside MEM: InvalidInput. -/
def State.srcOrDstOutOfMem (s : State) (n : Nat) : Bool × FaultKind :=
  (!s.inRange s.src.toNat n || !s.inRange s.dst.toNat n, .invalidInput)

end Sys2Proof.Machine
end

