-- ==== Sys2Proof/Machine/Keystream.lean ====
section
/-! DEFINITION. The keystream PRNG unit, spec/40_keystream_prng.md: `customPRNG`, the seeding function, the
chunk function, `generateKeyStream`, and the commands KSEED, KCHUNK, KSGEN. -/

namespace Sys2Proof.Machine

/-- The four words of PRNG state (rule R33). -/
structure PrngState where
  s0 : Word
  s1 : Word
  s2 : Word
  s3 : Word
deriving DecidableEq, Repr

/-- `customPRNG(x, y)` (rules R90, R91), line by line. -/
def customPRNG (x y : Word) : Word × Word :=
  let x1 := x ^^^ shl32 x 23
  let x2 := x1 ^^^ prngShr x1 17
  let x3 := x2 ^^^ y ^^^ prngShr y 26
  let x4 := x3 ^^^ shl32 x3 13 ^^^ prngShr x3 19
  let x5 := x4 + y
  (x5, rotl32 y 7 ^^^ x5)

/-- `seedState(key, iv)` (rules R92, R93): the named reading `SEED_MAP`. -/
def seedState (key iv : List Byte) : PrngState where
  s0 := packBE key 0 ^^^ seedK0
  s1 := packBE key 4 ^^^ seedK1
  s2 := packBE iv 0 ^^^ seedK2
  s3 := packBE iv 4 ^^^ seedK3

/-- The state after one chunk (rule R94): one `customPRNG` run on each half-state. -/
def nextState (S : PrngState) : PrngState where
  s0 := (customPRNG S.s0 S.s1).1
  s1 := (customPRNG S.s0 S.s1).2
  s2 := (customPRNG S.s2 S.s3).1
  s3 := (customPRNG S.s2 S.s3).2

/-- The nibble byte of chunk byte `j`: the high nibble from the updated S1, the low from the updated S3, at
bit offset `4j mod 32` (rules R94, R95). -/
def nibbleByte (S : PrngState) (j : Nat) : Byte :=
  nibbleAt S.s1 (4 * j % 32) ++ nibbleAt S.s3 (4 * j % 32)

/-- The eight bytes of a chunk, from the state after it (rule R94): S0 and S2 big-endian, each byte XORed
with its nibble byte. -/
def chunkBytes (S : PrngState) : List Byte :=
  (List.range 8).map (fun j => (bytesBE S.s0 ++ bytesBE S.s2).getD j 0 ^^^ nibbleByte S j)

/-- `chunk` (rule R94). -/
def chunk (S : PrngState) : PrngState × List Byte := (nextState S, chunkBytes (nextState S))

/-- `k` chunks one after the other: their bytes and the state after the last. -/
def chunks (k : Nat) (S : PrngState) : List Byte × PrngState :=
  match k with
  | 0 => ([], S)
  | k + 1 =>
    let c := chunk S
    let rest := chunks k c.1
    (c.2 ++ rest.1, rest.2)

/-- `ceil(length / 8)`: the chunks a keystream takes (rule R96). -/
def chunkCount (length : Nat) : Nat := (length + 7) / 8

/-- `generateKeyStream(length, key, iv)` (rule R96): the bytes, the last chunk truncated, and the state after
the last chunk. -/
def generateKeyStream (length : Nat) (key iv : List Byte) : List Byte × PrngState :=
  let r := chunks (chunkCount length) (seedState key iv)
  (r.1.take length, r.2)

/-- S0..S3 as one value. -/
def State.prng (s : State) : PrngState := ⟨s.s0, s.s1, s.s2, s.s3⟩

/-- S0..S3 take a PRNG state. -/
def State.withPrng (s : State) (S : PrngState) : State :=
  { s with s0 := S.s0, s1 := S.s1, s2 := S.s2, s3 := S.s3 }

/-- KSEED (rule R97). -/
def execKseed (s : State) : Host.Outcome State Fault Refusal :=
  runCommand [s.emptyKey, s.longKeyOrIv] (fun s => s.withPrng (seedState s.keyBytes s.ivBytes)) s

/-- KCHUNK (rule R98). It has no check of its own. -/
def execKchunk (s : State) : Host.Outcome State Fault Refusal :=
  runCommand []
    (fun s =>
      let c := chunk s.prng
      (s.withPrng c.1).withKout (packBE c.2 0) (packBE c.2 4))
    s

/-- `LEN > 0 and DST + LEN > MEM_BYTES`: KSGEN's third check (rule R99). -/
def State.ksgenOutOfMem (s : State) : Bool × FaultKind :=
  (decide (s.len.toNat > 0) && !s.inRange s.dst.toNat s.len.toNat, .invalidInput)

/-- KSGEN (rule R99). -/
def execKsgen (s : State) : Host.Outcome State Fault Refusal :=
  runCommand [s.emptyKey, s.longKeyOrIv, s.ksgenOutOfMem]
    (fun s =>
      let r := generateKeyStream s.len.toNat s.keyBytes s.ivBytes
      (s.withPrng r.2).writeMem s.dst.toNat r.1)
    s

end Sys2Proof.Machine
end

