-- ==== Sys2Proof/Machine/XorDatapath.lean ====
section
/-! DEFINITION. The position-dependent XOR datapath, spec/41_xor_datapath.md: the position factor, the stream
transform and its command SXF, and the pixel mix that BREMAP uses. -/

namespace Sys2Proof.Machine

/-- `posFactor(t) = (t * 0x9E3779B9) mod 2^32` (rule R110). -/
def posFactor (t : Nat) : Word := BitVec.ofNat 32 t * phi

/-- The stream transform (rule R111) of `buf` with a keystream of its length. -/
def xorStream (buf ks : List Byte) : List Byte :=
  (List.range buf.length).map (fun i => buf.getD i 0 ^^^ ks.getD i 0 ^^^ channelByte (posFactor i) 0)

/-- `transform(buf, key, iv)` (rule R111), with the PRNG state it leaves. -/
def transform (buf key iv : List Byte) : List Byte × PrngState :=
  let r := generateKeyStream buf.length key iv
  (xorStream buf r.1, r.2)

/-- The three bytes of a pixel, in the buffer's order (rule R52). -/
structure Pixel where
  r : Byte
  g : Byte
  b : Byte
deriving DecidableEq, Repr

/-- The XOR byte of channel `c` in the pixel mix (rule R115), for `t = srcIdx + destIdx` in `Nat`. -/
def mixByte (key : List Byte) (t c : Nat) : Byte :=
  key.getD ((t % key.length + c) % key.length) 0 ^^^ channelByte (posFactor t) c

/-- `pixelMix(p, srcIdx, destIdx, key)` (rule R115), for a key that is not empty. -/
def pixelMix (p : Pixel) (srcIdx destIdx : Nat) (key : List Byte) : Pixel where
  r := p.r ^^^ mixByte key (srcIdx + destIdx) 0
  g := p.g ^^^ mixByte key (srcIdx + destIdx) 1
  b := p.b ^^^ mixByte key (srcIdx + destIdx) 2

/-- `SRC != DST` and the buffers overlap: SXF's fifth check (rules R55, R112). -/
def State.partialOverlap (s : State) : Bool × FaultKind :=
  (decide (s.src.toNat ≠ s.dst.toNat) && !disjoint s.src.toNat s.dst.toNat s.len.toNat, .invalidInput)

/-- SXF (rule R112): encrypt and decrypt. -/
def execSxf (s : State) : Host.Outcome State Fault Refusal :=
  runCommand [s.emptyKey, s.longKeyOrIv, s.zeroLen, s.srcOrDstOutOfMem s.len.toNat, s.partialOverlap]
    (fun s =>
      let r := transform (s.readBuf s.src.toNat s.len.toNat) s.keyBytes s.ivBytes
      (s.withPrng r.2).writeMem s.dst.toNat r.1)
    s

end Sys2Proof.Machine
end

