-- ==== Sys2Proof/Machine/Remap.lean ====
section
/-! DEFINITION. The block remap and mix, spec/43_block_remap.md: the block geometry, the remap function and
the command BREMAP. A pixel is named by its pixel number `p = y*W + x`; its bytes lie at buffer offsets
`3p`, `3p+1`, `3p+2` (spec/20_memory.md rule R52). -/

namespace Sys2Proof.Machine

/-- The pixel number of column `x`, row `y` in an image `W` pixels wide (rule R52). -/
def pixelNumber (W x y : Nat) : Nat := y * W + x

/-- `BLOCK_ORDER` (rule R151, decision D20): the block column of block `b` in rows of `bw` blocks. -/
def blockColumn (bw b : Nat) : Nat := b % bw

/-- `BLOCK_ORDER`: the block row of block `b`. -/
def blockRow (bw b : Nat) : Nat := b / bw

/-- The pixel at offset `(px, py)` of block `b` (rule R151). -/
def blockPixel (W b px py : Nat) : Nat :=
  pixelNumber W (blockSide * blockColumn (W / blockSide) b + px)
    (blockSide * blockRow (W / blockSide) b + py)

/-- Part 1 of `remap` (rule R153) as (source pixel, destination pixel) pairs: each pixel of block `b` goes to
its own place in block `P[b]`. -/
def wholeMoves (W H : Nat) (P : List Nat) : List (Nat × Nat) :=
  (List.range (W / blockSide * (H / blockSide))).flatMap fun b =>
    (List.range blockSide).flatMap fun py =>
      (List.range blockSide).map fun px => (blockPixel W b px py, blockPixel W (P.getD b 0) px py)

/-- Pixel `(x, y)` lies in the trailing region (rule R150). -/
def inTail (W H x y : Nat) : Bool :=
  decide (x ≥ blockSide * (W / blockSide)) || decide (y ≥ blockSide * (H / blockSide))

/-- Part 2 of `remap` (rule R154): the trailing pixels, row by row; each stays where it is. -/
def tailPixels (W H : Nat) : List Nat :=
  (List.range H).flatMap fun y =>
    ((List.range W).filter fun x => inTail W H x y).map fun x => pixelNumber W x y

/-- The three bytes of pixel `p` of a buffer. -/
def pixelAt (buf : List Byte) (p : Nat) : Pixel where
  r := buf.getD (channels * p) 0
  g := buf.getD (channels * p + 1) 0
  b := buf.getD (channels * p + 2) 0

/-- A buffer with the three bytes of pixel `p` replaced. -/
def putPixel (buf : List Byte) (p : Nat) (v : Pixel) : List Byte :=
  ((buf.set (channels * p) v.r).set (channels * p + 1) v.g).set (channels * p + 2) v.b

/-- Move the pixel `m.1` of the source to `m.2` of the destination, mixed with the indices of both (rules
R152, R153). -/
def moveMixed (src key dst : List Byte) (m : Nat × Nat) : List Byte :=
  putPixel dst m.2 (pixelMix (pixelAt src m.1) (idxUnit * m.1) (idxUnit * m.2) key)

/-- A trailing pixel under `TAIL_MODE` (rule R154). -/
def moveTail (src key dst : List Byte) (p : Nat) : List Byte :=
  match tailMode with
  | .mixInPlace => moveMixed src key dst (p, p)
  | .copy => putPixel dst p (pixelAt src p)

/-- `remap(src, W, H, P, key)` (rules R153, R154): the destination's `3*W*H` bytes. -/
def remap (src : List Byte) (W H : Nat) (P : List Nat) (key : List Byte) : List Byte :=
  (tailPixels W H).foldl (moveTail src key)
    ((wholeMoves W H P).foldl (moveMixed src key) (List.replicate (channels * W * H) 0))

/-- `NBLK != (WIDTH div 8) * (HEIGHT div 8)`: PERM was built for other dimensions (rule R202 d). -/
def State.blockCountMismatch (s : State) : Bool × FaultKind :=
  (decide (s.nblk.toNat ≠ s.blockCount), .invalidInput)

/-- The source and destination images are not disjoint (rules R55, R202 g). -/
def State.imagesOverlap (s : State) : Bool × FaultKind :=
  (!disjoint s.src.toNat s.dst.toNat s.imageBytes, .invalidInput)

/-- BREMAP (rule R155). -/
def execBremap (s : State) : Host.Outcome State Fault Refusal :=
  runCommand
    [s.emptyKey, s.longKey, s.zeroDimension, s.blockCountMismatch, s.srcOrDstOutOfMem s.imageBytes,
      s.imagesOverlap]
    (fun s =>
      s.writeMem s.dst.toNat
        (remap (s.readBuf s.src.toNat s.imageBytes) s.width.toNat s.height.toNat s.permEntries
          s.keyBytes))
    s

end Sys2Proof.Machine
end

