-- ==== Sys2Proof/Machine/Metrics.lean ====
section
/-! DEFINITION. The metrics engine, spec/44_metrics.md: the histogram and the adjacent-pixel differences, and
the commands HIST and CORR. Both only read MEM. -/

namespace Sys2Proof.Machine

/-- One more sample of value `v`. -/
def bumpCounter (h : RegFile 32 Config.nBucket) (v : Byte) : RegFile 32 Config.nBucket :=
  h.set v.toNat (h.get v.toNat + 1)

/-- The counters of channel `c` (rule R165): byte `k` belongs to channel `k mod 3`. -/
def channelHistogram (c : Nat) (buf : List Byte) : RegFile 32 Config.nBucket :=
  buf.zipIdx.foldl (fun h b => if b.2 % channels = c then bumpCounter h b.1 else h)
    (.zero 32 Config.nBucket)

/-- `LEN mod 3 != 0`: InvalidInput (rule R202 c). -/
def State.lenNotPixels (s : State) : Bool × FaultKind :=
  (decide (s.len.toNat % channels ≠ 0), .invalidInput)

/-- HIST (rule R166): all 768 counters are replaced. -/
def execHist (s : State) : Host.Outcome State Fault Refusal :=
  runCommand [s.zeroLen, s.lenNotPixels, s.outOfMem s.src s.len.toNat]
    (fun s =>
      let buf := s.readBuf s.src.toNat s.len.toNat
      s.withHistogram (channelHistogram 0 buf) (channelHistogram 1 buf) (channelHistogram 2 buf))
    s

/-- `s(x, y)` (rule R169): the sum of the three channel bytes of a pixel. -/
def pixelSum (buf : List Byte) (W x y : Nat) : Nat :=
  let p := pixelAt buf (pixelNumber W x y)
  p.r.toNat + p.g.toNat + p.b.toNat

/-- `|a - b|` on naturals (rule R170). -/
def absDiff (a b : Nat) : Nat := (a - b) + (b - a)

/-- One accumulator of `corrAcc` (rule R170): the sum of `|s(x,y) - s(x+dx, y+dy)|` over the pixels whose
neighbour `(x+dx, y+dy)` lies in the image. -/
def diffSum (buf : List Byte) (W H dx dy : Nat) : Nat :=
  ((List.range H).map fun y =>
    ((List.range W).map fun x =>
      if x + dx < W ∧ y + dy < H then
        absDiff (pixelSum buf W x y) (pixelSum buf W (x + dx) (y + dy))
      else 0).sum).sum

/-- The number of pixel pairs at distance `(dx, dy)`: `(W - dx) * (H - dy)` (rule R170). -/
def pairCount (W H dx dy : Nat) : Nat := (W - dx) * (H - dy)

/-- `A_LO`: bits 31:0 of a 64-bit sum (rule R35). -/
def sumLo (A : Nat) : Word := (BitVec.ofNat 64 A).extractLsb' 0 32

/-- `A_HI`: bits 63:32 of a 64-bit sum (rule R35). -/
def sumHi (A : Nat) : Word := (BitVec.ofNat 64 A).extractLsb' 32 32

/-- All nine correlation registers are replaced by the results of `corrAcc` (rules R35, R172). -/
def State.withCorr (s : State) (buf : List Byte) (W H : Nat) : State :=
  { s with
    ahLo := sumLo (diffSum buf W H 1 0), ahHi := sumHi (diffSum buf W H 1 0)
    avLo := sumLo (diffSum buf W H 0 1), avHi := sumHi (diffSum buf W H 0 1)
    adLo := sumLo (diffSum buf W H 1 1), adHi := sumHi (diffSum buf W H 1 1)
    nh := BitVec.ofNat 32 (pairCount W H 1 0)
    nv := BitVec.ofNat 32 (pairCount W H 0 1)
    nd := BitVec.ofNat 32 (pairCount W H 1 1) }

/-- CORR (rule R172). -/
def execCorr (s : State) : Host.Outcome State Fault Refusal :=
  runCommand [s.zeroDimension, s.outOfMem s.src s.imageBytes]
    (fun s =>
      s.withCorr (s.readBuf s.src.toNat s.imageBytes) s.width.toNat s.height.toNat)
    s

end Sys2Proof.Machine
end

