-- ==== Sys2Proof/Machine/Permutation.lean ====
section
/-! DEFINITION. The block-index permutation engine, spec/42_permutation.md: `createSeed`, `linearGenerator`,
`shuffleBlocks`, `processBlocks`, inversion, and the commands CSEED, LGEN, PINIT, SHUF, PREV, PBUILD, PINV.
An index array is a list of numbers; PERM holds each as a 32-bit register. -/

namespace Sys2Proof.Machine

/-! ## Functions -/

/-- `CSEED_ROTXOR` (rule R121, decision D14): `s xor rotl32(s, n)`. -/
def rotXor (s : Word) (n : Nat) : Word := s ^^^ rotl32 s n

/-- One key byte `b` at index `i` of `createSeed` (rule R120). -/
def seedKeyByte (s : Word) (b : Byte) (i : Nat) : Word :=
  rotXor (s * 31#32 + b.setWidth 32 * BitVec.ofNat 32 (i + 1)) 13

/-- One IV byte `b` at index `i` of `createSeed` (rule R120). -/
def seedIvByte (s : Word) (b : Byte) (i : Nat) : Word :=
  rotXor (s * 17#32 + b.setWidth 32 * BitVec.ofNat 32 (i + 2)) 7

/-- `createSeed(key, iv)` (rules R120, R121). -/
def createSeed (key iv : List Byte) : Word :=
  let s := key.zipIdx.foldl (fun s c => seedKeyByte s c.1 c.2) cseedInit
  let s := iv.zipIdx.foldl (fun s c => seedIvByte s c.1 c.2) s
  (s ^^^ phi) * murmur

/-- `LG_SHIFT` (rule R122, decision D15): `s xor shr32(s, 16)`. -/
def lgShift (s : Word) : Word := s ^^^ shr32 s 16

/-- `linearGenerator(v)` (rules R122 to R124). -/
def linearGenerator (v : Word) : Word := abs32 (lgShift (v * lcgA + lcgC) * phi)

/-- `swap(A[i], A[j])` (rule R14). -/
def swapAt {α : Type} (A : List α) (i j : Nat) : List α :=
  match A[i]?, A[j]? with
  | some a, some b => (A.set i b).set j a
  | _, _ => A

/-- Position `i` of one shuffle pass whose draw is `r` (rule R125): swap with `r mod (i + 1)`, and where `i`
is a multiple of 7 swap again with the extra draw modulo the length. -/
def shuffleAt {α : Type} (seed : Word) (r : Nat) (A : List α) (i : Nat) : List α :=
  let A' := swapAt A i (r % (i + 1))
  if i % extraMod = 0 then
    swapAt A' i ((linearGenerator (seed + BitVec.ofNat 32 i)).toNat % A.length)
  else A'

/-- The positions of a pass, from `n - 1` down to 1. -/
def passPositions (n : Nat) : List Nat := (List.range' 1 (n - 1)).reverse

/-- One pass of the shuffle (rules R125, R126). -/
def shufflePass {α : Type} (seed : Word) (A : List α) (pass : Nat) : List α :=
  let r := (linearGenerator (seed + BitVec.ofNat 32 (pass * passStride))).toNat
  (passPositions A.length).foldl (shuffleAt seed r) A

/-- `shuffleBlocks(P, key, iv)` (rule R125): three passes under one seed. The elements are moved and never
inspected (rule R126 e). -/
def shuffleBlocks {α : Type} (A : List α) (key iv : List Byte) : List α :=
  (List.range' passBase nPass).foldl (shufflePass (createSeed key iv)) A

/-- `ivIter(iter)` (rules R57, R128): the four bytes of the iteration counter, least significant first. -/
def ivIter (iter : Nat) : List Byte :=
  let w := BitVec.ofNat 32 iter
  [byte0 w, byte1 w, byte2 w, byte3 w]

/-- The single-byte IV of a reshuffle: `[(iter + 1000) mod 256]` (rule R128). -/
def ivReshuffle (iter : Nat) : List Byte := [BitVec.ofNat 8 (iter + revIvOffset)]

/-- One iteration of `processBlocks` (rule R127). -/
def mixIteration (key : List Byte) (A : List Nat) (iter : Nat) : List Nat :=
  let A' := shuffleBlocks A key (ivIter iter)
  if iter % revPeriod = 0 then shuffleBlocks A'.reverse key (ivReshuffle iter) else A'

/-- The identity index array `[0, 1, .., n-1]`. -/
def identityArray (n : Nat) : List Nat := List.range n

/-- `processBlocks(n, key, iters)` (rule R127). -/
def processBlocks (n : Nat) (key : List Byte) (iters : Nat) : List Nat :=
  (List.range iters).foldl (mixIteration key) (identityArray n)

/-- `invert(P)` (rule R129): `Q[P[o]] = o` for every `o`, computed from the whole old array. -/
def invert (A : List Nat) : List Nat :=
  A.zipIdx.foldl (fun Q c => Q.set c.1 c.2) (List.replicate A.length 0)

/-! ## Commands -/

/-- CSEED (rule R131). -/
def execCseed (s : State) : Host.Outcome State Fault Refusal :=
  runCommand [s.emptyKey, s.longKeyOrIv] (fun s => s.withSeed (createSeed s.keyBytes s.ivBytes)) s

/-- LGEN (rule R132). It has no check of its own. -/
def execLgen (s : State) : Host.Outcome State Fault Refusal :=
  runCommand [] (fun s => s.withRes (linearGenerator s.arg)) s

/-- A block count above `NBLK_MAX`: InvalidInput (rule R202 e). -/
def State.tooManyBlocks (s : State) (n : Nat) : Bool × FaultKind :=
  (decide (n > s.nblkMax), .invalidInput)

/-- PINIT (rule R133). -/
def execPinit (s : State) : Host.Outcome State Fault Refusal :=
  runCommand [s.tooManyBlocks s.arg.toNat]
    (fun s => s.withMapping s.arg.toNat (identityArray s.arg.toNat)) s

/-- SHUF (rule R134). -/
def execShuf (s : State) : Host.Outcome State Fault Refusal :=
  runCommand [s.emptyKey, s.longKeyOrIv]
    (fun s => s.withPerm (shuffleBlocks s.permEntries s.keyBytes s.ivBytes)) s

/-- PREV (rule R135). It has no check of its own. -/
def execPrev (s : State) : Host.Outcome State Fault Refusal :=
  runCommand [] (fun s => s.withPerm s.permEntries.reverse) s

/-- PBUILD (rule R136). It reads neither IV nor IVLEN (rule R128). -/
def execPbuild (s : State) : Host.Outcome State Fault Refusal :=
  runCommand [s.emptyKey, s.longKey, s.zeroDimension, s.tooManyBlocks s.blockCount]
    (fun s => s.withMapping s.blockCount (processBlocks s.blockCount s.keyBytes s.iters.toNat)) s

/-- PINV (rule R137). It has no check of its own. -/
def execPinv (s : State) : Host.Outcome State Fault Refusal :=
  runCommand [] (fun s => s.withPerm (invert s.permEntries)) s

end Sys2Proof.Machine
end

