-- ==== Sys2Proof/Machine/Dispatch.lean ====
section
/-! DEFINITION. Which meaning each command has (spec/30_encoding.md rule R73). -/

namespace Sys2Proof.Machine

def exec (i : Instr) (s : State) : Host.Outcome State Fault Refusal :=
  match i with
  | .kseed => Sys2Proof.Machine.execKseed s
  | .kchunk => Sys2Proof.Machine.execKchunk s
  | .ksgen => Sys2Proof.Machine.execKsgen s
  | .sxf => Sys2Proof.Machine.execSxf s
  | .cseed => Sys2Proof.Machine.execCseed s
  | .lgen => Sys2Proof.Machine.execLgen s
  | .pinit => Sys2Proof.Machine.execPinit s
  | .shuf => Sys2Proof.Machine.execShuf s
  | .prev => Sys2Proof.Machine.execPrev s
  | .pbuild => Sys2Proof.Machine.execPbuild s
  | .pinv => Sys2Proof.Machine.execPinv s
  | .bremap => Sys2Proof.Machine.execBremap s
  | .hist => Sys2Proof.Machine.execHist s
  | .corr => Sys2Proof.Machine.execCorr s

end Sys2Proof.Machine
end

