-- ==== Sys2Proof/Machine/RegisterMap.lean ====
section
/-! DEFINITION. The register space of spec/10_state.md rule R21: which index names which register, how wide
each is, who may write it, and how the host reads and stores it (rules R41, R42, decision D45). -/

namespace Sys2Proof.Machine

/-- The registers outside the arrays, with their indices (rule R21). -/
def registerTable : List (Nat × Reg) :=
  [(0x00, .cmd), (0x01, .status), (0x02, .errcode), (0x03, .ctrl),
   (0x10, .src), (0x11, .dst), (0x12, .len), (0x13, .width), (0x14, .height), (0x15, .iters),
   (0x16, .keylen), (0x17, .ivlen), (0x18, .arg), (0x19, .res), (0x1A, .seed), (0x1B, .nblk),
   (0x20, .s0), (0x21, .s1), (0x22, .s2), (0x23, .s3), (0x24, .kout0), (0x25, .kout1),
   (0x30, .ahLo), (0x31, .ahHi), (0x32, .avLo), (0x33, .avHi), (0x34, .adLo), (0x35, .adHi),
   (0x36, .nh), (0x37, .nv), (0x38, .nd)]

/-- The register an index names (rule R21); none for an unmapped index, `0x10000 + k` with
`k >= NBLK_MAX` among them (rule R41). -/
def regAt (nblkMax : Nat) (i : Word) : Option Reg :=
  let n := i.toNat
  if n < 0x40 then registerTable.lookup n
  else if n < 0x40 + Config.keyMax then some (.key (n - 0x40))
  else if 0x50 ≤ n ∧ n < 0x50 + Config.ivMax then some (.iv (n - 0x50))
  else if 0x100 ≤ n ∧ n < 0x100 + Config.nBucket then some (.hr (n - 0x100))
  else if 0x200 ≤ n ∧ n < 0x200 + Config.nBucket then some (.hg (n - 0x200))
  else if 0x300 ≤ n ∧ n < 0x300 + Config.nBucket then some (.hb (n - 0x300))
  else if 0x10000 ≤ n ∧ n - 0x10000 < nblkMax then some (.perm (n - 0x10000))
  else none

/-- The index of a register (rule R21), for the assembler (rule R77). -/
def indexOf (r : Reg) : Word :=
  match r with
  | .key k => BitVec.ofNat 32 (0x40 + k)
  | .iv k => BitVec.ofNat 32 (0x50 + k)
  | .hr v => BitVec.ofNat 32 (0x100 + v)
  | .hg v => BitVec.ofNat 32 (0x200 + v)
  | .hb v => BitVec.ofNat 32 (0x300 + v)
  | .perm k => BitVec.ofNat 32 (0x10000 + k)
  | .cmd => 0x00#32
  | .status => 0x01#32
  | .errcode => 0x02#32
  | .ctrl => 0x03#32
  | .src => 0x10#32
  | .dst => 0x11#32
  | .len => 0x12#32
  | .width => 0x13#32
  | .height => 0x14#32
  | .iters => 0x15#32
  | .keylen => 0x16#32
  | .ivlen => 0x17#32
  | .arg => 0x18#32
  | .res => 0x19#32
  | .seed => 0x1A#32
  | .nblk => 0x1B#32
  | .s0 => 0x20#32
  | .s1 => 0x21#32
  | .s2 => 0x22#32
  | .s3 => 0x23#32
  | .kout0 => 0x24#32
  | .kout1 => 0x25#32
  | .ahLo => 0x30#32
  | .ahHi => 0x31#32
  | .avLo => 0x32#32
  | .avHi => 0x33#32
  | .adLo => 0x34#32
  | .adHi => 0x35#32
  | .nh => 0x36#32
  | .nv => 0x37#32
  | .nd => 0x38#32

/-- `w(i)`: the width of a register (rule R21). -/
def Reg.bits (r : Reg) : Nat :=
  match r with
  | .status => 2
  | .ctrl => 1
  | .errcode | .keylen | .ivlen | .key _ | .iv _ => 8
  | .width | .height => 16
  | _ => 32

/-- What the host may do with a register (rule R21). -/
inductive Access where
  | readWrite
  | readOnly
  | writeOnly
deriving DecidableEq, Repr

/-- The host access column of rule R21. -/
def Reg.access (r : Reg) : Access :=
  match r with
  | .ctrl => .writeOnly
  | .cmd | .src | .dst | .len | .width | .height | .iters | .keylen | .ivlen | .arg => .readWrite
  | .s0 | .s1 | .s2 | .s3 | .key _ | .iv _ => .readWrite
  | .status | .errcode | .res | .seed | .nblk | .kout0 | .kout1 => .readOnly
  | .ahLo | .ahHi | .avLo | .avHi | .adLo | .adHi | .nh | .nv | .nd => .readOnly
  | .hr _ | .hg _ | .hb _ | .perm _ => .readOnly

/-- `zext_32(x[i])`: what the host reads from a register (rule R21). CTRL reads as 0 (rule R42); an entry of
PERM at or beyond NBLK reads as 0 (rule R39). -/
def State.readReg (s : State) (r : Reg) : Word :=
  match r with
  | .cmd => s.cmd
  | .status => s.status.setWidth 32
  | .errcode => s.errcode.setWidth 32
  | .ctrl => 0#32
  | .src => s.src
  | .dst => s.dst
  | .len => s.len
  | .width => s.width.setWidth 32
  | .height => s.height.setWidth 32
  | .iters => s.iters
  | .keylen => s.keylen.setWidth 32
  | .ivlen => s.ivlen.setWidth 32
  | .arg => s.arg
  | .res => s.res
  | .seed => s.seed
  | .nblk => s.nblk
  | .s0 => s.s0
  | .s1 => s.s1
  | .s2 => s.s2
  | .s3 => s.s3
  | .kout0 => s.kout0
  | .kout1 => s.kout1
  | .ahLo => s.ahLo
  | .ahHi => s.ahHi
  | .avLo => s.avLo
  | .avHi => s.avHi
  | .adLo => s.adLo
  | .adHi => s.adHi
  | .nh => s.nh
  | .nv => s.nv
  | .nd => s.nd
  | .key k => (s.key.get k).setWidth 32
  | .iv k => (s.iv.get k).setWidth 32
  | .hr v => s.hr.get v
  | .hg v => s.hg.get v
  | .hb v => s.hb.get v
  | .perm k => if k < s.nblk.toNat then s.perm.getD k 0 else 0#32

/-- A host write stores `v[w-1:0]` in a read-write register (rule R21, decision D45); a write to any other
register is ignored (rule R42). What a write to CMD or CTRL does beyond storing is in Serve.lean; CTRL itself
stores nothing (rule R25). -/
def State.storeReg (s : State) (r : Reg) (v : Word) : State :=
  match r with
  | .cmd => s.withCmd v
  | .src => { s with src := v }
  | .dst => { s with dst := v }
  | .len => { s with len := v }
  | .width => { s with width := v.setWidth 16 }
  | .height => { s with height := v.setWidth 16 }
  | .iters => { s with iters := v }
  | .keylen => { s with keylen := v.setWidth 8 }
  | .ivlen => { s with ivlen := v.setWidth 8 }
  | .arg => { s with arg := v }
  | .s0 => { s with s0 := v }
  | .s1 => { s with s1 := v }
  | .s2 => { s with s2 := v }
  | .s3 => { s with s3 := v }
  | .key k => { s with key := s.key.set k (v.setWidth 8) }
  | .iv k => { s with iv := s.iv.set k (v.setWidth 8) }
  | .status | .errcode | .ctrl | .res | .seed | .nblk | .kout0 | .kout1 => s
  | .ahLo | .ahHi | .avLo | .avHi | .adLo | .adHi | .nh | .nv | .nd => s
  | .hr _ | .hg _ | .hb _ | .perm _ => s

end Sys2Proof.Machine
end

