-- ==== Sys2Proof/Machine/Serve.lean ====
section
/-! DEFINITION. Serving the host's transactions (spec/70_reset_and_hazards.md rule R243): register and memory
accesses, the execution of a command by a CMD write (spec/10_state.md rule R22), its refusal while ERR is set
(spec/60_exceptions.md rule R209), and the resets. The host's transactions lie in `State.inbox`, one is served
per step, and its reply is appended to `State.replies`. -/

namespace Sys2Proof.Machine

/-- A host write of `v` to CMD, in the priority order of rule R206: refused while ERR is set; else CMD takes
`v`; an illegal word faults `UnsupportedAlgorithm`; a legal one is executed to completion. -/
def State.writeCmd (s : State) (v : Word) : Host.Outcome State Fault Refusal :=
  if s.errFlag then .next s
  else
    match decode v with
    | .ok i => exec i (s.withCmd v)
    | .error _ => .next ((s.withCmd v).takeFault .unsupportedAlgorithm)

/-- A host write of `v` to CTRL (rules R25, R228): bit 0 performs the soft reset, whatever STATUS is. -/
def State.writeCtrl (s : State) (v : Word) : State := if v.getLsbD 0 then s.softReset else s

/-- `RegWrite(i, v)` (rules R21, R41, R42). -/
def State.regWrite (s : State) (i v : Word) : Host.Outcome State Fault Refusal :=
  match regAt s.nblkMax i with
  | none => .next s
  | some .cmd => s.writeCmd v
  | some .ctrl => .next (s.writeCtrl v)
  | some r => .next (s.storeReg r v)

/-- `RegRead(i)` (rules R21, R41). -/
def State.regRead (s : State) (i : Word) : Word :=
  match regAt s.nblkMax i with
  | none => 0#32
  | some r => s.readReg r

/-- `MemRead(a)` (rule R51): 0 at or beyond `MEM_BYTES`. -/
def State.memRead (s : State) (a : Nat) : Byte := if a < s.memBytes then s.memByte a else 0#8

/-- `MemWrite(a, v)` (rule R51): ignored at or beyond `MEM_BYTES`. -/
def State.memWrite (s : State) (a : Nat) (v : Byte) : State :=
  if a < s.memBytes then s.writeMem a [v] else s

/-- What one transaction does to the block (rule R243). Reads have no effect (rule R62). -/
def serve (t : Transaction) (s : State) : Host.Outcome State Fault Refusal :=
  match t with
  | .regRead _ => .next s
  | .regWrite i v => s.regWrite i v
  | .memRead _ => .next s
  | .memWrite a b => .next (s.memWrite a b)
  | .externalReset => .next s.externalReset

/-- What one transaction answers, from the state it finds (rule R243). -/
def replyTo (t : Transaction) (s : State) : Reply :=
  match t with
  | .regRead i => .word (s.regRead i)
  | .memRead a => .byte (s.memRead a)
  | .regWrite _ _ => .nothing
  | .memWrite _ _ => .nothing
  | .externalReset => .nothing

/-- One step: the host's next transaction is served completely (rules R64, R232) and answered. When the host
has none left, nothing happens: the block never acts on its own (rule R243) and the run has ended in this
state (rule R244). notes/assumptions/3.md. -/
def serveNext (s : State) : Host.Outcome State Fault Refusal :=
  match s.inbox with
  | [] => .next s
  | t :: rest =>
    match serve t (s.withInbox rest) with
    | .next s' => .next (s'.pushReply (replyTo t s))
    | .fault r => .fault r
    | .refused r => .refused r

/-- The state in which the host's next transaction is `t`. -/
def State.withNextTransaction (s : State) (t : Transaction) : State := s.withInbox (t :: s.inbox)

/-- The host's next transaction is a write of the command word `v` to CMD (index 0). -/
def State.withCommand (s : State) (v : Word) : State := s.withNextTransaction (.regWrite 0#32 v)

end Sys2Proof.Machine
end

