-- ==== Sys2Proof/Machine/Step.lean ====
section
/-! DEFINITION. One step of the machine: the serving of one host transaction (spec/70_reset_and_hazards.md
rule R243), and where the host's next command word comes from. -/

namespace Sys2Proof.Machine

/-- One step. -/
def step (s : State) : Host.Outcome State Fault Refusal := Sys2Proof.Machine.serveNext s

/-- The state whose next transaction writes the given command word to CMD. The block fetches nothing (rules
R43, R66): a command word comes only from a CMD write of the host's, so this puts that write in front of the
host's remaining transactions and changes nothing else (notes/assumptions/4.md). -/
def State.withFetchWord (s : State) (nbits w : Nat) : State :=
  s.withCommand (Sys2Proof.commandWordOfTable nbits w)

end Sys2Proof.Machine
end

