-- ==== Sys2Proof/Machine/Assembler.lean ====
section
/-! DEFINITION. The assembler notation of spec/30_encoding.md rules R77 and R78: the transactions each line
stands for. A program is a list of lines; its transactions are the host's inbox. -/

namespace Sys2Proof.Machine

/-- `wr REG, value`: the pair (register index, value) of rule R77. -/
def wrLine (r : Reg) (v : Word) : Transaction := .regWrite (indexOf r) v

/-- A bare mnemonic: (0x00, match) (rule R77). -/
def commandLine (i : Instr) : Transaction := wrLine .cmd (encode i)

/-- One `mw` per byte, ascending addresses. -/
def loadLines (a : Nat) (bytes : List Byte) : List Transaction :=
  bytes.zipIdx.map fun c => .memWrite (a + c.2) c.1

/-- One register write per byte of a key or IV. -/
def arrayLines (element : Nat → Reg) (bytes : List Byte) : List Transaction :=
  bytes.zipIdx.map fun c => wrLine (element c.2) (c.1.setWidth 32)

/-- The transactions a line stands for (rules R77, R78). -/
def expandLine (l : Line) : List Transaction :=
  match l with
  | .wr r v => [wrLine r v]
  | .rd r => [.regRead (indexOf r)]
  | .mw a b => [.memWrite a b]
  | .mr a => [.memRead a]
  | .command i => [commandLine i]
  | .key bytes => arrayLines Reg.key bytes ++ [wrLine .keylen (BitVec.ofNat 32 bytes.length)]
  | .iv bytes => arrayLines Reg.iv bytes ++ [wrLine .ivlen (BitVec.ofNat 32 bytes.length)]
  | .fill a n b => loadLines a (List.replicate n b)
  | .load a bytes => loadLines a bytes
  | .senc => [commandLine .sxf]
  | .sdec => [commandLine .sxf]
  | .benc => [commandLine .pbuild, commandLine .bremap]
  | .bdec => [commandLine .pbuild, commandLine .pinv, commandLine .bremap]
  | .reset => [wrLine .ctrl 1#32]

/-- The transactions of a program, in order. -/
def expandProgram (p : List Line) : List Transaction := p.flatMap expandLine

end Sys2Proof.Machine
end

