-- ==== Sys2Proof/Safety.lean ====
section
/-! DEFINITION. What the statements call a good state: the invariants the spec gives the machine between
transactions, and a run without a fault. Each is a decidable proposition, and every one of them is kept by
every step. -/

namespace Sys2Proof.Machine

/-- The OPEN parameters have legal values: `1 <= MEM_BYTES <= 2^32`, `NBLK_MAX >= 1` (rule R8). -/
abbrev State.ParamsOk (s : State) : Prop := 1 ≤ s.memBytes ∧ s.memBytes ≤ 2 ^ 32 ∧ 1 ≤ s.nblkMax

/-- MEM is in its canonical form and lists no address it does not have (rule R50). -/
abbrev State.MemOk (s : State) : Prop := s.mem.wf ∧ ∀ c ∈ s.mem, c.1 < s.memBytes

/-- `PERM[0..NBLK-1]` is a permutation of `0 .. NBLK-1`, and `NBLK <= NBLK_MAX` (rules R32, R40). -/
abbrev State.PermOk (s : State) : Prop :=
  (s.perm.map BitVec.toNat).Perm (List.range s.nblk.toNat) ∧ s.nblk.toNat ≤ s.nblkMax

/-- DONE and ERR are never both set (rule R23), ERRCODE is 0 exactly while ERR is 0 (rule R24), and it is
never 3 or above 4 (rules R200, R213). -/
abbrev State.StatusOk (s : State) : Prop :=
  ¬(s.doneFlag = true ∧ s.errFlag = true) ∧
    (s.errFlag = false ↔ s.errcode = 0#8) ∧ s.errcode ∈ [0#8, 1#8, 2#8, 4#8]

/-- What holds at every point between transactions. -/
abbrev State.Inv (s : State) : Prop := s.ParamsOk ∧ s.MemOk ∧ s.PermOk ∧ s.StatusOk

/-- The end state of a run is not that of a faulted run (rule R244). -/
abbrev State.NotFaulted (s : State) : Prop := s.errFlag = false

end Sys2Proof.Machine
end

