-- ==== Sys2Proof/Certificates/Slice0/Obligations.lean ====
section
/-! DEFINITION. The statements for the provers. The helpers under `Spec` restate the spec's formulas apart
from the model's own functions, in `Nat` or by bit positions, so that a statement compares two readings of a
rule. -/

open Sys2Proof Sys2Proof.Machine

/-! ## Helpers: the spec's formulas -/

/-- The state in which the host's next transaction is `t`. -/
def Sys2Proof.Spec.offer (s : State) (t : Transaction) : State := { s with inbox := t :: s.inbox }

/-- The state with one more reply given. -/
def Sys2Proof.Spec.answered (s : State) (r : Reply) : State := { s with replies := s.replies ++ [r] }

/-- The fourteen `match` values of rule R73. -/
def Sys2Proof.Spec.matchValues : List Nat := [1, 2, 3, 4, 16, 17, 18, 19, 20, 21, 22, 23, 32, 33]

/-- KEYLEN in 1..16 (rule R29). -/
def Sys2Proof.Spec.KeyOk (s : State) : Prop := 1 ≤ s.keylen.toNat ∧ s.keylen.toNat ≤ 16

/-- IVLEN in 0..16 (rule R29). -/
def Sys2Proof.Spec.IvOk (s : State) : Prop := s.ivlen.toNat ≤ 16

/-- An index that the table of rule R21 lists. -/
def Sys2Proof.Spec.mapped (nblkMax n : Nat) : Prop :=
  n ≤ 0x03 ∨ (0x10 ≤ n ∧ n ≤ 0x1B) ∨ (0x20 ≤ n ∧ n ≤ 0x25) ∨ (0x30 ≤ n ∧ n ≤ 0x38) ∨
    (0x40 ≤ n ∧ n ≤ 0x5F) ∨ (0x100 ≤ n ∧ n ≤ 0x3FF) ∨ (0x10000 ≤ n ∧ n < 0x10000 + nblkMax)

/-- The indices rule R42 lists as read-only. -/
def Sys2Proof.Spec.readOnlyIndex (nblkMax n : Nat) : Prop :=
  n = 0x01 ∨ n = 0x02 ∨ n = 0x19 ∨ n = 0x1A ∨ n = 0x1B ∨ n = 0x24 ∨ n = 0x25 ∨
    (0x30 ≤ n ∧ n ≤ 0x38) ∨ (0x100 ≤ n ∧ n ≤ 0x3FF) ∨ (0x10000 ≤ n ∧ n < 0x10000 + nblkMax)

/-- The width of a read-write register other than CMD (rule R21), by index. -/
def Sys2Proof.Spec.plainWidth (n : Nat) : Option Nat :=
  if n = 0x13 ∨ n = 0x14 then some 16
  else if n = 0x16 ∨ n = 0x17 then some 8
  else if n = 0x10 ∨ n = 0x11 ∨ n = 0x12 ∨ n = 0x15 ∨ n = 0x18 then some 32
  else if 0x20 ≤ n ∧ n ≤ 0x23 then some 32
  else if 0x40 ≤ n ∧ n ≤ 0x5F then some 8
  else none

/-- The index of each register in the table of rule R21, by name. -/
def Sys2Proof.Spec.tableIndex (r : Reg) : Nat :=
  match r with
  | .cmd => 0x00
  | .status => 0x01
  | .errcode => 0x02
  | .ctrl => 0x03
  | .src => 0x10
  | .dst => 0x11
  | .len => 0x12
  | .width => 0x13
  | .height => 0x14
  | .iters => 0x15
  | .keylen => 0x16
  | .ivlen => 0x17
  | .arg => 0x18
  | .res => 0x19
  | .seed => 0x1A
  | .nblk => 0x1B
  | .s0 => 0x20
  | .s1 => 0x21
  | .s2 => 0x22
  | .s3 => 0x23
  | .kout0 => 0x24
  | .kout1 => 0x25
  | .ahLo => 0x30
  | .ahHi => 0x31
  | .avLo => 0x32
  | .avHi => 0x33
  | .adLo => 0x34
  | .adHi => 0x35
  | .nh => 0x36
  | .nv => 0x37
  | .nd => 0x38
  | .key k => 0x40 + k
  | .iv k => 0x50 + k
  | .hr v => 0x100 + v
  | .hg v => 0x200 + v
  | .hb v => 0x300 + v
  | .perm k => 0x10000 + k

/-- What a host read of each index of rule R21 answers: the register of that name, zero-extended; CTRL and
every index that is not in the table read as 0 (rules R41, R42), and PERM at or beyond NBLK too (rule R39). -/
def Sys2Proof.Spec.registerValue (s : State) (n : Nat) : Word :=
  match n with
  | 0x00 => s.cmd
  | 0x01 => s.status.setWidth 32
  | 0x02 => s.errcode.setWidth 32
  | 0x03 => 0#32
  | 0x10 => s.src
  | 0x11 => s.dst
  | 0x12 => s.len
  | 0x13 => s.width.setWidth 32
  | 0x14 => s.height.setWidth 32
  | 0x15 => s.iters
  | 0x16 => s.keylen.setWidth 32
  | 0x17 => s.ivlen.setWidth 32
  | 0x18 => s.arg
  | 0x19 => s.res
  | 0x1A => s.seed
  | 0x1B => s.nblk
  | 0x20 => s.s0
  | 0x21 => s.s1
  | 0x22 => s.s2
  | 0x23 => s.s3
  | 0x24 => s.kout0
  | 0x25 => s.kout1
  | 0x30 => s.ahLo
  | 0x31 => s.ahHi
  | 0x32 => s.avLo
  | 0x33 => s.avHi
  | 0x34 => s.adLo
  | 0x35 => s.adHi
  | 0x36 => s.nh
  | 0x37 => s.nv
  | 0x38 => s.nd
  | n =>
    if 0x40 ≤ n ∧ n < 0x50 then (s.key.get (n - 0x40)).setWidth 32
    else if 0x50 ≤ n ∧ n < 0x60 then (s.iv.get (n - 0x50)).setWidth 32
    else if 0x100 ≤ n ∧ n < 0x200 then s.hr.get (n - 0x100)
    else if 0x200 ≤ n ∧ n < 0x300 then s.hg.get (n - 0x200)
    else if 0x300 ≤ n ∧ n < 0x400 then s.hb.get (n - 0x300)
    else if 0x10000 ≤ n ∧ n - 0x10000 < s.nblkMax ∧ n - 0x10000 < s.nblk.toNat then
      s.perm.getD (n - 0x10000) 0#32
    else 0#32

/-- The value every register reads as after a reset (rule R46), by index. -/
def Sys2Proof.Spec.resetValue (n : Nat) : Word :=
  if n = 0x15 then 10#32 else if n = 0x16 ∨ n = 0x17 then 16#32 else 0#32

/-- The check table of rule R205: the ERRCODE of the first check that fails. -/
def Sys2Proof.Spec.faultCode (i : Instr) (s : State) : Option Nat :=
  let kl := s.keylen.toNat
  let il := s.ivlen.toNat
  let n := s.len.toNat
  let src := s.src.toNat
  let dst := s.dst.toNat
  let W := s.width.toNat
  let H := s.height.toNat
  match i with
  | .kseed | .cseed | .shuf => if kl = 0 then some 4 else if kl > 16 ∨ il > 16 then some 1 else none
  | .kchunk | .lgen | .prev | .pinv => none
  | .ksgen =>
    if kl = 0 then some 4 else if kl > 16 ∨ il > 16 then some 1
    else if n > 0 ∧ dst + n > s.memBytes then some 1 else none
  | .sxf =>
    if kl = 0 then some 4 else if kl > 16 ∨ il > 16 then some 1 else if n = 0 then some 1
    else if src + n > s.memBytes ∨ dst + n > s.memBytes then some 1
    else if src ≠ dst ∧ ¬(src + n ≤ dst ∨ dst + n ≤ src) then some 1 else none
  | .pinit => if s.arg.toNat > s.nblkMax then some 1 else none
  | .pbuild =>
    if kl = 0 then some 4 else if kl > 16 then some 1 else if W = 0 ∨ H = 0 then some 1
    else if (W / 8) * (H / 8) > s.nblkMax then some 1 else none
  | .bremap =>
    if kl = 0 then some 4 else if kl > 16 then some 1 else if W = 0 ∨ H = 0 then some 1
    else if s.nblk.toNat ≠ (W / 8) * (H / 8) then some 1
    else if src + 3 * W * H > s.memBytes ∨ dst + 3 * W * H > s.memBytes then some 1
    else if ¬(src + 3 * W * H ≤ dst ∨ dst + 3 * W * H ≤ src) then some 1 else none
  | .hist =>
    if n = 0 then some 1 else if n % 3 ≠ 0 then some 1 else if src + n > s.memBytes then some 1
    else none
  | .corr =>
    if W = 0 ∨ H = 0 then some 1 else if src + 3 * W * H > s.memBytes then some 1 else none

/-- `packBE(b, o)` of rule R93 as its sum, for the first `n` bytes of a register file. -/
def Sys2Proof.Spec.packSum (f : RegFile 8 16) (n o : Nat) : Word :=
  BitVec.ofNat 32
    (((List.range 4).map fun k =>
      if o + k < n then (f.get (o + k)).toNat * 2 ^ (8 * (3 - k)) else 0).sum)

/-- `customPRNG` (rule R90) with its two rotations written as rotations. -/
def Sys2Proof.Spec.prng (x y : Word) : Word × Word :=
  let x2 := (x ^^^ x <<< 23) ^^^ (x ^^^ x <<< 23) >>> 17
  let x3 := x2 ^^^ y ^^^ y >>> 26
  let x5 := (x3 ^^^ x3.rotateLeft 13) + y
  (x5, y.rotateLeft 7 ^^^ x5)

/-- The nibble bytes of four chunk bytes from bit offset `o` (rules R94, R95), first byte in bits 31:24. -/
def Sys2Proof.Spec.nibbleWord (b d : Word) (o : Nat) : Word :=
  b.extractLsb' o 4 ++ d.extractLsb' o 4 ++ (b.extractLsb' (o + 4) 4 ++ d.extractLsb' (o + 4) 4) ++
    (b.extractLsb' (o + 8) 4 ++ d.extractLsb' (o + 8) 4) ++
    (b.extractLsb' (o + 12) 4 ++ d.extractLsb' (o + 12) 4)

/-- S0..S3 as the seeding leaves them (rules R92, R93): the packed key and IV bytes XORed with the four
constants. -/
def Sys2Proof.Spec.seeded (s : State) : PrngState where
  s0 := Sys2Proof.Spec.packSum s.key s.keylen.toNat 0 ^^^ 0x12345678#32
  s1 := Sys2Proof.Spec.packSum s.key s.keylen.toNat 4 ^^^ 0x9ABCDEF0#32
  s2 := Sys2Proof.Spec.packSum s.iv s.ivlen.toNat 0 ^^^ 0x13579BDF#32
  s3 := Sys2Proof.Spec.packSum s.iv s.ivlen.toNat 4 ^^^ 0x2468ACE0#32

/-- S0..S3 after one chunk (rule R94). -/
def Sys2Proof.Spec.advanced (S : PrngState) : PrngState where
  s0 := (Sys2Proof.Spec.prng S.s0 S.s1).1
  s1 := (Sys2Proof.Spec.prng S.s0 S.s1).2
  s2 := (Sys2Proof.Spec.prng S.s2 S.s3).1
  s3 := (Sys2Proof.Spec.prng S.s2 S.s3).2

/-- The PRNG state after `k` chunks from the seeding by a state's key and IV (rules R93, R94). -/
def Sys2Proof.Spec.prngAfter (s : State) (k : Nat) : PrngState :=
  Sys2Proof.Spec.advanced^[k] (Sys2Proof.Spec.seeded s)

/-- Bytes 0..3 and bytes 4..7 of a chunk, each as a word with its first byte in bits 31:24 (rules R34, R94),
from the state after the chunk. -/
def Sys2Proof.Spec.chunkWord (S : PrngState) (half : Nat) : Word :=
  if half = 0 then S.s0 ^^^ Sys2Proof.Spec.nibbleWord S.s1 S.s3 0
  else S.s2 ^^^ Sys2Proof.Spec.nibbleWord S.s1 S.s3 16

/-- Keystream byte `i` (rule R96): byte `i mod 8` of chunk number `i div 8`. -/
def Sys2Proof.Spec.ksByte (s : State) (i : Nat) : Byte :=
  (Sys2Proof.Spec.chunkWord (Sys2Proof.Spec.prngAfter s (i / 8 + 1)) (i % 8 / 4)).extractLsb'
    (8 * (3 - i % 4)) 8

/-- The low byte of the position factor: `(t[7:0] * 0xB9) mod 256` (rule R110). -/
def Sys2Proof.Spec.posByte (i : Nat) : Byte := BitVec.ofNat 8 (i % 256 * 0xB9)

/-- `s xor rotl32(s, r)` on naturals below `2^32`. -/
def Sys2Proof.Spec.rotXorNat (s r : Nat) : Nat := s ^^^ ((s * 2 ^ r % 2 ^ 32) ||| (s / 2 ^ (32 - r)))

/-- One loop of `createSeed` (rule R120) on naturals, from index `i`: multiplier `m`, index offset `o`,
rotation `r`. -/
def Sys2Proof.Spec.seedLoop (m o r : Nat) (bytes : List Byte) (i s : Nat) : Nat :=
  match bytes with
  | [] => s
  | b :: rest =>
    Sys2Proof.Spec.seedLoop m o r rest (i + 1)
      (Sys2Proof.Spec.rotXorNat ((s * m + b.toNat * (i + o)) % 2 ^ 32) r)

/-- `createSeed` (rule R120) on naturals. -/
def Sys2Proof.Spec.seedNat (key iv : List Byte) : Nat :=
  ((Sys2Proof.Spec.seedLoop 17 2 7 iv 0 (Sys2Proof.Spec.seedLoop 31 1 13 key 0 0)) ^^^ 0x9E3779B9) *
    0x85EBCA6B % 2 ^ 32

/-- `KEY[0..KEYLEN-1]`, element by element (rule R36). -/
def Sys2Proof.Spec.keyList (s : State) : List Byte := (List.range s.keylen.toNat).map fun k => s.key.get k

/-- `IV[0..IVLEN-1]`, element by element (rule R37). -/
def Sys2Proof.Spec.ivList (s : State) : List Byte := (List.range s.ivlen.toNat).map fun k => s.iv.get k

/-- The product that `linearGenerator` takes the absolute value of (rule R122), on naturals. -/
def Sys2Proof.Spec.drawProduct (v : Nat) : Nat :=
  let a := (v * 1664525 + 1013904223) % 2 ^ 32
  (a ^^^ a / 2 ^ 16) * 0x9E3779B9 % 2 ^ 32

/-- `abs32` (rule R12) on naturals. -/
def Sys2Proof.Spec.absNat (v : Nat) : Nat := if v < 2 ^ 31 then v else 2 ^ 32 - v

/-- `linearGenerator` (rule R122) on naturals. -/
def Sys2Proof.Spec.draw (v : Nat) : Nat := Sys2Proof.Spec.absNat (Sys2Proof.Spec.drawProduct v)

/-- An array given by its elements, with two of them exchanged. -/
def Sys2Proof.Spec.swapped (f : Nat → Nat) (i j k : Nat) : Nat :=
  if k = i then f j else if k = j then f i else f k

/-- The positions `i, i-1, .., 1` of one pass of `shuffleBlocks` (rule R125) over an array of `n` elements,
with the draw `r` and the seed `seed`. -/
def Sys2Proof.Spec.passFrom (seed r n i : Nat) (f : Nat → Nat) : Nat → Nat :=
  match i with
  | 0 => f
  | i + 1 =>
    let g := Sys2Proof.Spec.swapped f (i + 1) (r % (i + 2))
    Sys2Proof.Spec.passFrom seed r n i
      (if (i + 1) % 7 = 0 then
        Sys2Proof.Spec.swapped g (i + 1) (Sys2Proof.Spec.draw ((seed + (i + 1)) % 2 ^ 32) % n)
      else g)

/-- One pass of `shuffleBlocks`. -/
def Sys2Proof.Spec.passOver (seed n pass : Nat) (f : Nat → Nat) : Nat → Nat :=
  Sys2Proof.Spec.passFrom seed (Sys2Proof.Spec.draw ((seed + pass * 1000) % 2 ^ 32)) n (n - 1) f

/-- `shuffleBlocks` (rule R125): passes 0, 1, 2. -/
def Sys2Proof.Spec.shuffled (seed n : Nat) (f : Nat → Nat) : Nat → Nat :=
  Sys2Proof.Spec.passOver seed n 2 (Sys2Proof.Spec.passOver seed n 1 (Sys2Proof.Spec.passOver seed n 0 f))

/-- `PERM[k]` as a number, as the host reads it. -/
def Sys2Proof.Spec.entry (s : State) (k : Nat) : Nat := (s.readReg (.perm k)).toNat

/-- The state a command leaves. -/
def Sys2Proof.Spec.after (i : Instr) (s : State) : State :=
  match exec i s with
  | .next t => t
  | .fault _ => s
  | .refused _ => s

/-- A state whose IV registers hold four given bytes, IVLEN = 4. -/
def Sys2Proof.Spec.withIv4 (s : State) (a b c d : Byte) : State :=
  { s with iv := (((s.iv.set 0 a).set 1 b).set 2 c).set 3 d, ivlen := 4#8 }

/-- A state whose IV registers hold one given byte, IVLEN = 1. -/
def Sys2Proof.Spec.withIv1 (s : State) (a : Byte) : State := { s with iv := s.iv.set 0 a, ivlen := 1#8 }

/-- One iteration of the schedule by single commands (rule R136): SHUF under `ivIter(iter)`, and where
`iter mod 3 = 0` PREV and SHUF under `[(iter + 1000) mod 256]`. -/
def Sys2Proof.Spec.iterationByHand (s : State) (iter : Nat) : State :=
  let t := Sys2Proof.Spec.after .shuf
    (Sys2Proof.Spec.withIv4 s (BitVec.ofNat 8 iter) (BitVec.ofNat 8 (iter / 2 ^ 8))
      (BitVec.ofNat 8 (iter / 2 ^ 16)) (BitVec.ofNat 8 (iter / 2 ^ 24)))
  if iter % 3 = 0 then
    Sys2Proof.Spec.after .shuf
      (Sys2Proof.Spec.withIv1 (Sys2Proof.Spec.after .prev t) (BitVec.ofNat 8 (iter + 1000)))
  else t

/-- PINIT(n) and then `iters` iterations by single commands (rule R136). -/
def Sys2Proof.Spec.buildByHand (s : State) (n iters : Nat) : State :=
  (List.range iters).foldl Sys2Proof.Spec.iterationByHand
    (Sys2Proof.Spec.after .pinit { s with arg := BitVec.ofNat 32 n })

/-- The buffer offset of pixel `(x, y)` in an image `W` pixels wide (rule R52). -/
def Sys2Proof.Spec.idx (W x y : Nat) : Nat := (y * W + x) * 3

/-- The byte that channel `c` of the pixel mix XORs in (rule R115), for `t = srcIdx + destIdx`. -/
def Sys2Proof.Spec.mixByte (s : State) (t c : Nat) : Byte :=
  s.key.get ((t % s.keylen.toNat + c) % s.keylen.toNat) ^^^
    BitVec.ofNat 8 (t * 0x9E3779B9 % 2 ^ 32 / 2 ^ (8 * c))

/-- What BREMAP needs of a state to execute normally (rule R205). -/
def Sys2Proof.Spec.BremapReady (s : State) : Prop :=
  Sys2Proof.Spec.KeyOk s ∧ 1 ≤ s.width.toNat ∧ 1 ≤ s.height.toNat ∧
    s.nblk.toNat = s.width.toNat / 8 * (s.height.toNat / 8) ∧
    s.src.toNat + 3 * s.width.toNat * s.height.toNat ≤ s.memBytes ∧
    s.dst.toNat + 3 * s.width.toNat * s.height.toNat ≤ s.memBytes ∧
    (s.src.toNat + 3 * s.width.toNat * s.height.toNat ≤ s.dst.toNat ∨
      s.dst.toNat + 3 * s.width.toNat * s.height.toNat ≤ s.src.toNat)

/-- What SXF needs of a state to execute normally (rule R205). -/
def Sys2Proof.Spec.SxfReady (s : State) : Prop :=
  Sys2Proof.Spec.KeyOk s ∧ Sys2Proof.Spec.IvOk s ∧ 1 ≤ s.len.toNat ∧
    s.src.toNat + s.len.toNat ≤ s.memBytes ∧ s.dst.toNat + s.len.toNat ≤ s.memBytes ∧
    (s.src = s.dst ∨ s.src.toNat + s.len.toNat ≤ s.dst.toNat ∨
      s.dst.toNat + s.len.toNat ≤ s.src.toNat)

/-- What KSGEN needs of a state to execute normally (rule R205). -/
def Sys2Proof.Spec.KsgenReady (s : State) : Prop :=
  Sys2Proof.Spec.KeyOk s ∧ Sys2Proof.Spec.IvOk s ∧
    (s.len.toNat = 0 ∨ s.dst.toNat + s.len.toNat ≤ s.memBytes)

/-- What HIST needs of a state to execute normally (rule R205). -/
def Sys2Proof.Spec.HistReady (s : State) : Prop :=
  1 ≤ s.len.toNat ∧ s.len.toNat % 3 = 0 ∧ s.src.toNat + s.len.toNat ≤ s.memBytes

/-- What CORR needs of a state to execute normally (rule R205). -/
def Sys2Proof.Spec.CorrReady (s : State) : Prop :=
  1 ≤ s.width.toNat ∧ 1 ≤ s.height.toNat ∧
    s.src.toNat + 3 * s.width.toNat * s.height.toNat ≤ s.memBytes

/-- What PBUILD needs of a state to execute normally (rule R205). -/
def Sys2Proof.Spec.PbuildReady (s : State) : Prop :=
  Sys2Proof.Spec.KeyOk s ∧ 1 ≤ s.width.toNat ∧ 1 ≤ s.height.toNat ∧
    s.width.toNat / 8 * (s.height.toNat / 8) ≤ s.nblkMax

/-- The number of samples of value `v` in channel `c` of the pixel buffer at SRC (rule R165). -/
def Sys2Proof.Spec.channelCount (s : State) (c v : Nat) : Nat :=
  ((List.range (s.len.toNat / 3)).filter fun p =>
    decide ((s.memByte (s.src.toNat + 3 * p + c)).toNat = v)).length

/-- `s(x, y)` of the image at SRC (rule R169). -/
def Sys2Proof.Spec.pixelSum (s : State) (x y : Nat) : Nat :=
  let a := s.src.toNat + Sys2Proof.Spec.idx s.width.toNat x y
  (s.memByte a).toNat + (s.memByte (a + 1)).toNat + (s.memByte (a + 2)).toNat

/-- The sum of `|s(x,y) - s(x+dx, y+dy)|` over the pairs that exist (rule R170). -/
def Sys2Proof.Spec.diffs (s : State) (dx dy : Nat) : Nat :=
  ∑ y ∈ Finset.range (s.height.toNat - dy), ∑ x ∈ Finset.range (s.width.toNat - dx),
    ((Sys2Proof.Spec.pixelSum s x y : Int) - Sys2Proof.Spec.pixelSum s (x + dx) (y + dy)).natAbs

/-- A 64-bit sum from its two registers (rule R35). -/
def Sys2Proof.Spec.join (hi lo : Word) : Nat := hi.toNat * 2 ^ 32 + lo.toNat

/-- A state whose SRC and DST registers the host has rewritten. -/
def Sys2Proof.Spec.withBuffers (s : State) (src dst : Word) : State := { s with src := src, dst := dst }

/-! ## Encoding -/

/-- R73: each of the fourteen words, written out, decodes to its command. -/
def Obligations.CommandWordsDecode : Prop :=
  decode 0x00000001#32 = .ok .kseed ∧ decode 0x00000002#32 = .ok .kchunk ∧
  decode 0x00000003#32 = .ok .ksgen ∧ decode 0x00000004#32 = .ok .sxf ∧
  decode 0x00000010#32 = .ok .cseed ∧ decode 0x00000011#32 = .ok .lgen ∧
  decode 0x00000012#32 = .ok .pinit ∧ decode 0x00000013#32 = .ok .shuf ∧
  decode 0x00000014#32 = .ok .prev ∧ decode 0x00000015#32 = .ok .pbuild ∧
  decode 0x00000016#32 = .ok .pinv ∧ decode 0x00000017#32 = .ok .bremap ∧
  decode 0x00000020#32 = .ok .hist ∧ decode 0x00000021#32 = .ok .corr

/-- R71, R73, R74: a word decodes exactly when it is a command's `match` value, and then to that command;
every other word is rejected. -/
def Obligations.OnlyMatchValuesDecode : Prop :=
  ∀ v : Word,
    (∀ i, decode v = .ok i ↔ encode i = v) ∧
      ((∃ e, decode v = .error e) ↔ v.toNat ∉ Spec.matchValues)

/-- R77, R21: the assembler's index of a register that exists is the one the table of rule R21 gives that
name, and the register map has the register there exactly when it exists. -/
def Obligations.AssemblerIndexNamesRegister : Prop :=
  ∀ (nblkMax : Nat) (r : Reg),
    (r.wellFormed nblkMax = true ↔ regAt nblkMax (indexOf r) = some r) ∧
      (r.wellFormed nblkMax = true → (indexOf r).toNat = Spec.tableIndex r)

/-! ## Steps and transactions -/

/-- R22: while ERR is clear, the step that serves a CMD write of a legal word stores the word and runs exactly
the decoded command, which answers a next state, and the host gets its (empty) reply. -/
def Obligations.StepRunsDecodedCommand : Prop :=
  ∀ (s : State) (v : Word) (i : Instr), s.errFlag = false → decode v = .ok i →
    ∃ t, exec i { s with cmd := v } = .next t ∧
      step (Spec.offer s (.regWrite 0#32 v)) = .next (Spec.answered t .nothing)

/-- R209: while ERR is set, a CMD write of any word, legal or not, changes nothing. Every other transaction is
served as it would be with any other STATUS: the resets with the same outcome, the rest with STATUS left as it
was, and a read of STATUS answers its value. -/
def Obligations.CmdWriteRefusedWhileErr : Prop :=
  ∀ s : State, s.errFlag = true →
    (∀ v, step (Spec.offer s (.regWrite 0#32 v)) = .next (Spec.answered s .nothing)) ∧
    (∀ (x : BitVec 2) (t : Transaction),
      (∀ i v, t = .regWrite i v → i ≠ 0#32 ∧ (i = 3#32 → v.getLsbD 0 = false)) →
      t ≠ .externalReset → t ≠ .regRead 1#32 →
      ∃ u, step (Spec.offer { s with status := x } t) = .next u ∧
        step (Spec.offer s t) = .next { u with status := s.status }) ∧
    (∀ (x : BitVec 2) (t : Transaction),
      (t = .externalReset ∨ ∃ v : Word, v.getLsbD 0 = true ∧ t = .regWrite 3#32 v) →
      step (Spec.offer { s with status := x } t) = step (Spec.offer s t)) ∧
    step (Spec.offer s (.regRead 1#32)) = .next (Spec.answered s (.word (s.status.setWidth 32)))

/-- R203: a CMD write of a word with an unassigned opcode or a nonzero reserved field faults
UnsupportedAlgorithm: STATUS = 2, ERRCODE = 2, CMD holds the word, nothing else changes. -/
def Obligations.IllegalWordFaults : Prop :=
  ∀ (s : State) (v : Word), s.errFlag = false →
    (v.toNat / 2 ^ 8 ≠ 0 ∨ v.toNat % 2 ^ 8 ∉ Spec.matchValues) →
    step (Spec.offer s (.regWrite 0#32 v)) =
      .next (Spec.answered { s with cmd := v, status := 2#2, errcode := 2#8 } .nothing)

/-- R207: when a CMD write raises a fault, CMD keeps the word just written, DONE is cleared, ERR set, ERRCODE
takes the code, and every other register and every byte of MEM is unchanged. -/
def Obligations.FaultEntryChangesStatusOnly : Prop :=
  ∀ (s t : State) (v : Word), s.errFlag = false →
    step (Spec.offer s (.regWrite 0#32 v)) = .next t → t.errFlag = true →
    ∃ f : FaultKind, t = Spec.answered { s with cmd := v, status := 2#2, errcode := f.code } .nothing ∧
      f.code ∈ [1#8, 2#8, 4#8]

/-- R243: a step that has a transaction to serve answers a next state. That a step without one does so too is
the model's choice of notes/assumptions/3.md. -/
def Obligations.StepAlwaysAnswersNext : Prop := ∀ s : State, ∃ t, step s = .next t

/-- R8 and notes/assumptions/2.md (the model's choice to carry the two sizes in State): no step changes
MEM_BYTES or NBLK_MAX. -/
def Obligations.StepsKeepSizes : Prop :=
  ∀ s t : State, step s = .next t → t.memBytes = s.memBytes ∧ t.nblkMax = s.nblkMax

/-- R244 and notes/assumptions/3.md: with no transaction left, a step changes nothing (the model's choice). -/
def Obligations.StepWithoutTransactionIdles : Prop := ∀ s : State, s.inbox = [] → step s = .next s

/-- R62, R21, R39, R51: a register read answers the register that rule R21 names at the index, a memory read
the byte at the address (0 beyond MEM), and neither changes anything. -/
def Obligations.ReadsChangeNothing : Prop :=
  ∀ s : State,
    (∀ i : Word, step (Spec.offer s (.regRead i)) =
      .next (Spec.answered s (.word (Spec.registerValue s i.toNat)))) ∧
    ∀ a, step (Spec.offer s (.memRead a)) =
      .next (Spec.answered s (.byte (if a < s.memBytes then s.memByte a else 0#8)))

/-- R41: an unmapped register index reads as 0 and ignores writes, with no fault and STATUS unchanged. -/
def Obligations.UnmappedIndexReadsZero : Prop :=
  ∀ (s : State) (i : Word), ¬Spec.mapped s.nblkMax i.toNat →
    step (Spec.offer s (.regRead i)) = .next (Spec.answered s (.word 0#32)) ∧
      ∀ v, step (Spec.offer s (.regWrite i v)) = .next (Spec.answered s .nothing)

/-- R42: a host write to a read-only register changes nothing; a read of CTRL answers 0. -/
def Obligations.ReadOnlyWritesIgnored : Prop :=
  ∀ s : State,
    (∀ i v : Word, Spec.readOnlyIndex s.nblkMax i.toNat →
      step (Spec.offer s (.regWrite i v)) = .next (Spec.answered s .nothing)) ∧
    step (Spec.offer s (.regRead 3#32)) = .next (Spec.answered s (.word 0#32))

/-- R21: a write to a plain read-write register stores the low bits of the value in the register that rule R21
names at the index; every other index reads as before, and MEM, PERM, the sizes of both and the host's remaining
transactions are unchanged. -/
def Obligations.RegisterWriteThenRead : Prop :=
  ∀ (s : State) (i v : Word) (w : Nat), Spec.plainWidth i.toNat = some w →
    ∃ t, step (Spec.offer s (.regWrite i v)) = .next t ∧
      Spec.registerValue t i.toNat = BitVec.ofNat 32 (v.toNat % 2 ^ w) ∧
      (∀ j : Word, j ≠ i → Spec.registerValue t j.toNat = Spec.registerValue s j.toNat) ∧
      t.perm = s.perm ∧ t.mem = s.mem ∧ t.memEpoch = s.memEpoch ∧ t.memBytes = s.memBytes ∧
      t.nblkMax = s.nblkMax ∧ t.inbox = s.inbox ∧ t.replies = s.replies ++ [.nothing]

/-- R51: host memory transactions: inside MEM a read answers the byte and a write sets it and leaves every
other byte and every register alone; at or beyond `MEM_BYTES` a read answers 0 and a write is ignored. They
are served whatever STATUS is. -/
def Obligations.HostMemoryAccess : Prop :=
  ∀ (s : State) (a : Nat) (b : Byte),
    (a < s.memBytes →
      step (Spec.offer s (.memRead a)) = .next (Spec.answered s (.byte (s.memByte a))) ∧
        ∃ t, step (Spec.offer s (.memWrite a b)) = .next t ∧
          t = Spec.answered { s with mem := t.mem } .nothing ∧
          t.memByte a = b ∧ ∀ x, x ≠ a → t.memByte x = s.memByte x) ∧
    (¬a < s.memBytes →
      step (Spec.offer s (.memRead a)) = .next (Spec.answered s (.byte 0#8)) ∧
        step (Spec.offer s (.memWrite a b)) = .next (Spec.answered s .nothing))

/-! ## Reset -/

/-- R46: after reset every register reads its reset value, whatever the sizes of MEM and PERM, and DONE, ERR
are clear and PERM is empty. -/
def Obligations.ResetValues : Prop :=
  (∀ memBytes nblkMax : Nat,
    (∀ i : Word, Spec.registerValue (State.resetOf memBytes nblkMax) i.toNat = Spec.resetValue i.toNat) ∧
      (State.resetOf memBytes nblkMax).perm = []) ∧
  State.reset.status = 0#2 ∧ ∀ i : Word, Spec.registerValue State.reset i.toNat = Spec.resetValue i.toNat

/-- R225, R46, R210: a soft reset returns every register to its reset value and leaves MEM unchanged, an
external reset returns every register, both are served whatever STATUS is, and no other transaction clears ERR.
The rules say only that an external reset leaves MEM unspecified: that each byte is then the free value
`Config.powerOnByte` of a new epoch, and that the sizes of MEM and PERM stand in State and stay, are the model's
choices of notes/assumptions/1.md, 12.md and 2.md. -/
def Obligations.ResetsRestoreRegisters : Prop :=
  ∀ s : State,
    (∀ v : Word, v.getLsbD 0 = true →
      ∃ t, step (Spec.offer s (.regWrite 3#32 v)) = .next t ∧
        (∀ i : Word, Spec.registerValue t i.toNat = Spec.resetValue i.toNat) ∧ t.perm = [] ∧
        (∀ a, t.memByte a = s.memByte a) ∧ t.memBytes = s.memBytes ∧ t.nblkMax = s.nblkMax ∧
        t.inbox = s.inbox ∧ t.replies = s.replies ++ [.nothing]) ∧
    (∃ t, step (Spec.offer s .externalReset) = .next t ∧
      (∀ i : Word, Spec.registerValue t i.toNat = Spec.resetValue i.toNat) ∧ t.perm = [] ∧
      (∀ a, t.memByte a = Config.powerOnByte (s.memEpoch + 1) a) ∧ t.memBytes = s.memBytes ∧
      t.nblkMax = s.nblkMax ∧ t.inbox = s.inbox ∧ t.replies = s.replies ++ [.nothing]) ∧
    ∀ (x : Transaction) (t : State), s.errFlag = true → step (Spec.offer s x) = .next t →
      t.errFlag = false → x = .externalReset ∨ ∃ v : Word, v.getLsbD 0 = true ∧ x = .regWrite 3#32 v

/-- R25, R228: a CTRL write with bit 0 clear does nothing, and bits 31:1 of a CTRL write are ignored. -/
def Obligations.CtrlWriteUsesBitZero : Prop :=
  ∀ (s : State) (v : Word),
    (v.getLsbD 0 = false → step (Spec.offer s (.regWrite 3#32 v)) = .next (Spec.answered s .nothing)) ∧
    (v.getLsbD 0 = true →
      step (Spec.offer s (.regWrite 3#32 v)) = step (Spec.offer s (.regWrite 3#32 1#32)))

/-- R210, R23: a step that finds ERR set and ERRCODE latched leaves both as they are, unless it serves a soft
or an external reset. -/
def Obligations.ErrClearedOnlyByReset : Prop :=
  ∀ (s t : State), s.errFlag = true → step s = .next t →
    (∀ v rest, s.inbox = .regWrite 3#32 v :: rest → v.getLsbD 0 = false) →
    (∀ rest, s.inbox ≠ .externalReset :: rest) →
    t.status = s.status ∧ t.errcode = s.errcode

/-! ## Invariants -/

/-- The reset state has the invariant, for every legal `MEM_BYTES` and `NBLK_MAX`. -/
def Obligations.ResetHasInvariant : Prop :=
  State.reset.Inv ∧
    ∀ memBytes nblkMax : Nat, 1 ≤ memBytes → memBytes ≤ 2 ^ 32 → 1 ≤ nblkMax →
      (State.resetOf memBytes nblkMax).Inv

/-- R40, R23, R24, R213, R32: every step keeps the invariant. -/
def Obligations.StepKeepsInvariant : Prop := ∀ s t : State, s.Inv → step s = .next t → t.Inv

/-- R213: no step raises DimensionMismatch. -/
def Obligations.DimensionMismatchNeverRaised : Prop :=
  ∀ s t : State, s.errcode ≠ 3#8 → step s = .next t → t.errcode ≠ 3#8

/-! ## All commands -/

/-- R205: a command whose first failing check gives a code takes that fault and changes nothing else; a
command that passes its checks completes: DONE is set, ERR and ERRCODE stay. -/
def Obligations.CheckTableDecidesFaults : Prop :=
  ∀ (i : Instr) (s : State),
    match Spec.faultCode i s with
    | some c => exec i s = .next { s with status := 2#2, errcode := BitVec.ofNat 8 c }
    | none => ∃ t, exec i s = .next t ∧ t.status = s.status ||| 1#2 ∧ t.errcode = s.errcode

/-- R26, R27, R28, R29, R30, R36, R37: no command writes an operand register, a KEY or IV register, CMD, the
size of MEM or of PERM, or the host's lists. -/
def Obligations.CommandsKeepOperandRegisters : Prop :=
  ∀ (i : Instr) (s t : State), exec i s = .next t →
    t.cmd = s.cmd ∧ t.src = s.src ∧ t.dst = s.dst ∧ t.len = s.len ∧ t.width = s.width ∧
    t.height = s.height ∧ t.iters = s.iters ∧ t.keylen = s.keylen ∧ t.ivlen = s.ivlen ∧
    t.arg = s.arg ∧ t.key = s.key ∧ t.iv = s.iv ∧ t.memBytes = s.memBytes ∧
    t.nblkMax = s.nblkMax ∧ t.memEpoch = s.memEpoch ∧ t.inbox = s.inbox ∧ t.replies = s.replies

/-- R68: KSGEN and SXF write only `MEM[DST .. DST+LEN-1]`, BREMAP only `MEM[DST .. DST+3WH-1]`, no other
command writes MEM, and no byte of the source of SXF (where it is not the destination) or of BREMAP changes. -/
def Obligations.CommandsWriteOnlyDestination : Prop :=
  ∀ (i : Instr) (s t : State), exec i s = .next t →
    ((i = .ksgen ∨ i = .sxf) →
      ∀ a, (a < s.dst.toNat ∨ s.dst.toNat + s.len.toNat ≤ a) → t.memByte a = s.memByte a) ∧
    (i = .sxf → s.src ≠ s.dst →
      ∀ a, s.src.toNat ≤ a → a < s.src.toNat + s.len.toNat → t.memByte a = s.memByte a) ∧
    (i = .bremap →
      ∀ a, (a < s.dst.toNat ∨ s.dst.toNat + 3 * s.width.toNat * s.height.toNat ≤ a ∨
          (s.src.toNat ≤ a ∧ a < s.src.toNat + 3 * s.width.toNat * s.height.toNat)) →
        t.memByte a = s.memByte a) ∧
    (i ≠ .ksgen → i ≠ .sxf → i ≠ .bremap → t.mem = s.mem)

/-! ## Keystream unit -/

/-- R97, R93: KSEED loads S0..S3 from the key and IV bytes present, most significant byte first, XORed with
the four constants; nothing else but DONE changes. -/
def Obligations.KseedLoadsKeyAndIv : Prop :=
  ∀ s : State, Spec.KeyOk s → Spec.IvOk s →
    exec .kseed s = .next { s with
      s0 := Spec.packSum s.key s.keylen.toNat 0 ^^^ 0x12345678#32
      s1 := Spec.packSum s.key s.keylen.toNat 4 ^^^ 0x9ABCDEF0#32
      s2 := Spec.packSum s.iv s.ivlen.toNat 0 ^^^ 0x13579BDF#32
      s3 := Spec.packSum s.iv s.ivlen.toNat 4 ^^^ 0x2468ACE0#32
      status := s.status ||| 1#2 }

/-- R98, R90, R94: KCHUNK runs `customPRNG` on each half-state, and KOUT0, KOUT1 are the updated S0, S2 XORed
with the nibbles of the updated S1 and S3; nothing else but DONE changes, in every state. -/
def Obligations.KchunkAdvancesState : Prop :=
  ∀ s : State,
    let p := Spec.prng s.s0 s.s1
    let q := Spec.prng s.s2 s.s3
    exec .kchunk s = .next { s with
      s0 := p.1, s1 := p.2, s2 := q.1, s3 := q.2
      kout0 := p.1 ^^^ Spec.nibbleWord p.2 q.2 0
      kout1 := q.1 ^^^ Spec.nibbleWord p.2 q.2 16
      status := s.status ||| 1#2 }

/-- R226: from the all-zero PRNG state KCHUNK leaves S0..S3 zero and answers KOUT0 = KOUT1 = 0. -/
def Obligations.KchunkFixesZeroState : Prop :=
  ∀ s : State, s.s0 = 0#32 → s.s1 = 0#32 → s.s2 = 0#32 → s.s3 = 0#32 →
    exec .kchunk s = .next { s with kout0 := 0#32, kout1 := 0#32, status := s.status ||| 1#2 }

/-- R99, R96: KSGEN writes keystream byte `i` to `MEM[DST + i]` for `i < LEN`, leaves every other byte of MEM
alone, and S0..S3 hold the state after `ceil(LEN / 8)` chunks; nothing else but DONE changes. -/
def Obligations.KsgenWritesKeystream : Prop :=
  ∀ s : State, Spec.KsgenReady s →
    ∃ t, exec .ksgen s = .next t ∧
      (let S := Spec.prngAfter s ((s.len.toNat + 7) / 8)
      t = { s with
        s0 := S.s0, s1 := S.s1, s2 := S.s2, s3 := S.s3, mem := t.mem, status := s.status ||| 1#2 }) ∧
      (∀ i, i < s.len.toNat → t.memByte (s.dst.toNat + i) = Spec.ksByte s i) ∧
      ∀ a, (a < s.dst.toNat ∨ s.dst.toNat + s.len.toNat ≤ a) → t.memByte a = s.memByte a

/-- R100: KSGEN run from two states with the same KEY, KEYLEN, IV, IVLEN and LEN writes the same bytes,
whatever S0..S3 (and everything else) held before. -/
def Obligations.KsgenDependsOnKeyAndIvOnly : Prop :=
  ∀ s s' : State, Spec.KsgenReady s → Spec.KsgenReady s' → s'.key = s.key → s'.keylen = s.keylen →
    s'.iv = s.iv → s'.ivlen = s.ivlen → s'.len = s.len →
    ∃ t t', exec .ksgen s = .next t ∧ exec .ksgen s' = .next t' ∧ t'.prng = t.prng ∧
      ∀ i, i < s.len.toNat → t'.memByte (s'.dst.toNat + i) = t.memByte (s.dst.toNat + i)

/-- R96: a keystream is a prefix of every longer one for the same key and IV. -/
def Obligations.KeystreamIsPrefix : Prop :=
  ∀ (n m : Nat) (key iv : List Byte), n ≤ m →
    (generateKeyStream n key iv).1 = (generateKeyStream m key iv).1.take n ∧
      (generateKeyStream n key iv).1.length = n

/-- R98: after KSEED, the (n+1)-th KCHUNK leaves keystream bytes `8n .. 8n+7` in KOUT0, KOUT1, most
significant byte first. -/
def Obligations.KchunksYieldKeystream : Prop :=
  ∀ (s : State) (n : Nat), Spec.KeyOk s → Spec.IvOk s →
    let t := (Spec.after .kchunk)^[n + 1] (Spec.after .kseed s)
    ∀ j, j < 4 →
      t.kout0.extractLsb' (8 * (3 - j)) 8 = Spec.ksByte s (8 * n + j) ∧
        t.kout1.extractLsb' (8 * (3 - j)) 8 = Spec.ksByte s (8 * n + 4 + j)

/-! ## XOR datapath -/

/-- R110: the position factor is `t * 0x9E3779B9` mod `2^32`, depends only on `t` mod `2^32`, and its low byte
is `(t[7:0] * 0xB9) mod 256`, of period 256; with the values the rule lists. -/
def Obligations.PositionFactorFormula : Prop :=
  (∀ t : Nat, (posFactor t).toNat = t * 0x9E3779B9 % 2 ^ 32 ∧ posFactor (t % 2 ^ 32) = posFactor t ∧
    (posFactor t).extractLsb' 0 8 = Spec.posByte t ∧
    (posFactor (t + 256)).extractLsb' 0 8 = (posFactor t).extractLsb' 0 8) ∧
  posFactor 0 = 0#32 ∧ posFactor 1 = 0x9E3779B9#32 ∧ posFactor 2 = 0x3C6EF372#32 ∧
  posFactor 3 = 0xDAA66D2B#32 ∧ posFactor 0x10000 = 0x79B90000#32 ∧
  posFactor 0xFFFFFFFF = 0x61C88647#32

/-- R112, R111: SXF writes `MEM[SRC+i] xor ks[i] xor posFactor(i)[7:0]` (MEM as it was) to `MEM[DST+i]` for
`i < LEN`, leaves every other byte of MEM alone, and S0..S3 hold the state after `ceil(LEN / 8)` chunks;
nothing else but DONE changes. -/
def Obligations.SxfTransformsBuffer : Prop :=
  ∀ s : State, Spec.SxfReady s →
    ∃ t, exec .sxf s = .next t ∧
      (let S := Spec.prngAfter s ((s.len.toNat + 7) / 8)
      t = { s with
        s0 := S.s0, s1 := S.s1, s2 := S.s2, s3 := S.s3, mem := t.mem, status := s.status ||| 1#2 }) ∧
      (∀ i, i < s.len.toNat →
        t.memByte (s.dst.toNat + i) =
          s.memByte (s.src.toNat + i) ^^^ Spec.ksByte s i ^^^ Spec.posByte i) ∧
      ∀ a, (a < s.dst.toNat ∨ s.dst.toNat + s.len.toNat ≤ a) → t.memByte a = s.memByte a

/-- R113: the stream transform is its own inverse for every buffer, key and IV; and so SXF from SRC to DST and
then SXF from DST to any third place (or the same one) gives back the source bytes. -/
def Obligations.SxfTwiceRestoresBuffer : Prop :=
  (∀ buf key iv : List Byte, (transform (transform buf key iv).1 key iv).1 = buf) ∧
  ∀ (s : State) (back : Word), Spec.SxfReady s → Spec.SxfReady (Spec.withBuffers s s.dst back) →
    ∃ t u, exec .sxf s = .next t ∧ exec .sxf (Spec.withBuffers t s.dst back) = .next u ∧
      ∀ i, i < s.len.toNat → u.memByte (back.toNat + i) = s.memByte (s.src.toNat + i)

/-- R115: the pixel mix is symmetric in its two indices and is its own inverse for a fixed index pair. -/
def Obligations.PixelMixIsInvolution : Prop :=
  ∀ (p : Pixel) (a b : Nat) (key : List Byte), 1 ≤ key.length →
    pixelMix p a b key = pixelMix p b a key ∧ pixelMix (pixelMix p a b key) b a key = p

/-! ## Permutation engine -/

/-- R131, R120: CSEED writes `createSeed` of the key and IV bytes to SEED, computed on naturals mod `2^32`;
nothing else but DONE changes. -/
def Obligations.CseedComputesSeed : Prop :=
  ∀ s : State, Spec.KeyOk s → Spec.IvOk s →
    exec .cseed s = .next { s with
      seed := BitVec.ofNat 32 (Spec.seedNat (Spec.keyList s) (Spec.ivList s)), status := s.status ||| 1#2 }

/-- R132, R122, R123: LGEN writes `linearGenerator(ARG)` to RES, computed on naturals mod `2^32`; nothing else
but DONE changes, in every state. The right shift by 16 is the named reading `LG_SHIFT` of rule R122
(notes/assumptions/7.md). -/
def Obligations.LgenDrawsNumber : Prop :=
  ∀ s : State,
    exec .lgen s = .next { s with
      res := BitVec.ofNat 32 (Spec.draw s.arg.toNat), status := s.status ||| 1#2 }

/-- R123: the result of `linearGenerator` is the absolute value of the product read as a signed number, at
most `2^31`; a product of `0x80000000` gives `2^31`, as for the argument `0xD2388FE5`. -/
def Obligations.LinearGeneratorIsAbsoluteValue : Prop :=
  (∀ v : Word,
    (linearGenerator v).toNat = (BitVec.ofNat 32 (Spec.drawProduct v.toNat)).toInt.natAbs ∧
      (linearGenerator v).toNat ≤ 2 ^ 31 ∧
      (Spec.drawProduct v.toNat = 2 ^ 31 → (linearGenerator v).toNat = 2 ^ 31)) ∧
  linearGenerator 0xD2388FE5#32 = 0x80000000#32

/-- R133: PINIT with `ARG <= NBLK_MAX` sets NBLK to ARG and `PERM[k]` to `k`; nothing else but DONE changes. -/
def Obligations.PinitLoadsIdentity : Prop :=
  ∀ s : State, s.arg.toNat ≤ s.nblkMax →
    ∃ t, exec .pinit s = .next t ∧
      t = { s with nblk := s.arg, perm := t.perm, status := s.status ||| 1#2 } ∧
      t.perm.length = s.arg.toNat ∧ (∀ k, k < s.arg.toNat → Spec.entry t k = k) ∧
      ∀ k, s.arg.toNat ≤ k → Spec.entry t k = 0

/-- R134, R125: SHUF leaves in `PERM[k]` what the pseudocode of `shuffleBlocks`, run on the old entries with
the seed of the key and IV, leaves there; nothing else but DONE changes. -/
def Obligations.ShufMatchesPseudocode : Prop :=
  ∀ s : State, Spec.KeyOk s → Spec.IvOk s →
    ∃ t, exec .shuf s = .next t ∧
      t = { s with perm := t.perm, status := s.status ||| 1#2 } ∧ t.perm.length = s.nblk.toNat ∧
      ∀ k, k < s.nblk.toNat →
        Spec.entry t k =
          Spec.shuffled (Spec.seedNat (Spec.keyList s) (Spec.ivList s)) s.nblk.toNat (Spec.entry s) k

/-- R126 (e): `shuffleBlocks` moves elements and never inspects them: on any array it is the rearrangement it
makes of the positions. -/
def Obligations.ShuffleMovesPositions : Prop :=
  ∀ (A : List Nat) (key iv : List Byte),
    shuffleBlocks A key iv =
        (shuffleBlocks (List.range A.length) key iv).map (fun k => A.getD k 0) ∧
      (shuffleBlocks (List.range A.length) key iv).Perm (List.range A.length)

/-- R135: PREV puts the old `PERM[n-1-k]` in `PERM[k]`; nothing else but DONE changes, in every state; two
PREV in a row restore the array. -/
def Obligations.PrevReversesArray : Prop :=
  ∀ s : State,
    ∃ t u, exec .prev s = .next t ∧ t = { s with perm := t.perm, status := s.status ||| 1#2 } ∧
      t.perm.length = s.nblk.toNat ∧
      (∀ k, k < s.nblk.toNat → Spec.entry t k = Spec.entry s (s.nblk.toNat - 1 - k)) ∧
      exec .prev t = .next u ∧ ∀ k, k < s.nblk.toNat → Spec.entry u k = Spec.entry s k

/-- R136: PBUILD writes only NBLK and PERM (and DONE), and leaves in them what PINIT(n) and then, for each
iteration, SHUF, and every third time PREV and SHUF, leave there, run as single commands under the iteration's
IV bytes. -/
def Obligations.PbuildEqualsCommandSequence : Prop :=
  ∀ s : State, Spec.PbuildReady s →
    let n := s.width.toNat / 8 * (s.height.toNat / 8)
    let u := Spec.buildByHand s n s.iters.toNat
    exec .pbuild s = .next { s with
      nblk := BitVec.ofNat 32 n, perm := u.perm, status := s.status ||| 1#2 } ∧
      u.nblk = BitVec.ofNat 32 n ∧ u.perm.length = n

/-- R128: PBUILD reads neither IV nor IVLEN: other IV registers change nothing it does. -/
def Obligations.PbuildIgnoresIv : Prop :=
  ∀ (s : State) (iv : RegFile 8 16) (ivlen : Byte),
    ∃ t, exec .pbuild s = .next t ∧
      exec .pbuild { s with iv := iv, ivlen := ivlen } = .next { t with iv := iv, ivlen := ivlen }

/-- R137, R129: where PERM is a permutation, PINV puts `o` in `PERM[P[o]]` for every old entry `P[o]`, and
`P[Q[m]] = m`; nothing else but DONE changes; two PINV in a row restore the array. -/
def Obligations.PinvInvertsArray : Prop :=
  ∀ s : State, s.PermOk →
    ∃ t u, exec .pinv s = .next t ∧ t = { s with perm := t.perm, status := s.status ||| 1#2 } ∧
      t.perm.length = s.nblk.toNat ∧
      (∀ o, o < s.nblk.toNat → Spec.entry s o < s.nblk.toNat ∧ Spec.entry t (Spec.entry s o) = o ∧
        Spec.entry s (Spec.entry t o) = o) ∧
      exec .pinv t = .next u ∧ u.perm = s.perm

/-! ## Block remap -/

/-- R159, R150: the destinations of the whole-block pixels and the trailing pixels are the pixels of the
image, each exactly once. -/
def Obligations.RemapWritesEachPixelOnce : Prop :=
  ∀ (W H : Nat) (P : List Nat), P.Perm (List.range (W / 8 * (H / 8))) →
    ((wholeMoves W H P).map (fun m => m.2) ++ tailPixels W H).Perm (List.range (W * H))

/-- R155, R153, R154: where PERM is a permutation, BREMAP writes each pixel of block `b` to its place in block
`PERM[b]`, mixed with `t = srcIdx + destIdx`, and each trailing pixel to its own place, mixed with
`t = 2 * idx`; every byte outside the destination image and every register but STATUS is unchanged. -/
def Obligations.BremapMovesAndMixes : Prop :=
  ∀ s : State, Spec.BremapReady s → s.PermOk →
    let W := s.width.toNat
    let H := s.height.toNat
    ∃ t, exec .bremap s = .next t ∧ t = { s with mem := t.mem, status := s.status ||| 1#2 } ∧
      (∀ b px py c, b < s.nblk.toNat → px < 8 → py < 8 → c < 3 →
        let d := Spec.entry s b
        let srcIdx := Spec.idx W (8 * (b % (W / 8)) + px) (8 * (b / (W / 8)) + py)
        let destIdx := Spec.idx W (8 * (d % (W / 8)) + px) (8 * (d / (W / 8)) + py)
        t.memByte (s.dst.toNat + destIdx + c) =
          s.memByte (s.src.toNat + srcIdx + c) ^^^ Spec.mixByte s (srcIdx + destIdx) c) ∧
      (∀ x y c, x < W → y < H → c < 3 → (8 * (W / 8) ≤ x ∨ 8 * (H / 8) ≤ y) →
        let i := Spec.idx W x y
        t.memByte (s.dst.toNat + i + c) =
          s.memByte (s.src.toNat + i + c) ^^^ Spec.mixByte s (2 * i) c) ∧
      ∀ a, (a < s.dst.toNat ∨ s.dst.toNat + 3 * W * H ≤ a) → t.memByte a = s.memByte a

/-- R156, R157, R158: for every image, key of 1 to 16 bytes and iteration count, PBUILD and BREMAP from SRC to
DST and then PBUILD, PINV and BREMAP from DST to a third place give back the source image bit for bit. -/
def Obligations.DecryptRestoresImage : Prop :=
  ∀ (s : State) (back : Word), Spec.PbuildReady s →
    (let n3 := 3 * s.width.toNat * s.height.toNat
    s.src.toNat + n3 ≤ s.memBytes ∧ s.dst.toNat + n3 ≤ s.memBytes ∧ back.toNat + n3 ≤ s.memBytes ∧
      (s.src.toNat + n3 ≤ s.dst.toNat ∨ s.dst.toNat + n3 ≤ s.src.toNat) ∧
      (back.toNat + n3 ≤ s.dst.toNat ∨ s.dst.toNat + n3 ≤ back.toNat)) →
    ∃ t1 t2 t3 t4 t5, exec .pbuild s = .next t1 ∧ exec .bremap t1 = .next t2 ∧
      exec .pbuild (Spec.withBuffers t2 s.dst back) = .next t3 ∧ exec .pinv t3 = .next t4 ∧
      exec .bremap t4 = .next t5 ∧
      ∀ i, i < 3 * s.width.toNat * s.height.toNat →
        t5.memByte (back.toNat + i) = s.memByte (s.src.toNat + i)

/-! ## Metrics -/

/-- R166, R165: HIST leaves in `HR[v]`, `HG[v]`, `HB[v]` the number of pixels of the buffer whose R, G, B byte
is `v`, for every `v`; nothing else but DONE changes. -/
def Obligations.HistCountsChannels : Prop :=
  ∀ s : State, Spec.HistReady s →
    ∃ t, exec .hist s = .next t ∧
      t = { s with hr := t.hr, hg := t.hg, hb := t.hb, status := s.status ||| 1#2 } ∧
      ∀ v, v < 256 →
        (t.hr.get v).toNat = Spec.channelCount s 0 v ∧ (t.hg.get v).toNat = Spec.channelCount s 1 v ∧
          (t.hb.get v).toNat = Spec.channelCount s 2 v

/-- R167: after a successful HIST the counters of each channel sum to `LEN / 3`, and all of them to LEN. -/
def Obligations.HistogramConserved : Prop :=
  ∀ s : State, Spec.HistReady s →
    ∃ t, exec .hist s = .next t ∧
      (let sum := fun f : RegFile 32 256 => (f.cells.map BitVec.toNat).sum
      sum t.hr = s.len.toNat / 3 ∧ sum t.hg = s.len.toNat / 3 ∧ sum t.hb = s.len.toNat / 3 ∧
        sum t.hr + sum t.hg + sum t.hb = s.len.toNat)

/-- R172, R170, R35: CORR leaves in its register pairs the three sums of absolute pixel-sum differences and in
NH, NV, ND the numbers of pairs; nothing else but DONE changes. -/
def Obligations.CorrAccumulatesDifferences : Prop :=
  ∀ s : State, Spec.CorrReady s →
    ∃ t, exec .corr s = .next t ∧
      t = { s with
        ahLo := t.ahLo, ahHi := t.ahHi, avLo := t.avLo, avHi := t.avHi, adLo := t.adLo, adHi := t.adHi
        nh := t.nh, nv := t.nv, nd := t.nd, status := s.status ||| 1#2 } ∧
      Spec.join t.ahHi t.ahLo = Spec.diffs s 1 0 ∧ Spec.join t.avHi t.avLo = Spec.diffs s 0 1 ∧
      Spec.join t.adHi t.adLo = Spec.diffs s 1 1 ∧
      t.nh.toNat = (s.width.toNat - 1) * s.height.toNat ∧
      t.nv.toNat = s.width.toNat * (s.height.toNat - 1) ∧
      t.nd.toNat = (s.width.toNat - 1) * (s.height.toNat - 1)

/-- R171: each CORR sum is at most 765 times its count and below `2^42`, each count is below `2^32 / 3`, and
an image one pixel wide or high has zero sums and counts in the directions without pairs. -/
def Obligations.CorrBounds : Prop :=
  ∀ s : State, s.ParamsOk → Spec.CorrReady s →
    ∃ t, exec .corr s = .next t ∧
      Spec.join t.ahHi t.ahLo ≤ 765 * t.nh.toNat ∧ Spec.join t.avHi t.avLo ≤ 765 * t.nv.toNat ∧
      Spec.join t.adHi t.adLo ≤ 765 * t.nd.toNat ∧
      Spec.join t.ahHi t.ahLo < 2 ^ 42 ∧ Spec.join t.avHi t.avLo < 2 ^ 42 ∧
      Spec.join t.adHi t.adLo < 2 ^ 42 ∧
      3 * t.nh.toNat < 2 ^ 32 ∧ 3 * t.nv.toNat < 2 ^ 32 ∧ 3 * t.nd.toNat < 2 ^ 32 ∧
      (s.width.toNat = 1 →
        t.nh = 0#32 ∧ t.nd = 0#32 ∧ Spec.join t.ahHi t.ahLo = 0 ∧ Spec.join t.adHi t.adLo = 0) ∧
      (s.height.toNat = 1 →
        t.nv = 0#32 ∧ t.nd = 0#32 ∧ Spec.join t.avHi t.avLo = 0 ∧ Spec.join t.adHi t.adLo = 0)
end

