-- ==== Sys2Proof/Laws/State.lean ====
section
/-! SUPPORT. For each named update of State one lemma per field, true by rfl, so that no proof unfolds a record
update; then the operands that an update leaves alone. -/

namespace Sys2Proof.Machine

variable (s : State)

/-! ## complete -/

@[simp] theorem State.complete_cmd : (s.complete).cmd = s.cmd := rfl
@[simp] theorem State.complete_status : (s.complete).status = statusWithDone s.status := rfl
@[simp] theorem State.complete_errcode : (s.complete).errcode = s.errcode := rfl
@[simp] theorem State.complete_src : (s.complete).src = s.src := rfl
@[simp] theorem State.complete_dst : (s.complete).dst = s.dst := rfl
@[simp] theorem State.complete_len : (s.complete).len = s.len := rfl
@[simp] theorem State.complete_width : (s.complete).width = s.width := rfl
@[simp] theorem State.complete_height : (s.complete).height = s.height := rfl
@[simp] theorem State.complete_iters : (s.complete).iters = s.iters := rfl
@[simp] theorem State.complete_keylen : (s.complete).keylen = s.keylen := rfl
@[simp] theorem State.complete_ivlen : (s.complete).ivlen = s.ivlen := rfl
@[simp] theorem State.complete_arg : (s.complete).arg = s.arg := rfl
@[simp] theorem State.complete_res : (s.complete).res = s.res := rfl
@[simp] theorem State.complete_seed : (s.complete).seed = s.seed := rfl
@[simp] theorem State.complete_nblk : (s.complete).nblk = s.nblk := rfl
@[simp] theorem State.complete_s0 : (s.complete).s0 = s.s0 := rfl
@[simp] theorem State.complete_s1 : (s.complete).s1 = s.s1 := rfl
@[simp] theorem State.complete_s2 : (s.complete).s2 = s.s2 := rfl
@[simp] theorem State.complete_s3 : (s.complete).s3 = s.s3 := rfl
@[simp] theorem State.complete_kout0 : (s.complete).kout0 = s.kout0 := rfl
@[simp] theorem State.complete_kout1 : (s.complete).kout1 = s.kout1 := rfl
@[simp] theorem State.complete_ahLo : (s.complete).ahLo = s.ahLo := rfl
@[simp] theorem State.complete_ahHi : (s.complete).ahHi = s.ahHi := rfl
@[simp] theorem State.complete_avLo : (s.complete).avLo = s.avLo := rfl
@[simp] theorem State.complete_avHi : (s.complete).avHi = s.avHi := rfl
@[simp] theorem State.complete_adLo : (s.complete).adLo = s.adLo := rfl
@[simp] theorem State.complete_adHi : (s.complete).adHi = s.adHi := rfl
@[simp] theorem State.complete_nh : (s.complete).nh = s.nh := rfl
@[simp] theorem State.complete_nv : (s.complete).nv = s.nv := rfl
@[simp] theorem State.complete_nd : (s.complete).nd = s.nd := rfl
@[simp] theorem State.complete_key : (s.complete).key = s.key := rfl
@[simp] theorem State.complete_iv : (s.complete).iv = s.iv := rfl
@[simp] theorem State.complete_hr : (s.complete).hr = s.hr := rfl
@[simp] theorem State.complete_hg : (s.complete).hg = s.hg := rfl
@[simp] theorem State.complete_hb : (s.complete).hb = s.hb := rfl
@[simp] theorem State.complete_perm : (s.complete).perm = s.perm := rfl
@[simp] theorem State.complete_mem : (s.complete).mem = s.mem := rfl
@[simp] theorem State.complete_memBytes : (s.complete).memBytes = s.memBytes := rfl
@[simp] theorem State.complete_nblkMax : (s.complete).nblkMax = s.nblkMax := rfl
@[simp] theorem State.complete_memEpoch : (s.complete).memEpoch = s.memEpoch := rfl
@[simp] theorem State.complete_inbox : (s.complete).inbox = s.inbox := rfl
@[simp] theorem State.complete_replies : (s.complete).replies = s.replies := rfl

/-! ## takeFault -/

@[simp] theorem State.takeFault_cmd (f : FaultKind) : (s.takeFault f).cmd = s.cmd := rfl
@[simp] theorem State.takeFault_status (f : FaultKind) : (s.takeFault f).status = statusWithErr (statusWithoutDone s.status) := rfl
@[simp] theorem State.takeFault_errcode (f : FaultKind) : (s.takeFault f).errcode = f.code := rfl
@[simp] theorem State.takeFault_src (f : FaultKind) : (s.takeFault f).src = s.src := rfl
@[simp] theorem State.takeFault_dst (f : FaultKind) : (s.takeFault f).dst = s.dst := rfl
@[simp] theorem State.takeFault_len (f : FaultKind) : (s.takeFault f).len = s.len := rfl
@[simp] theorem State.takeFault_width (f : FaultKind) : (s.takeFault f).width = s.width := rfl
@[simp] theorem State.takeFault_height (f : FaultKind) : (s.takeFault f).height = s.height := rfl
@[simp] theorem State.takeFault_iters (f : FaultKind) : (s.takeFault f).iters = s.iters := rfl
@[simp] theorem State.takeFault_keylen (f : FaultKind) : (s.takeFault f).keylen = s.keylen := rfl
@[simp] theorem State.takeFault_ivlen (f : FaultKind) : (s.takeFault f).ivlen = s.ivlen := rfl
@[simp] theorem State.takeFault_arg (f : FaultKind) : (s.takeFault f).arg = s.arg := rfl
@[simp] theorem State.takeFault_res (f : FaultKind) : (s.takeFault f).res = s.res := rfl
@[simp] theorem State.takeFault_seed (f : FaultKind) : (s.takeFault f).seed = s.seed := rfl
@[simp] theorem State.takeFault_nblk (f : FaultKind) : (s.takeFault f).nblk = s.nblk := rfl
@[simp] theorem State.takeFault_s0 (f : FaultKind) : (s.takeFault f).s0 = s.s0 := rfl
@[simp] theorem State.takeFault_s1 (f : FaultKind) : (s.takeFault f).s1 = s.s1 := rfl
@[simp] theorem State.takeFault_s2 (f : FaultKind) : (s.takeFault f).s2 = s.s2 := rfl
@[simp] theorem State.takeFault_s3 (f : FaultKind) : (s.takeFault f).s3 = s.s3 := rfl
@[simp] theorem State.takeFault_kout0 (f : FaultKind) : (s.takeFault f).kout0 = s.kout0 := rfl
@[simp] theorem State.takeFault_kout1 (f : FaultKind) : (s.takeFault f).kout1 = s.kout1 := rfl
@[simp] theorem State.takeFault_ahLo (f : FaultKind) : (s.takeFault f).ahLo = s.ahLo := rfl
@[simp] theorem State.takeFault_ahHi (f : FaultKind) : (s.takeFault f).ahHi = s.ahHi := rfl
@[simp] theorem State.takeFault_avLo (f : FaultKind) : (s.takeFault f).avLo = s.avLo := rfl
@[simp] theorem State.takeFault_avHi (f : FaultKind) : (s.takeFault f).avHi = s.avHi := rfl
@[simp] theorem State.takeFault_adLo (f : FaultKind) : (s.takeFault f).adLo = s.adLo := rfl
@[simp] theorem State.takeFault_adHi (f : FaultKind) : (s.takeFault f).adHi = s.adHi := rfl
@[simp] theorem State.takeFault_nh (f : FaultKind) : (s.takeFault f).nh = s.nh := rfl
@[simp] theorem State.takeFault_nv (f : FaultKind) : (s.takeFault f).nv = s.nv := rfl
@[simp] theorem State.takeFault_nd (f : FaultKind) : (s.takeFault f).nd = s.nd := rfl
@[simp] theorem State.takeFault_key (f : FaultKind) : (s.takeFault f).key = s.key := rfl
@[simp] theorem State.takeFault_iv (f : FaultKind) : (s.takeFault f).iv = s.iv := rfl
@[simp] theorem State.takeFault_hr (f : FaultKind) : (s.takeFault f).hr = s.hr := rfl
@[simp] theorem State.takeFault_hg (f : FaultKind) : (s.takeFault f).hg = s.hg := rfl
@[simp] theorem State.takeFault_hb (f : FaultKind) : (s.takeFault f).hb = s.hb := rfl
@[simp] theorem State.takeFault_perm (f : FaultKind) : (s.takeFault f).perm = s.perm := rfl
@[simp] theorem State.takeFault_mem (f : FaultKind) : (s.takeFault f).mem = s.mem := rfl
@[simp] theorem State.takeFault_memBytes (f : FaultKind) : (s.takeFault f).memBytes = s.memBytes := rfl
@[simp] theorem State.takeFault_nblkMax (f : FaultKind) : (s.takeFault f).nblkMax = s.nblkMax := rfl
@[simp] theorem State.takeFault_memEpoch (f : FaultKind) : (s.takeFault f).memEpoch = s.memEpoch := rfl
@[simp] theorem State.takeFault_inbox (f : FaultKind) : (s.takeFault f).inbox = s.inbox := rfl
@[simp] theorem State.takeFault_replies (f : FaultKind) : (s.takeFault f).replies = s.replies := rfl

/-! ## withCmd -/

@[simp] theorem State.withCmd_cmd (v : Word) : (s.withCmd v).cmd = v := rfl
@[simp] theorem State.withCmd_status (v : Word) : (s.withCmd v).status = s.status := rfl
@[simp] theorem State.withCmd_errcode (v : Word) : (s.withCmd v).errcode = s.errcode := rfl
@[simp] theorem State.withCmd_src (v : Word) : (s.withCmd v).src = s.src := rfl
@[simp] theorem State.withCmd_dst (v : Word) : (s.withCmd v).dst = s.dst := rfl
@[simp] theorem State.withCmd_len (v : Word) : (s.withCmd v).len = s.len := rfl
@[simp] theorem State.withCmd_width (v : Word) : (s.withCmd v).width = s.width := rfl
@[simp] theorem State.withCmd_height (v : Word) : (s.withCmd v).height = s.height := rfl
@[simp] theorem State.withCmd_iters (v : Word) : (s.withCmd v).iters = s.iters := rfl
@[simp] theorem State.withCmd_keylen (v : Word) : (s.withCmd v).keylen = s.keylen := rfl
@[simp] theorem State.withCmd_ivlen (v : Word) : (s.withCmd v).ivlen = s.ivlen := rfl
@[simp] theorem State.withCmd_arg (v : Word) : (s.withCmd v).arg = s.arg := rfl
@[simp] theorem State.withCmd_res (v : Word) : (s.withCmd v).res = s.res := rfl
@[simp] theorem State.withCmd_seed (v : Word) : (s.withCmd v).seed = s.seed := rfl
@[simp] theorem State.withCmd_nblk (v : Word) : (s.withCmd v).nblk = s.nblk := rfl
@[simp] theorem State.withCmd_s0 (v : Word) : (s.withCmd v).s0 = s.s0 := rfl
@[simp] theorem State.withCmd_s1 (v : Word) : (s.withCmd v).s1 = s.s1 := rfl
@[simp] theorem State.withCmd_s2 (v : Word) : (s.withCmd v).s2 = s.s2 := rfl
@[simp] theorem State.withCmd_s3 (v : Word) : (s.withCmd v).s3 = s.s3 := rfl
@[simp] theorem State.withCmd_kout0 (v : Word) : (s.withCmd v).kout0 = s.kout0 := rfl
@[simp] theorem State.withCmd_kout1 (v : Word) : (s.withCmd v).kout1 = s.kout1 := rfl
@[simp] theorem State.withCmd_ahLo (v : Word) : (s.withCmd v).ahLo = s.ahLo := rfl
@[simp] theorem State.withCmd_ahHi (v : Word) : (s.withCmd v).ahHi = s.ahHi := rfl
@[simp] theorem State.withCmd_avLo (v : Word) : (s.withCmd v).avLo = s.avLo := rfl
@[simp] theorem State.withCmd_avHi (v : Word) : (s.withCmd v).avHi = s.avHi := rfl
@[simp] theorem State.withCmd_adLo (v : Word) : (s.withCmd v).adLo = s.adLo := rfl
@[simp] theorem State.withCmd_adHi (v : Word) : (s.withCmd v).adHi = s.adHi := rfl
@[simp] theorem State.withCmd_nh (v : Word) : (s.withCmd v).nh = s.nh := rfl
@[simp] theorem State.withCmd_nv (v : Word) : (s.withCmd v).nv = s.nv := rfl
@[simp] theorem State.withCmd_nd (v : Word) : (s.withCmd v).nd = s.nd := rfl
@[simp] theorem State.withCmd_key (v : Word) : (s.withCmd v).key = s.key := rfl
@[simp] theorem State.withCmd_iv (v : Word) : (s.withCmd v).iv = s.iv := rfl
@[simp] theorem State.withCmd_hr (v : Word) : (s.withCmd v).hr = s.hr := rfl
@[simp] theorem State.withCmd_hg (v : Word) : (s.withCmd v).hg = s.hg := rfl
@[simp] theorem State.withCmd_hb (v : Word) : (s.withCmd v).hb = s.hb := rfl
@[simp] theorem State.withCmd_perm (v : Word) : (s.withCmd v).perm = s.perm := rfl
@[simp] theorem State.withCmd_mem (v : Word) : (s.withCmd v).mem = s.mem := rfl
@[simp] theorem State.withCmd_memBytes (v : Word) : (s.withCmd v).memBytes = s.memBytes := rfl
@[simp] theorem State.withCmd_nblkMax (v : Word) : (s.withCmd v).nblkMax = s.nblkMax := rfl
@[simp] theorem State.withCmd_memEpoch (v : Word) : (s.withCmd v).memEpoch = s.memEpoch := rfl
@[simp] theorem State.withCmd_inbox (v : Word) : (s.withCmd v).inbox = s.inbox := rfl
@[simp] theorem State.withCmd_replies (v : Word) : (s.withCmd v).replies = s.replies := rfl

/-! ## withSeed -/

@[simp] theorem State.withSeed_cmd (v : Word) : (s.withSeed v).cmd = s.cmd := rfl
@[simp] theorem State.withSeed_status (v : Word) : (s.withSeed v).status = s.status := rfl
@[simp] theorem State.withSeed_errcode (v : Word) : (s.withSeed v).errcode = s.errcode := rfl
@[simp] theorem State.withSeed_src (v : Word) : (s.withSeed v).src = s.src := rfl
@[simp] theorem State.withSeed_dst (v : Word) : (s.withSeed v).dst = s.dst := rfl
@[simp] theorem State.withSeed_len (v : Word) : (s.withSeed v).len = s.len := rfl
@[simp] theorem State.withSeed_width (v : Word) : (s.withSeed v).width = s.width := rfl
@[simp] theorem State.withSeed_height (v : Word) : (s.withSeed v).height = s.height := rfl
@[simp] theorem State.withSeed_iters (v : Word) : (s.withSeed v).iters = s.iters := rfl
@[simp] theorem State.withSeed_keylen (v : Word) : (s.withSeed v).keylen = s.keylen := rfl
@[simp] theorem State.withSeed_ivlen (v : Word) : (s.withSeed v).ivlen = s.ivlen := rfl
@[simp] theorem State.withSeed_arg (v : Word) : (s.withSeed v).arg = s.arg := rfl
@[simp] theorem State.withSeed_res (v : Word) : (s.withSeed v).res = s.res := rfl
@[simp] theorem State.withSeed_seed (v : Word) : (s.withSeed v).seed = v := rfl
@[simp] theorem State.withSeed_nblk (v : Word) : (s.withSeed v).nblk = s.nblk := rfl
@[simp] theorem State.withSeed_s0 (v : Word) : (s.withSeed v).s0 = s.s0 := rfl
@[simp] theorem State.withSeed_s1 (v : Word) : (s.withSeed v).s1 = s.s1 := rfl
@[simp] theorem State.withSeed_s2 (v : Word) : (s.withSeed v).s2 = s.s2 := rfl
@[simp] theorem State.withSeed_s3 (v : Word) : (s.withSeed v).s3 = s.s3 := rfl
@[simp] theorem State.withSeed_kout0 (v : Word) : (s.withSeed v).kout0 = s.kout0 := rfl
@[simp] theorem State.withSeed_kout1 (v : Word) : (s.withSeed v).kout1 = s.kout1 := rfl
@[simp] theorem State.withSeed_ahLo (v : Word) : (s.withSeed v).ahLo = s.ahLo := rfl
@[simp] theorem State.withSeed_ahHi (v : Word) : (s.withSeed v).ahHi = s.ahHi := rfl
@[simp] theorem State.withSeed_avLo (v : Word) : (s.withSeed v).avLo = s.avLo := rfl
@[simp] theorem State.withSeed_avHi (v : Word) : (s.withSeed v).avHi = s.avHi := rfl
@[simp] theorem State.withSeed_adLo (v : Word) : (s.withSeed v).adLo = s.adLo := rfl
@[simp] theorem State.withSeed_adHi (v : Word) : (s.withSeed v).adHi = s.adHi := rfl
@[simp] theorem State.withSeed_nh (v : Word) : (s.withSeed v).nh = s.nh := rfl
@[simp] theorem State.withSeed_nv (v : Word) : (s.withSeed v).nv = s.nv := rfl
@[simp] theorem State.withSeed_nd (v : Word) : (s.withSeed v).nd = s.nd := rfl
@[simp] theorem State.withSeed_key (v : Word) : (s.withSeed v).key = s.key := rfl
@[simp] theorem State.withSeed_iv (v : Word) : (s.withSeed v).iv = s.iv := rfl
@[simp] theorem State.withSeed_hr (v : Word) : (s.withSeed v).hr = s.hr := rfl
@[simp] theorem State.withSeed_hg (v : Word) : (s.withSeed v).hg = s.hg := rfl
@[simp] theorem State.withSeed_hb (v : Word) : (s.withSeed v).hb = s.hb := rfl
@[simp] theorem State.withSeed_perm (v : Word) : (s.withSeed v).perm = s.perm := rfl
@[simp] theorem State.withSeed_mem (v : Word) : (s.withSeed v).mem = s.mem := rfl
@[simp] theorem State.withSeed_memBytes (v : Word) : (s.withSeed v).memBytes = s.memBytes := rfl
@[simp] theorem State.withSeed_nblkMax (v : Word) : (s.withSeed v).nblkMax = s.nblkMax := rfl
@[simp] theorem State.withSeed_memEpoch (v : Word) : (s.withSeed v).memEpoch = s.memEpoch := rfl
@[simp] theorem State.withSeed_inbox (v : Word) : (s.withSeed v).inbox = s.inbox := rfl
@[simp] theorem State.withSeed_replies (v : Word) : (s.withSeed v).replies = s.replies := rfl

/-! ## withRes -/

@[simp] theorem State.withRes_cmd (v : Word) : (s.withRes v).cmd = s.cmd := rfl
@[simp] theorem State.withRes_status (v : Word) : (s.withRes v).status = s.status := rfl
@[simp] theorem State.withRes_errcode (v : Word) : (s.withRes v).errcode = s.errcode := rfl
@[simp] theorem State.withRes_src (v : Word) : (s.withRes v).src = s.src := rfl
@[simp] theorem State.withRes_dst (v : Word) : (s.withRes v).dst = s.dst := rfl
@[simp] theorem State.withRes_len (v : Word) : (s.withRes v).len = s.len := rfl
@[simp] theorem State.withRes_width (v : Word) : (s.withRes v).width = s.width := rfl
@[simp] theorem State.withRes_height (v : Word) : (s.withRes v).height = s.height := rfl
@[simp] theorem State.withRes_iters (v : Word) : (s.withRes v).iters = s.iters := rfl
@[simp] theorem State.withRes_keylen (v : Word) : (s.withRes v).keylen = s.keylen := rfl
@[simp] theorem State.withRes_ivlen (v : Word) : (s.withRes v).ivlen = s.ivlen := rfl
@[simp] theorem State.withRes_arg (v : Word) : (s.withRes v).arg = s.arg := rfl
@[simp] theorem State.withRes_res (v : Word) : (s.withRes v).res = v := rfl
@[simp] theorem State.withRes_seed (v : Word) : (s.withRes v).seed = s.seed := rfl
@[simp] theorem State.withRes_nblk (v : Word) : (s.withRes v).nblk = s.nblk := rfl
@[simp] theorem State.withRes_s0 (v : Word) : (s.withRes v).s0 = s.s0 := rfl
@[simp] theorem State.withRes_s1 (v : Word) : (s.withRes v).s1 = s.s1 := rfl
@[simp] theorem State.withRes_s2 (v : Word) : (s.withRes v).s2 = s.s2 := rfl
@[simp] theorem State.withRes_s3 (v : Word) : (s.withRes v).s3 = s.s3 := rfl
@[simp] theorem State.withRes_kout0 (v : Word) : (s.withRes v).kout0 = s.kout0 := rfl
@[simp] theorem State.withRes_kout1 (v : Word) : (s.withRes v).kout1 = s.kout1 := rfl
@[simp] theorem State.withRes_ahLo (v : Word) : (s.withRes v).ahLo = s.ahLo := rfl
@[simp] theorem State.withRes_ahHi (v : Word) : (s.withRes v).ahHi = s.ahHi := rfl
@[simp] theorem State.withRes_avLo (v : Word) : (s.withRes v).avLo = s.avLo := rfl
@[simp] theorem State.withRes_avHi (v : Word) : (s.withRes v).avHi = s.avHi := rfl
@[simp] theorem State.withRes_adLo (v : Word) : (s.withRes v).adLo = s.adLo := rfl
@[simp] theorem State.withRes_adHi (v : Word) : (s.withRes v).adHi = s.adHi := rfl
@[simp] theorem State.withRes_nh (v : Word) : (s.withRes v).nh = s.nh := rfl
@[simp] theorem State.withRes_nv (v : Word) : (s.withRes v).nv = s.nv := rfl
@[simp] theorem State.withRes_nd (v : Word) : (s.withRes v).nd = s.nd := rfl
@[simp] theorem State.withRes_key (v : Word) : (s.withRes v).key = s.key := rfl
@[simp] theorem State.withRes_iv (v : Word) : (s.withRes v).iv = s.iv := rfl
@[simp] theorem State.withRes_hr (v : Word) : (s.withRes v).hr = s.hr := rfl
@[simp] theorem State.withRes_hg (v : Word) : (s.withRes v).hg = s.hg := rfl
@[simp] theorem State.withRes_hb (v : Word) : (s.withRes v).hb = s.hb := rfl
@[simp] theorem State.withRes_perm (v : Word) : (s.withRes v).perm = s.perm := rfl
@[simp] theorem State.withRes_mem (v : Word) : (s.withRes v).mem = s.mem := rfl
@[simp] theorem State.withRes_memBytes (v : Word) : (s.withRes v).memBytes = s.memBytes := rfl
@[simp] theorem State.withRes_nblkMax (v : Word) : (s.withRes v).nblkMax = s.nblkMax := rfl
@[simp] theorem State.withRes_memEpoch (v : Word) : (s.withRes v).memEpoch = s.memEpoch := rfl
@[simp] theorem State.withRes_inbox (v : Word) : (s.withRes v).inbox = s.inbox := rfl
@[simp] theorem State.withRes_replies (v : Word) : (s.withRes v).replies = s.replies := rfl

/-! ## withKout -/

@[simp] theorem State.withKout_cmd (a b : Word) : (s.withKout a b).cmd = s.cmd := rfl
@[simp] theorem State.withKout_status (a b : Word) : (s.withKout a b).status = s.status := rfl
@[simp] theorem State.withKout_errcode (a b : Word) : (s.withKout a b).errcode = s.errcode := rfl
@[simp] theorem State.withKout_src (a b : Word) : (s.withKout a b).src = s.src := rfl
@[simp] theorem State.withKout_dst (a b : Word) : (s.withKout a b).dst = s.dst := rfl
@[simp] theorem State.withKout_len (a b : Word) : (s.withKout a b).len = s.len := rfl
@[simp] theorem State.withKout_width (a b : Word) : (s.withKout a b).width = s.width := rfl
@[simp] theorem State.withKout_height (a b : Word) : (s.withKout a b).height = s.height := rfl
@[simp] theorem State.withKout_iters (a b : Word) : (s.withKout a b).iters = s.iters := rfl
@[simp] theorem State.withKout_keylen (a b : Word) : (s.withKout a b).keylen = s.keylen := rfl
@[simp] theorem State.withKout_ivlen (a b : Word) : (s.withKout a b).ivlen = s.ivlen := rfl
@[simp] theorem State.withKout_arg (a b : Word) : (s.withKout a b).arg = s.arg := rfl
@[simp] theorem State.withKout_res (a b : Word) : (s.withKout a b).res = s.res := rfl
@[simp] theorem State.withKout_seed (a b : Word) : (s.withKout a b).seed = s.seed := rfl
@[simp] theorem State.withKout_nblk (a b : Word) : (s.withKout a b).nblk = s.nblk := rfl
@[simp] theorem State.withKout_s0 (a b : Word) : (s.withKout a b).s0 = s.s0 := rfl
@[simp] theorem State.withKout_s1 (a b : Word) : (s.withKout a b).s1 = s.s1 := rfl
@[simp] theorem State.withKout_s2 (a b : Word) : (s.withKout a b).s2 = s.s2 := rfl
@[simp] theorem State.withKout_s3 (a b : Word) : (s.withKout a b).s3 = s.s3 := rfl
@[simp] theorem State.withKout_kout0 (a b : Word) : (s.withKout a b).kout0 = a := rfl
@[simp] theorem State.withKout_kout1 (a b : Word) : (s.withKout a b).kout1 = b := rfl
@[simp] theorem State.withKout_ahLo (a b : Word) : (s.withKout a b).ahLo = s.ahLo := rfl
@[simp] theorem State.withKout_ahHi (a b : Word) : (s.withKout a b).ahHi = s.ahHi := rfl
@[simp] theorem State.withKout_avLo (a b : Word) : (s.withKout a b).avLo = s.avLo := rfl
@[simp] theorem State.withKout_avHi (a b : Word) : (s.withKout a b).avHi = s.avHi := rfl
@[simp] theorem State.withKout_adLo (a b : Word) : (s.withKout a b).adLo = s.adLo := rfl
@[simp] theorem State.withKout_adHi (a b : Word) : (s.withKout a b).adHi = s.adHi := rfl
@[simp] theorem State.withKout_nh (a b : Word) : (s.withKout a b).nh = s.nh := rfl
@[simp] theorem State.withKout_nv (a b : Word) : (s.withKout a b).nv = s.nv := rfl
@[simp] theorem State.withKout_nd (a b : Word) : (s.withKout a b).nd = s.nd := rfl
@[simp] theorem State.withKout_key (a b : Word) : (s.withKout a b).key = s.key := rfl
@[simp] theorem State.withKout_iv (a b : Word) : (s.withKout a b).iv = s.iv := rfl
@[simp] theorem State.withKout_hr (a b : Word) : (s.withKout a b).hr = s.hr := rfl
@[simp] theorem State.withKout_hg (a b : Word) : (s.withKout a b).hg = s.hg := rfl
@[simp] theorem State.withKout_hb (a b : Word) : (s.withKout a b).hb = s.hb := rfl
@[simp] theorem State.withKout_perm (a b : Word) : (s.withKout a b).perm = s.perm := rfl
@[simp] theorem State.withKout_mem (a b : Word) : (s.withKout a b).mem = s.mem := rfl
@[simp] theorem State.withKout_memBytes (a b : Word) : (s.withKout a b).memBytes = s.memBytes := rfl
@[simp] theorem State.withKout_nblkMax (a b : Word) : (s.withKout a b).nblkMax = s.nblkMax := rfl
@[simp] theorem State.withKout_memEpoch (a b : Word) : (s.withKout a b).memEpoch = s.memEpoch := rfl
@[simp] theorem State.withKout_inbox (a b : Word) : (s.withKout a b).inbox = s.inbox := rfl
@[simp] theorem State.withKout_replies (a b : Word) : (s.withKout a b).replies = s.replies := rfl

/-! ## withPerm -/

@[simp] theorem State.withPerm_cmd (P : List Nat) : (s.withPerm P).cmd = s.cmd := rfl
@[simp] theorem State.withPerm_status (P : List Nat) : (s.withPerm P).status = s.status := rfl
@[simp] theorem State.withPerm_errcode (P : List Nat) : (s.withPerm P).errcode = s.errcode := rfl
@[simp] theorem State.withPerm_src (P : List Nat) : (s.withPerm P).src = s.src := rfl
@[simp] theorem State.withPerm_dst (P : List Nat) : (s.withPerm P).dst = s.dst := rfl
@[simp] theorem State.withPerm_len (P : List Nat) : (s.withPerm P).len = s.len := rfl
@[simp] theorem State.withPerm_width (P : List Nat) : (s.withPerm P).width = s.width := rfl
@[simp] theorem State.withPerm_height (P : List Nat) : (s.withPerm P).height = s.height := rfl
@[simp] theorem State.withPerm_iters (P : List Nat) : (s.withPerm P).iters = s.iters := rfl
@[simp] theorem State.withPerm_keylen (P : List Nat) : (s.withPerm P).keylen = s.keylen := rfl
@[simp] theorem State.withPerm_ivlen (P : List Nat) : (s.withPerm P).ivlen = s.ivlen := rfl
@[simp] theorem State.withPerm_arg (P : List Nat) : (s.withPerm P).arg = s.arg := rfl
@[simp] theorem State.withPerm_res (P : List Nat) : (s.withPerm P).res = s.res := rfl
@[simp] theorem State.withPerm_seed (P : List Nat) : (s.withPerm P).seed = s.seed := rfl
@[simp] theorem State.withPerm_nblk (P : List Nat) : (s.withPerm P).nblk = s.nblk := rfl
@[simp] theorem State.withPerm_s0 (P : List Nat) : (s.withPerm P).s0 = s.s0 := rfl
@[simp] theorem State.withPerm_s1 (P : List Nat) : (s.withPerm P).s1 = s.s1 := rfl
@[simp] theorem State.withPerm_s2 (P : List Nat) : (s.withPerm P).s2 = s.s2 := rfl
@[simp] theorem State.withPerm_s3 (P : List Nat) : (s.withPerm P).s3 = s.s3 := rfl
@[simp] theorem State.withPerm_kout0 (P : List Nat) : (s.withPerm P).kout0 = s.kout0 := rfl
@[simp] theorem State.withPerm_kout1 (P : List Nat) : (s.withPerm P).kout1 = s.kout1 := rfl
@[simp] theorem State.withPerm_ahLo (P : List Nat) : (s.withPerm P).ahLo = s.ahLo := rfl
@[simp] theorem State.withPerm_ahHi (P : List Nat) : (s.withPerm P).ahHi = s.ahHi := rfl
@[simp] theorem State.withPerm_avLo (P : List Nat) : (s.withPerm P).avLo = s.avLo := rfl
@[simp] theorem State.withPerm_avHi (P : List Nat) : (s.withPerm P).avHi = s.avHi := rfl
@[simp] theorem State.withPerm_adLo (P : List Nat) : (s.withPerm P).adLo = s.adLo := rfl
@[simp] theorem State.withPerm_adHi (P : List Nat) : (s.withPerm P).adHi = s.adHi := rfl
@[simp] theorem State.withPerm_nh (P : List Nat) : (s.withPerm P).nh = s.nh := rfl
@[simp] theorem State.withPerm_nv (P : List Nat) : (s.withPerm P).nv = s.nv := rfl
@[simp] theorem State.withPerm_nd (P : List Nat) : (s.withPerm P).nd = s.nd := rfl
@[simp] theorem State.withPerm_key (P : List Nat) : (s.withPerm P).key = s.key := rfl
@[simp] theorem State.withPerm_iv (P : List Nat) : (s.withPerm P).iv = s.iv := rfl
@[simp] theorem State.withPerm_hr (P : List Nat) : (s.withPerm P).hr = s.hr := rfl
@[simp] theorem State.withPerm_hg (P : List Nat) : (s.withPerm P).hg = s.hg := rfl
@[simp] theorem State.withPerm_hb (P : List Nat) : (s.withPerm P).hb = s.hb := rfl
@[simp] theorem State.withPerm_perm (P : List Nat) : (s.withPerm P).perm = P.map (BitVec.ofNat 32) := rfl
@[simp] theorem State.withPerm_mem (P : List Nat) : (s.withPerm P).mem = s.mem := rfl
@[simp] theorem State.withPerm_memBytes (P : List Nat) : (s.withPerm P).memBytes = s.memBytes := rfl
@[simp] theorem State.withPerm_nblkMax (P : List Nat) : (s.withPerm P).nblkMax = s.nblkMax := rfl
@[simp] theorem State.withPerm_memEpoch (P : List Nat) : (s.withPerm P).memEpoch = s.memEpoch := rfl
@[simp] theorem State.withPerm_inbox (P : List Nat) : (s.withPerm P).inbox = s.inbox := rfl
@[simp] theorem State.withPerm_replies (P : List Nat) : (s.withPerm P).replies = s.replies := rfl

/-! ## withMapping -/

@[simp] theorem State.withMapping_cmd (n : Nat) (P : List Nat) : (s.withMapping n P).cmd = s.cmd := rfl
@[simp] theorem State.withMapping_status (n : Nat) (P : List Nat) : (s.withMapping n P).status = s.status := rfl
@[simp] theorem State.withMapping_errcode (n : Nat) (P : List Nat) : (s.withMapping n P).errcode = s.errcode := rfl
@[simp] theorem State.withMapping_src (n : Nat) (P : List Nat) : (s.withMapping n P).src = s.src := rfl
@[simp] theorem State.withMapping_dst (n : Nat) (P : List Nat) : (s.withMapping n P).dst = s.dst := rfl
@[simp] theorem State.withMapping_len (n : Nat) (P : List Nat) : (s.withMapping n P).len = s.len := rfl
@[simp] theorem State.withMapping_width (n : Nat) (P : List Nat) : (s.withMapping n P).width = s.width := rfl
@[simp] theorem State.withMapping_height (n : Nat) (P : List Nat) : (s.withMapping n P).height = s.height := rfl
@[simp] theorem State.withMapping_iters (n : Nat) (P : List Nat) : (s.withMapping n P).iters = s.iters := rfl
@[simp] theorem State.withMapping_keylen (n : Nat) (P : List Nat) : (s.withMapping n P).keylen = s.keylen := rfl
@[simp] theorem State.withMapping_ivlen (n : Nat) (P : List Nat) : (s.withMapping n P).ivlen = s.ivlen := rfl
@[simp] theorem State.withMapping_arg (n : Nat) (P : List Nat) : (s.withMapping n P).arg = s.arg := rfl
@[simp] theorem State.withMapping_res (n : Nat) (P : List Nat) : (s.withMapping n P).res = s.res := rfl
@[simp] theorem State.withMapping_seed (n : Nat) (P : List Nat) : (s.withMapping n P).seed = s.seed := rfl
@[simp] theorem State.withMapping_nblk (n : Nat) (P : List Nat) : (s.withMapping n P).nblk = BitVec.ofNat 32 n := rfl
@[simp] theorem State.withMapping_s0 (n : Nat) (P : List Nat) : (s.withMapping n P).s0 = s.s0 := rfl
@[simp] theorem State.withMapping_s1 (n : Nat) (P : List Nat) : (s.withMapping n P).s1 = s.s1 := rfl
@[simp] theorem State.withMapping_s2 (n : Nat) (P : List Nat) : (s.withMapping n P).s2 = s.s2 := rfl
@[simp] theorem State.withMapping_s3 (n : Nat) (P : List Nat) : (s.withMapping n P).s3 = s.s3 := rfl
@[simp] theorem State.withMapping_kout0 (n : Nat) (P : List Nat) : (s.withMapping n P).kout0 = s.kout0 := rfl
@[simp] theorem State.withMapping_kout1 (n : Nat) (P : List Nat) : (s.withMapping n P).kout1 = s.kout1 := rfl
@[simp] theorem State.withMapping_ahLo (n : Nat) (P : List Nat) : (s.withMapping n P).ahLo = s.ahLo := rfl
@[simp] theorem State.withMapping_ahHi (n : Nat) (P : List Nat) : (s.withMapping n P).ahHi = s.ahHi := rfl
@[simp] theorem State.withMapping_avLo (n : Nat) (P : List Nat) : (s.withMapping n P).avLo = s.avLo := rfl
@[simp] theorem State.withMapping_avHi (n : Nat) (P : List Nat) : (s.withMapping n P).avHi = s.avHi := rfl
@[simp] theorem State.withMapping_adLo (n : Nat) (P : List Nat) : (s.withMapping n P).adLo = s.adLo := rfl
@[simp] theorem State.withMapping_adHi (n : Nat) (P : List Nat) : (s.withMapping n P).adHi = s.adHi := rfl
@[simp] theorem State.withMapping_nh (n : Nat) (P : List Nat) : (s.withMapping n P).nh = s.nh := rfl
@[simp] theorem State.withMapping_nv (n : Nat) (P : List Nat) : (s.withMapping n P).nv = s.nv := rfl
@[simp] theorem State.withMapping_nd (n : Nat) (P : List Nat) : (s.withMapping n P).nd = s.nd := rfl
@[simp] theorem State.withMapping_key (n : Nat) (P : List Nat) : (s.withMapping n P).key = s.key := rfl
@[simp] theorem State.withMapping_iv (n : Nat) (P : List Nat) : (s.withMapping n P).iv = s.iv := rfl
@[simp] theorem State.withMapping_hr (n : Nat) (P : List Nat) : (s.withMapping n P).hr = s.hr := rfl
@[simp] theorem State.withMapping_hg (n : Nat) (P : List Nat) : (s.withMapping n P).hg = s.hg := rfl
@[simp] theorem State.withMapping_hb (n : Nat) (P : List Nat) : (s.withMapping n P).hb = s.hb := rfl
@[simp] theorem State.withMapping_perm (n : Nat) (P : List Nat) : (s.withMapping n P).perm = P.map (BitVec.ofNat 32) := rfl
@[simp] theorem State.withMapping_mem (n : Nat) (P : List Nat) : (s.withMapping n P).mem = s.mem := rfl
@[simp] theorem State.withMapping_memBytes (n : Nat) (P : List Nat) : (s.withMapping n P).memBytes = s.memBytes := rfl
@[simp] theorem State.withMapping_nblkMax (n : Nat) (P : List Nat) : (s.withMapping n P).nblkMax = s.nblkMax := rfl
@[simp] theorem State.withMapping_memEpoch (n : Nat) (P : List Nat) : (s.withMapping n P).memEpoch = s.memEpoch := rfl
@[simp] theorem State.withMapping_inbox (n : Nat) (P : List Nat) : (s.withMapping n P).inbox = s.inbox := rfl
@[simp] theorem State.withMapping_replies (n : Nat) (P : List Nat) : (s.withMapping n P).replies = s.replies := rfl

/-! ## withHistogram -/

@[simp] theorem State.withHistogram_cmd (r g b : RegFile 32 Config.nBucket) : (s.withHistogram r g b).cmd = s.cmd := rfl
@[simp] theorem State.withHistogram_status (r g b : RegFile 32 Config.nBucket) : (s.withHistogram r g b).status = s.status := rfl
@[simp] theorem State.withHistogram_errcode (r g b : RegFile 32 Config.nBucket) : (s.withHistogram r g b).errcode = s.errcode := rfl
@[simp] theorem State.withHistogram_src (r g b : RegFile 32 Config.nBucket) : (s.withHistogram r g b).src = s.src := rfl
@[simp] theorem State.withHistogram_dst (r g b : RegFile 32 Config.nBucket) : (s.withHistogram r g b).dst = s.dst := rfl
@[simp] theorem State.withHistogram_len (r g b : RegFile 32 Config.nBucket) : (s.withHistogram r g b).len = s.len := rfl
@[simp] theorem State.withHistogram_width (r g b : RegFile 32 Config.nBucket) : (s.withHistogram r g b).width = s.width := rfl
@[simp] theorem State.withHistogram_height (r g b : RegFile 32 Config.nBucket) : (s.withHistogram r g b).height = s.height := rfl
@[simp] theorem State.withHistogram_iters (r g b : RegFile 32 Config.nBucket) : (s.withHistogram r g b).iters = s.iters := rfl
@[simp] theorem State.withHistogram_keylen (r g b : RegFile 32 Config.nBucket) : (s.withHistogram r g b).keylen = s.keylen := rfl
@[simp] theorem State.withHistogram_ivlen (r g b : RegFile 32 Config.nBucket) : (s.withHistogram r g b).ivlen = s.ivlen := rfl
@[simp] theorem State.withHistogram_arg (r g b : RegFile 32 Config.nBucket) : (s.withHistogram r g b).arg = s.arg := rfl
@[simp] theorem State.withHistogram_res (r g b : RegFile 32 Config.nBucket) : (s.withHistogram r g b).res = s.res := rfl
@[simp] theorem State.withHistogram_seed (r g b : RegFile 32 Config.nBucket) : (s.withHistogram r g b).seed = s.seed := rfl
@[simp] theorem State.withHistogram_nblk (r g b : RegFile 32 Config.nBucket) : (s.withHistogram r g b).nblk = s.nblk := rfl
@[simp] theorem State.withHistogram_s0 (r g b : RegFile 32 Config.nBucket) : (s.withHistogram r g b).s0 = s.s0 := rfl
@[simp] theorem State.withHistogram_s1 (r g b : RegFile 32 Config.nBucket) : (s.withHistogram r g b).s1 = s.s1 := rfl
@[simp] theorem State.withHistogram_s2 (r g b : RegFile 32 Config.nBucket) : (s.withHistogram r g b).s2 = s.s2 := rfl
@[simp] theorem State.withHistogram_s3 (r g b : RegFile 32 Config.nBucket) : (s.withHistogram r g b).s3 = s.s3 := rfl
@[simp] theorem State.withHistogram_kout0 (r g b : RegFile 32 Config.nBucket) : (s.withHistogram r g b).kout0 = s.kout0 := rfl
@[simp] theorem State.withHistogram_kout1 (r g b : RegFile 32 Config.nBucket) : (s.withHistogram r g b).kout1 = s.kout1 := rfl
@[simp] theorem State.withHistogram_ahLo (r g b : RegFile 32 Config.nBucket) : (s.withHistogram r g b).ahLo = s.ahLo := rfl
@[simp] theorem State.withHistogram_ahHi (r g b : RegFile 32 Config.nBucket) : (s.withHistogram r g b).ahHi = s.ahHi := rfl
@[simp] theorem State.withHistogram_avLo (r g b : RegFile 32 Config.nBucket) : (s.withHistogram r g b).avLo = s.avLo := rfl
@[simp] theorem State.withHistogram_avHi (r g b : RegFile 32 Config.nBucket) : (s.withHistogram r g b).avHi = s.avHi := rfl
@[simp] theorem State.withHistogram_adLo (r g b : RegFile 32 Config.nBucket) : (s.withHistogram r g b).adLo = s.adLo := rfl
@[simp] theorem State.withHistogram_adHi (r g b : RegFile 32 Config.nBucket) : (s.withHistogram r g b).adHi = s.adHi := rfl
@[simp] theorem State.withHistogram_nh (r g b : RegFile 32 Config.nBucket) : (s.withHistogram r g b).nh = s.nh := rfl
@[simp] theorem State.withHistogram_nv (r g b : RegFile 32 Config.nBucket) : (s.withHistogram r g b).nv = s.nv := rfl
@[simp] theorem State.withHistogram_nd (r g b : RegFile 32 Config.nBucket) : (s.withHistogram r g b).nd = s.nd := rfl
@[simp] theorem State.withHistogram_key (r g b : RegFile 32 Config.nBucket) : (s.withHistogram r g b).key = s.key := rfl
@[simp] theorem State.withHistogram_iv (r g b : RegFile 32 Config.nBucket) : (s.withHistogram r g b).iv = s.iv := rfl
@[simp] theorem State.withHistogram_hr (r g b : RegFile 32 Config.nBucket) : (s.withHistogram r g b).hr = r := rfl
@[simp] theorem State.withHistogram_hg (r g b : RegFile 32 Config.nBucket) : (s.withHistogram r g b).hg = g := rfl
@[simp] theorem State.withHistogram_hb (r g b : RegFile 32 Config.nBucket) : (s.withHistogram r g b).hb = b := rfl
@[simp] theorem State.withHistogram_perm (r g b : RegFile 32 Config.nBucket) : (s.withHistogram r g b).perm = s.perm := rfl
@[simp] theorem State.withHistogram_mem (r g b : RegFile 32 Config.nBucket) : (s.withHistogram r g b).mem = s.mem := rfl
@[simp] theorem State.withHistogram_memBytes (r g b : RegFile 32 Config.nBucket) : (s.withHistogram r g b).memBytes = s.memBytes := rfl
@[simp] theorem State.withHistogram_nblkMax (r g b : RegFile 32 Config.nBucket) : (s.withHistogram r g b).nblkMax = s.nblkMax := rfl
@[simp] theorem State.withHistogram_memEpoch (r g b : RegFile 32 Config.nBucket) : (s.withHistogram r g b).memEpoch = s.memEpoch := rfl
@[simp] theorem State.withHistogram_inbox (r g b : RegFile 32 Config.nBucket) : (s.withHistogram r g b).inbox = s.inbox := rfl
@[simp] theorem State.withHistogram_replies (r g b : RegFile 32 Config.nBucket) : (s.withHistogram r g b).replies = s.replies := rfl

/-! ## withPrng -/

@[simp] theorem State.withPrng_cmd (S : PrngState) : (s.withPrng S).cmd = s.cmd := rfl
@[simp] theorem State.withPrng_status (S : PrngState) : (s.withPrng S).status = s.status := rfl
@[simp] theorem State.withPrng_errcode (S : PrngState) : (s.withPrng S).errcode = s.errcode := rfl
@[simp] theorem State.withPrng_src (S : PrngState) : (s.withPrng S).src = s.src := rfl
@[simp] theorem State.withPrng_dst (S : PrngState) : (s.withPrng S).dst = s.dst := rfl
@[simp] theorem State.withPrng_len (S : PrngState) : (s.withPrng S).len = s.len := rfl
@[simp] theorem State.withPrng_width (S : PrngState) : (s.withPrng S).width = s.width := rfl
@[simp] theorem State.withPrng_height (S : PrngState) : (s.withPrng S).height = s.height := rfl
@[simp] theorem State.withPrng_iters (S : PrngState) : (s.withPrng S).iters = s.iters := rfl
@[simp] theorem State.withPrng_keylen (S : PrngState) : (s.withPrng S).keylen = s.keylen := rfl
@[simp] theorem State.withPrng_ivlen (S : PrngState) : (s.withPrng S).ivlen = s.ivlen := rfl
@[simp] theorem State.withPrng_arg (S : PrngState) : (s.withPrng S).arg = s.arg := rfl
@[simp] theorem State.withPrng_res (S : PrngState) : (s.withPrng S).res = s.res := rfl
@[simp] theorem State.withPrng_seed (S : PrngState) : (s.withPrng S).seed = s.seed := rfl
@[simp] theorem State.withPrng_nblk (S : PrngState) : (s.withPrng S).nblk = s.nblk := rfl
@[simp] theorem State.withPrng_s0 (S : PrngState) : (s.withPrng S).s0 = S.s0 := rfl
@[simp] theorem State.withPrng_s1 (S : PrngState) : (s.withPrng S).s1 = S.s1 := rfl
@[simp] theorem State.withPrng_s2 (S : PrngState) : (s.withPrng S).s2 = S.s2 := rfl
@[simp] theorem State.withPrng_s3 (S : PrngState) : (s.withPrng S).s3 = S.s3 := rfl
@[simp] theorem State.withPrng_kout0 (S : PrngState) : (s.withPrng S).kout0 = s.kout0 := rfl
@[simp] theorem State.withPrng_kout1 (S : PrngState) : (s.withPrng S).kout1 = s.kout1 := rfl
@[simp] theorem State.withPrng_ahLo (S : PrngState) : (s.withPrng S).ahLo = s.ahLo := rfl
@[simp] theorem State.withPrng_ahHi (S : PrngState) : (s.withPrng S).ahHi = s.ahHi := rfl
@[simp] theorem State.withPrng_avLo (S : PrngState) : (s.withPrng S).avLo = s.avLo := rfl
@[simp] theorem State.withPrng_avHi (S : PrngState) : (s.withPrng S).avHi = s.avHi := rfl
@[simp] theorem State.withPrng_adLo (S : PrngState) : (s.withPrng S).adLo = s.adLo := rfl
@[simp] theorem State.withPrng_adHi (S : PrngState) : (s.withPrng S).adHi = s.adHi := rfl
@[simp] theorem State.withPrng_nh (S : PrngState) : (s.withPrng S).nh = s.nh := rfl
@[simp] theorem State.withPrng_nv (S : PrngState) : (s.withPrng S).nv = s.nv := rfl
@[simp] theorem State.withPrng_nd (S : PrngState) : (s.withPrng S).nd = s.nd := rfl
@[simp] theorem State.withPrng_key (S : PrngState) : (s.withPrng S).key = s.key := rfl
@[simp] theorem State.withPrng_iv (S : PrngState) : (s.withPrng S).iv = s.iv := rfl
@[simp] theorem State.withPrng_hr (S : PrngState) : (s.withPrng S).hr = s.hr := rfl
@[simp] theorem State.withPrng_hg (S : PrngState) : (s.withPrng S).hg = s.hg := rfl
@[simp] theorem State.withPrng_hb (S : PrngState) : (s.withPrng S).hb = s.hb := rfl
@[simp] theorem State.withPrng_perm (S : PrngState) : (s.withPrng S).perm = s.perm := rfl
@[simp] theorem State.withPrng_mem (S : PrngState) : (s.withPrng S).mem = s.mem := rfl
@[simp] theorem State.withPrng_memBytes (S : PrngState) : (s.withPrng S).memBytes = s.memBytes := rfl
@[simp] theorem State.withPrng_nblkMax (S : PrngState) : (s.withPrng S).nblkMax = s.nblkMax := rfl
@[simp] theorem State.withPrng_memEpoch (S : PrngState) : (s.withPrng S).memEpoch = s.memEpoch := rfl
@[simp] theorem State.withPrng_inbox (S : PrngState) : (s.withPrng S).inbox = s.inbox := rfl
@[simp] theorem State.withPrng_replies (S : PrngState) : (s.withPrng S).replies = s.replies := rfl

/-! ## withCorr -/

@[simp] theorem State.withCorr_cmd (buf : List Byte) (W H : Nat) : (s.withCorr buf W H).cmd = s.cmd := rfl
@[simp] theorem State.withCorr_status (buf : List Byte) (W H : Nat) : (s.withCorr buf W H).status = s.status := rfl
@[simp] theorem State.withCorr_errcode (buf : List Byte) (W H : Nat) : (s.withCorr buf W H).errcode = s.errcode := rfl
@[simp] theorem State.withCorr_src (buf : List Byte) (W H : Nat) : (s.withCorr buf W H).src = s.src := rfl
@[simp] theorem State.withCorr_dst (buf : List Byte) (W H : Nat) : (s.withCorr buf W H).dst = s.dst := rfl
@[simp] theorem State.withCorr_len (buf : List Byte) (W H : Nat) : (s.withCorr buf W H).len = s.len := rfl
@[simp] theorem State.withCorr_width (buf : List Byte) (W H : Nat) : (s.withCorr buf W H).width = s.width := rfl
@[simp] theorem State.withCorr_height (buf : List Byte) (W H : Nat) : (s.withCorr buf W H).height = s.height := rfl
@[simp] theorem State.withCorr_iters (buf : List Byte) (W H : Nat) : (s.withCorr buf W H).iters = s.iters := rfl
@[simp] theorem State.withCorr_keylen (buf : List Byte) (W H : Nat) : (s.withCorr buf W H).keylen = s.keylen := rfl
@[simp] theorem State.withCorr_ivlen (buf : List Byte) (W H : Nat) : (s.withCorr buf W H).ivlen = s.ivlen := rfl
@[simp] theorem State.withCorr_arg (buf : List Byte) (W H : Nat) : (s.withCorr buf W H).arg = s.arg := rfl
@[simp] theorem State.withCorr_res (buf : List Byte) (W H : Nat) : (s.withCorr buf W H).res = s.res := rfl
@[simp] theorem State.withCorr_seed (buf : List Byte) (W H : Nat) : (s.withCorr buf W H).seed = s.seed := rfl
@[simp] theorem State.withCorr_nblk (buf : List Byte) (W H : Nat) : (s.withCorr buf W H).nblk = s.nblk := rfl
@[simp] theorem State.withCorr_s0 (buf : List Byte) (W H : Nat) : (s.withCorr buf W H).s0 = s.s0 := rfl
@[simp] theorem State.withCorr_s1 (buf : List Byte) (W H : Nat) : (s.withCorr buf W H).s1 = s.s1 := rfl
@[simp] theorem State.withCorr_s2 (buf : List Byte) (W H : Nat) : (s.withCorr buf W H).s2 = s.s2 := rfl
@[simp] theorem State.withCorr_s3 (buf : List Byte) (W H : Nat) : (s.withCorr buf W H).s3 = s.s3 := rfl
@[simp] theorem State.withCorr_kout0 (buf : List Byte) (W H : Nat) : (s.withCorr buf W H).kout0 = s.kout0 := rfl
@[simp] theorem State.withCorr_kout1 (buf : List Byte) (W H : Nat) : (s.withCorr buf W H).kout1 = s.kout1 := rfl
@[simp] theorem State.withCorr_ahLo (buf : List Byte) (W H : Nat) : (s.withCorr buf W H).ahLo = sumLo (diffSum buf W H 1 0) := rfl
@[simp] theorem State.withCorr_ahHi (buf : List Byte) (W H : Nat) : (s.withCorr buf W H).ahHi = sumHi (diffSum buf W H 1 0) := rfl
@[simp] theorem State.withCorr_avLo (buf : List Byte) (W H : Nat) : (s.withCorr buf W H).avLo = sumLo (diffSum buf W H 0 1) := rfl
@[simp] theorem State.withCorr_avHi (buf : List Byte) (W H : Nat) : (s.withCorr buf W H).avHi = sumHi (diffSum buf W H 0 1) := rfl
@[simp] theorem State.withCorr_adLo (buf : List Byte) (W H : Nat) : (s.withCorr buf W H).adLo = sumLo (diffSum buf W H 1 1) := rfl
@[simp] theorem State.withCorr_adHi (buf : List Byte) (W H : Nat) : (s.withCorr buf W H).adHi = sumHi (diffSum buf W H 1 1) := rfl
@[simp] theorem State.withCorr_nh (buf : List Byte) (W H : Nat) : (s.withCorr buf W H).nh = BitVec.ofNat 32 (pairCount W H 1 0) := rfl
@[simp] theorem State.withCorr_nv (buf : List Byte) (W H : Nat) : (s.withCorr buf W H).nv = BitVec.ofNat 32 (pairCount W H 0 1) := rfl
@[simp] theorem State.withCorr_nd (buf : List Byte) (W H : Nat) : (s.withCorr buf W H).nd = BitVec.ofNat 32 (pairCount W H 1 1) := rfl
@[simp] theorem State.withCorr_key (buf : List Byte) (W H : Nat) : (s.withCorr buf W H).key = s.key := rfl
@[simp] theorem State.withCorr_iv (buf : List Byte) (W H : Nat) : (s.withCorr buf W H).iv = s.iv := rfl
@[simp] theorem State.withCorr_hr (buf : List Byte) (W H : Nat) : (s.withCorr buf W H).hr = s.hr := rfl
@[simp] theorem State.withCorr_hg (buf : List Byte) (W H : Nat) : (s.withCorr buf W H).hg = s.hg := rfl
@[simp] theorem State.withCorr_hb (buf : List Byte) (W H : Nat) : (s.withCorr buf W H).hb = s.hb := rfl
@[simp] theorem State.withCorr_perm (buf : List Byte) (W H : Nat) : (s.withCorr buf W H).perm = s.perm := rfl
@[simp] theorem State.withCorr_mem (buf : List Byte) (W H : Nat) : (s.withCorr buf W H).mem = s.mem := rfl
@[simp] theorem State.withCorr_memBytes (buf : List Byte) (W H : Nat) : (s.withCorr buf W H).memBytes = s.memBytes := rfl
@[simp] theorem State.withCorr_nblkMax (buf : List Byte) (W H : Nat) : (s.withCorr buf W H).nblkMax = s.nblkMax := rfl
@[simp] theorem State.withCorr_memEpoch (buf : List Byte) (W H : Nat) : (s.withCorr buf W H).memEpoch = s.memEpoch := rfl
@[simp] theorem State.withCorr_inbox (buf : List Byte) (W H : Nat) : (s.withCorr buf W H).inbox = s.inbox := rfl
@[simp] theorem State.withCorr_replies (buf : List Byte) (W H : Nat) : (s.withCorr buf W H).replies = s.replies := rfl

/-! ## writeMem -/

@[simp] theorem State.writeMem_cmd (a : Nat) (bytes : List Byte) : (s.writeMem a bytes).cmd = s.cmd := rfl
@[simp] theorem State.writeMem_status (a : Nat) (bytes : List Byte) : (s.writeMem a bytes).status = s.status := rfl
@[simp] theorem State.writeMem_errcode (a : Nat) (bytes : List Byte) : (s.writeMem a bytes).errcode = s.errcode := rfl
@[simp] theorem State.writeMem_src (a : Nat) (bytes : List Byte) : (s.writeMem a bytes).src = s.src := rfl
@[simp] theorem State.writeMem_dst (a : Nat) (bytes : List Byte) : (s.writeMem a bytes).dst = s.dst := rfl
@[simp] theorem State.writeMem_len (a : Nat) (bytes : List Byte) : (s.writeMem a bytes).len = s.len := rfl
@[simp] theorem State.writeMem_width (a : Nat) (bytes : List Byte) : (s.writeMem a bytes).width = s.width := rfl
@[simp] theorem State.writeMem_height (a : Nat) (bytes : List Byte) : (s.writeMem a bytes).height = s.height := rfl
@[simp] theorem State.writeMem_iters (a : Nat) (bytes : List Byte) : (s.writeMem a bytes).iters = s.iters := rfl
@[simp] theorem State.writeMem_keylen (a : Nat) (bytes : List Byte) : (s.writeMem a bytes).keylen = s.keylen := rfl
@[simp] theorem State.writeMem_ivlen (a : Nat) (bytes : List Byte) : (s.writeMem a bytes).ivlen = s.ivlen := rfl
@[simp] theorem State.writeMem_arg (a : Nat) (bytes : List Byte) : (s.writeMem a bytes).arg = s.arg := rfl
@[simp] theorem State.writeMem_res (a : Nat) (bytes : List Byte) : (s.writeMem a bytes).res = s.res := rfl
@[simp] theorem State.writeMem_seed (a : Nat) (bytes : List Byte) : (s.writeMem a bytes).seed = s.seed := rfl
@[simp] theorem State.writeMem_nblk (a : Nat) (bytes : List Byte) : (s.writeMem a bytes).nblk = s.nblk := rfl
@[simp] theorem State.writeMem_s0 (a : Nat) (bytes : List Byte) : (s.writeMem a bytes).s0 = s.s0 := rfl
@[simp] theorem State.writeMem_s1 (a : Nat) (bytes : List Byte) : (s.writeMem a bytes).s1 = s.s1 := rfl
@[simp] theorem State.writeMem_s2 (a : Nat) (bytes : List Byte) : (s.writeMem a bytes).s2 = s.s2 := rfl
@[simp] theorem State.writeMem_s3 (a : Nat) (bytes : List Byte) : (s.writeMem a bytes).s3 = s.s3 := rfl
@[simp] theorem State.writeMem_kout0 (a : Nat) (bytes : List Byte) : (s.writeMem a bytes).kout0 = s.kout0 := rfl
@[simp] theorem State.writeMem_kout1 (a : Nat) (bytes : List Byte) : (s.writeMem a bytes).kout1 = s.kout1 := rfl
@[simp] theorem State.writeMem_ahLo (a : Nat) (bytes : List Byte) : (s.writeMem a bytes).ahLo = s.ahLo := rfl
@[simp] theorem State.writeMem_ahHi (a : Nat) (bytes : List Byte) : (s.writeMem a bytes).ahHi = s.ahHi := rfl
@[simp] theorem State.writeMem_avLo (a : Nat) (bytes : List Byte) : (s.writeMem a bytes).avLo = s.avLo := rfl
@[simp] theorem State.writeMem_avHi (a : Nat) (bytes : List Byte) : (s.writeMem a bytes).avHi = s.avHi := rfl
@[simp] theorem State.writeMem_adLo (a : Nat) (bytes : List Byte) : (s.writeMem a bytes).adLo = s.adLo := rfl
@[simp] theorem State.writeMem_adHi (a : Nat) (bytes : List Byte) : (s.writeMem a bytes).adHi = s.adHi := rfl
@[simp] theorem State.writeMem_nh (a : Nat) (bytes : List Byte) : (s.writeMem a bytes).nh = s.nh := rfl
@[simp] theorem State.writeMem_nv (a : Nat) (bytes : List Byte) : (s.writeMem a bytes).nv = s.nv := rfl
@[simp] theorem State.writeMem_nd (a : Nat) (bytes : List Byte) : (s.writeMem a bytes).nd = s.nd := rfl
@[simp] theorem State.writeMem_key (a : Nat) (bytes : List Byte) : (s.writeMem a bytes).key = s.key := rfl
@[simp] theorem State.writeMem_iv (a : Nat) (bytes : List Byte) : (s.writeMem a bytes).iv = s.iv := rfl
@[simp] theorem State.writeMem_hr (a : Nat) (bytes : List Byte) : (s.writeMem a bytes).hr = s.hr := rfl
@[simp] theorem State.writeMem_hg (a : Nat) (bytes : List Byte) : (s.writeMem a bytes).hg = s.hg := rfl
@[simp] theorem State.writeMem_hb (a : Nat) (bytes : List Byte) : (s.writeMem a bytes).hb = s.hb := rfl
@[simp] theorem State.writeMem_perm (a : Nat) (bytes : List Byte) : (s.writeMem a bytes).perm = s.perm := rfl
@[simp] theorem State.writeMem_mem (a : Nat) (bytes : List Byte) : (s.writeMem a bytes).mem = s.mem.writeBuf a bytes := rfl
@[simp] theorem State.writeMem_memBytes (a : Nat) (bytes : List Byte) : (s.writeMem a bytes).memBytes = s.memBytes := rfl
@[simp] theorem State.writeMem_nblkMax (a : Nat) (bytes : List Byte) : (s.writeMem a bytes).nblkMax = s.nblkMax := rfl
@[simp] theorem State.writeMem_memEpoch (a : Nat) (bytes : List Byte) : (s.writeMem a bytes).memEpoch = s.memEpoch := rfl
@[simp] theorem State.writeMem_inbox (a : Nat) (bytes : List Byte) : (s.writeMem a bytes).inbox = s.inbox := rfl
@[simp] theorem State.writeMem_replies (a : Nat) (bytes : List Byte) : (s.writeMem a bytes).replies = s.replies := rfl

/-! ## withInbox -/

@[simp] theorem State.withInbox_cmd (ts : List Transaction) : (s.withInbox ts).cmd = s.cmd := rfl
@[simp] theorem State.withInbox_status (ts : List Transaction) : (s.withInbox ts).status = s.status := rfl
@[simp] theorem State.withInbox_errcode (ts : List Transaction) : (s.withInbox ts).errcode = s.errcode := rfl
@[simp] theorem State.withInbox_src (ts : List Transaction) : (s.withInbox ts).src = s.src := rfl
@[simp] theorem State.withInbox_dst (ts : List Transaction) : (s.withInbox ts).dst = s.dst := rfl
@[simp] theorem State.withInbox_len (ts : List Transaction) : (s.withInbox ts).len = s.len := rfl
@[simp] theorem State.withInbox_width (ts : List Transaction) : (s.withInbox ts).width = s.width := rfl
@[simp] theorem State.withInbox_height (ts : List Transaction) : (s.withInbox ts).height = s.height := rfl
@[simp] theorem State.withInbox_iters (ts : List Transaction) : (s.withInbox ts).iters = s.iters := rfl
@[simp] theorem State.withInbox_keylen (ts : List Transaction) : (s.withInbox ts).keylen = s.keylen := rfl
@[simp] theorem State.withInbox_ivlen (ts : List Transaction) : (s.withInbox ts).ivlen = s.ivlen := rfl
@[simp] theorem State.withInbox_arg (ts : List Transaction) : (s.withInbox ts).arg = s.arg := rfl
@[simp] theorem State.withInbox_res (ts : List Transaction) : (s.withInbox ts).res = s.res := rfl
@[simp] theorem State.withInbox_seed (ts : List Transaction) : (s.withInbox ts).seed = s.seed := rfl
@[simp] theorem State.withInbox_nblk (ts : List Transaction) : (s.withInbox ts).nblk = s.nblk := rfl
@[simp] theorem State.withInbox_s0 (ts : List Transaction) : (s.withInbox ts).s0 = s.s0 := rfl
@[simp] theorem State.withInbox_s1 (ts : List Transaction) : (s.withInbox ts).s1 = s.s1 := rfl
@[simp] theorem State.withInbox_s2 (ts : List Transaction) : (s.withInbox ts).s2 = s.s2 := rfl
@[simp] theorem State.withInbox_s3 (ts : List Transaction) : (s.withInbox ts).s3 = s.s3 := rfl
@[simp] theorem State.withInbox_kout0 (ts : List Transaction) : (s.withInbox ts).kout0 = s.kout0 := rfl
@[simp] theorem State.withInbox_kout1 (ts : List Transaction) : (s.withInbox ts).kout1 = s.kout1 := rfl
@[simp] theorem State.withInbox_ahLo (ts : List Transaction) : (s.withInbox ts).ahLo = s.ahLo := rfl
@[simp] theorem State.withInbox_ahHi (ts : List Transaction) : (s.withInbox ts).ahHi = s.ahHi := rfl
@[simp] theorem State.withInbox_avLo (ts : List Transaction) : (s.withInbox ts).avLo = s.avLo := rfl
@[simp] theorem State.withInbox_avHi (ts : List Transaction) : (s.withInbox ts).avHi = s.avHi := rfl
@[simp] theorem State.withInbox_adLo (ts : List Transaction) : (s.withInbox ts).adLo = s.adLo := rfl
@[simp] theorem State.withInbox_adHi (ts : List Transaction) : (s.withInbox ts).adHi = s.adHi := rfl
@[simp] theorem State.withInbox_nh (ts : List Transaction) : (s.withInbox ts).nh = s.nh := rfl
@[simp] theorem State.withInbox_nv (ts : List Transaction) : (s.withInbox ts).nv = s.nv := rfl
@[simp] theorem State.withInbox_nd (ts : List Transaction) : (s.withInbox ts).nd = s.nd := rfl
@[simp] theorem State.withInbox_key (ts : List Transaction) : (s.withInbox ts).key = s.key := rfl
@[simp] theorem State.withInbox_iv (ts : List Transaction) : (s.withInbox ts).iv = s.iv := rfl
@[simp] theorem State.withInbox_hr (ts : List Transaction) : (s.withInbox ts).hr = s.hr := rfl
@[simp] theorem State.withInbox_hg (ts : List Transaction) : (s.withInbox ts).hg = s.hg := rfl
@[simp] theorem State.withInbox_hb (ts : List Transaction) : (s.withInbox ts).hb = s.hb := rfl
@[simp] theorem State.withInbox_perm (ts : List Transaction) : (s.withInbox ts).perm = s.perm := rfl
@[simp] theorem State.withInbox_mem (ts : List Transaction) : (s.withInbox ts).mem = s.mem := rfl
@[simp] theorem State.withInbox_memBytes (ts : List Transaction) : (s.withInbox ts).memBytes = s.memBytes := rfl
@[simp] theorem State.withInbox_nblkMax (ts : List Transaction) : (s.withInbox ts).nblkMax = s.nblkMax := rfl
@[simp] theorem State.withInbox_memEpoch (ts : List Transaction) : (s.withInbox ts).memEpoch = s.memEpoch := rfl
@[simp] theorem State.withInbox_inbox (ts : List Transaction) : (s.withInbox ts).inbox = ts := rfl
@[simp] theorem State.withInbox_replies (ts : List Transaction) : (s.withInbox ts).replies = s.replies := rfl

/-! ## pushReply -/

@[simp] theorem State.pushReply_cmd (r : Reply) : (s.pushReply r).cmd = s.cmd := rfl
@[simp] theorem State.pushReply_status (r : Reply) : (s.pushReply r).status = s.status := rfl
@[simp] theorem State.pushReply_errcode (r : Reply) : (s.pushReply r).errcode = s.errcode := rfl
@[simp] theorem State.pushReply_src (r : Reply) : (s.pushReply r).src = s.src := rfl
@[simp] theorem State.pushReply_dst (r : Reply) : (s.pushReply r).dst = s.dst := rfl
@[simp] theorem State.pushReply_len (r : Reply) : (s.pushReply r).len = s.len := rfl
@[simp] theorem State.pushReply_width (r : Reply) : (s.pushReply r).width = s.width := rfl
@[simp] theorem State.pushReply_height (r : Reply) : (s.pushReply r).height = s.height := rfl
@[simp] theorem State.pushReply_iters (r : Reply) : (s.pushReply r).iters = s.iters := rfl
@[simp] theorem State.pushReply_keylen (r : Reply) : (s.pushReply r).keylen = s.keylen := rfl
@[simp] theorem State.pushReply_ivlen (r : Reply) : (s.pushReply r).ivlen = s.ivlen := rfl
@[simp] theorem State.pushReply_arg (r : Reply) : (s.pushReply r).arg = s.arg := rfl
@[simp] theorem State.pushReply_res (r : Reply) : (s.pushReply r).res = s.res := rfl
@[simp] theorem State.pushReply_seed (r : Reply) : (s.pushReply r).seed = s.seed := rfl
@[simp] theorem State.pushReply_nblk (r : Reply) : (s.pushReply r).nblk = s.nblk := rfl
@[simp] theorem State.pushReply_s0 (r : Reply) : (s.pushReply r).s0 = s.s0 := rfl
@[simp] theorem State.pushReply_s1 (r : Reply) : (s.pushReply r).s1 = s.s1 := rfl
@[simp] theorem State.pushReply_s2 (r : Reply) : (s.pushReply r).s2 = s.s2 := rfl
@[simp] theorem State.pushReply_s3 (r : Reply) : (s.pushReply r).s3 = s.s3 := rfl
@[simp] theorem State.pushReply_kout0 (r : Reply) : (s.pushReply r).kout0 = s.kout0 := rfl
@[simp] theorem State.pushReply_kout1 (r : Reply) : (s.pushReply r).kout1 = s.kout1 := rfl
@[simp] theorem State.pushReply_ahLo (r : Reply) : (s.pushReply r).ahLo = s.ahLo := rfl
@[simp] theorem State.pushReply_ahHi (r : Reply) : (s.pushReply r).ahHi = s.ahHi := rfl
@[simp] theorem State.pushReply_avLo (r : Reply) : (s.pushReply r).avLo = s.avLo := rfl
@[simp] theorem State.pushReply_avHi (r : Reply) : (s.pushReply r).avHi = s.avHi := rfl
@[simp] theorem State.pushReply_adLo (r : Reply) : (s.pushReply r).adLo = s.adLo := rfl
@[simp] theorem State.pushReply_adHi (r : Reply) : (s.pushReply r).adHi = s.adHi := rfl
@[simp] theorem State.pushReply_nh (r : Reply) : (s.pushReply r).nh = s.nh := rfl
@[simp] theorem State.pushReply_nv (r : Reply) : (s.pushReply r).nv = s.nv := rfl
@[simp] theorem State.pushReply_nd (r : Reply) : (s.pushReply r).nd = s.nd := rfl
@[simp] theorem State.pushReply_key (r : Reply) : (s.pushReply r).key = s.key := rfl
@[simp] theorem State.pushReply_iv (r : Reply) : (s.pushReply r).iv = s.iv := rfl
@[simp] theorem State.pushReply_hr (r : Reply) : (s.pushReply r).hr = s.hr := rfl
@[simp] theorem State.pushReply_hg (r : Reply) : (s.pushReply r).hg = s.hg := rfl
@[simp] theorem State.pushReply_hb (r : Reply) : (s.pushReply r).hb = s.hb := rfl
@[simp] theorem State.pushReply_perm (r : Reply) : (s.pushReply r).perm = s.perm := rfl
@[simp] theorem State.pushReply_mem (r : Reply) : (s.pushReply r).mem = s.mem := rfl
@[simp] theorem State.pushReply_memBytes (r : Reply) : (s.pushReply r).memBytes = s.memBytes := rfl
@[simp] theorem State.pushReply_nblkMax (r : Reply) : (s.pushReply r).nblkMax = s.nblkMax := rfl
@[simp] theorem State.pushReply_memEpoch (r : Reply) : (s.pushReply r).memEpoch = s.memEpoch := rfl
@[simp] theorem State.pushReply_inbox (r : Reply) : (s.pushReply r).inbox = s.inbox := rfl
@[simp] theorem State.pushReply_replies (r : Reply) : (s.pushReply r).replies = s.replies ++ [r] := rfl

/-! ## Operands that an update leaves alone -/

@[simp] theorem State.complete_keyBytes : (s.complete).keyBytes = s.keyBytes := rfl
@[simp] theorem State.complete_ivBytes : (s.complete).ivBytes = s.ivBytes := rfl
@[simp] theorem State.complete_imageBytes : (s.complete).imageBytes = s.imageBytes := rfl
@[simp] theorem State.complete_blockCount : (s.complete).blockCount = s.blockCount := rfl
@[simp] theorem State.complete_permEntries : (s.complete).permEntries = s.permEntries := rfl
@[simp] theorem State.complete_prng : (s.complete).prng = s.prng := rfl
@[simp] theorem State.complete_memByte (x : Nat) :
    (s.complete).memByte x = s.memByte x := rfl

@[simp] theorem State.takeFault_keyBytes (f : FaultKind) : (s.takeFault f).keyBytes = s.keyBytes := rfl
@[simp] theorem State.takeFault_ivBytes (f : FaultKind) : (s.takeFault f).ivBytes = s.ivBytes := rfl
@[simp] theorem State.takeFault_imageBytes (f : FaultKind) : (s.takeFault f).imageBytes = s.imageBytes := rfl
@[simp] theorem State.takeFault_blockCount (f : FaultKind) : (s.takeFault f).blockCount = s.blockCount := rfl
@[simp] theorem State.takeFault_permEntries (f : FaultKind) : (s.takeFault f).permEntries = s.permEntries := rfl
@[simp] theorem State.takeFault_prng (f : FaultKind) : (s.takeFault f).prng = s.prng := rfl
@[simp] theorem State.takeFault_memByte (f : FaultKind) (x : Nat) :
    (s.takeFault f).memByte x = s.memByte x := rfl

@[simp] theorem State.withCmd_keyBytes (v : Word) : (s.withCmd v).keyBytes = s.keyBytes := rfl
@[simp] theorem State.withCmd_ivBytes (v : Word) : (s.withCmd v).ivBytes = s.ivBytes := rfl
@[simp] theorem State.withCmd_imageBytes (v : Word) : (s.withCmd v).imageBytes = s.imageBytes := rfl
@[simp] theorem State.withCmd_blockCount (v : Word) : (s.withCmd v).blockCount = s.blockCount := rfl
@[simp] theorem State.withCmd_permEntries (v : Word) : (s.withCmd v).permEntries = s.permEntries := rfl
@[simp] theorem State.withCmd_prng (v : Word) : (s.withCmd v).prng = s.prng := rfl
@[simp] theorem State.withCmd_memByte (v : Word) (x : Nat) :
    (s.withCmd v).memByte x = s.memByte x := rfl

@[simp] theorem State.withSeed_keyBytes (v : Word) : (s.withSeed v).keyBytes = s.keyBytes := rfl
@[simp] theorem State.withSeed_ivBytes (v : Word) : (s.withSeed v).ivBytes = s.ivBytes := rfl
@[simp] theorem State.withSeed_imageBytes (v : Word) : (s.withSeed v).imageBytes = s.imageBytes := rfl
@[simp] theorem State.withSeed_blockCount (v : Word) : (s.withSeed v).blockCount = s.blockCount := rfl
@[simp] theorem State.withSeed_permEntries (v : Word) : (s.withSeed v).permEntries = s.permEntries := rfl
@[simp] theorem State.withSeed_prng (v : Word) : (s.withSeed v).prng = s.prng := rfl
@[simp] theorem State.withSeed_memByte (v : Word) (x : Nat) :
    (s.withSeed v).memByte x = s.memByte x := rfl

@[simp] theorem State.withRes_keyBytes (v : Word) : (s.withRes v).keyBytes = s.keyBytes := rfl
@[simp] theorem State.withRes_ivBytes (v : Word) : (s.withRes v).ivBytes = s.ivBytes := rfl
@[simp] theorem State.withRes_imageBytes (v : Word) : (s.withRes v).imageBytes = s.imageBytes := rfl
@[simp] theorem State.withRes_blockCount (v : Word) : (s.withRes v).blockCount = s.blockCount := rfl
@[simp] theorem State.withRes_permEntries (v : Word) : (s.withRes v).permEntries = s.permEntries := rfl
@[simp] theorem State.withRes_prng (v : Word) : (s.withRes v).prng = s.prng := rfl
@[simp] theorem State.withRes_memByte (v : Word) (x : Nat) :
    (s.withRes v).memByte x = s.memByte x := rfl

@[simp] theorem State.withKout_keyBytes (a b : Word) : (s.withKout a b).keyBytes = s.keyBytes := rfl
@[simp] theorem State.withKout_ivBytes (a b : Word) : (s.withKout a b).ivBytes = s.ivBytes := rfl
@[simp] theorem State.withKout_imageBytes (a b : Word) : (s.withKout a b).imageBytes = s.imageBytes := rfl
@[simp] theorem State.withKout_blockCount (a b : Word) : (s.withKout a b).blockCount = s.blockCount := rfl
@[simp] theorem State.withKout_permEntries (a b : Word) : (s.withKout a b).permEntries = s.permEntries := rfl
@[simp] theorem State.withKout_prng (a b : Word) : (s.withKout a b).prng = s.prng := rfl
@[simp] theorem State.withKout_memByte (a b : Word) (x : Nat) :
    (s.withKout a b).memByte x = s.memByte x := rfl

@[simp] theorem State.withPerm_keyBytes (P : List Nat) : (s.withPerm P).keyBytes = s.keyBytes := rfl
@[simp] theorem State.withPerm_ivBytes (P : List Nat) : (s.withPerm P).ivBytes = s.ivBytes := rfl
@[simp] theorem State.withPerm_imageBytes (P : List Nat) : (s.withPerm P).imageBytes = s.imageBytes := rfl
@[simp] theorem State.withPerm_blockCount (P : List Nat) : (s.withPerm P).blockCount = s.blockCount := rfl
@[simp] theorem State.withPerm_prng (P : List Nat) : (s.withPerm P).prng = s.prng := rfl
@[simp] theorem State.withPerm_memByte (P : List Nat) (x : Nat) :
    (s.withPerm P).memByte x = s.memByte x := rfl

@[simp] theorem State.withMapping_keyBytes (n : Nat) (P : List Nat) : (s.withMapping n P).keyBytes = s.keyBytes := rfl
@[simp] theorem State.withMapping_ivBytes (n : Nat) (P : List Nat) : (s.withMapping n P).ivBytes = s.ivBytes := rfl
@[simp] theorem State.withMapping_imageBytes (n : Nat) (P : List Nat) : (s.withMapping n P).imageBytes = s.imageBytes := rfl
@[simp] theorem State.withMapping_blockCount (n : Nat) (P : List Nat) : (s.withMapping n P).blockCount = s.blockCount := rfl
@[simp] theorem State.withMapping_prng (n : Nat) (P : List Nat) : (s.withMapping n P).prng = s.prng := rfl
@[simp] theorem State.withMapping_memByte (n : Nat) (P : List Nat) (x : Nat) :
    (s.withMapping n P).memByte x = s.memByte x := rfl

@[simp] theorem State.withHistogram_keyBytes (r g b : RegFile 32 Config.nBucket) : (s.withHistogram r g b).keyBytes = s.keyBytes := rfl
@[simp] theorem State.withHistogram_ivBytes (r g b : RegFile 32 Config.nBucket) : (s.withHistogram r g b).ivBytes = s.ivBytes := rfl
@[simp] theorem State.withHistogram_imageBytes (r g b : RegFile 32 Config.nBucket) : (s.withHistogram r g b).imageBytes = s.imageBytes := rfl
@[simp] theorem State.withHistogram_blockCount (r g b : RegFile 32 Config.nBucket) : (s.withHistogram r g b).blockCount = s.blockCount := rfl
@[simp] theorem State.withHistogram_permEntries (r g b : RegFile 32 Config.nBucket) : (s.withHistogram r g b).permEntries = s.permEntries := rfl
@[simp] theorem State.withHistogram_prng (r g b : RegFile 32 Config.nBucket) : (s.withHistogram r g b).prng = s.prng := rfl
@[simp] theorem State.withHistogram_memByte (r g b : RegFile 32 Config.nBucket) (x : Nat) :
    (s.withHistogram r g b).memByte x = s.memByte x := rfl

@[simp] theorem State.withPrng_keyBytes (S : PrngState) : (s.withPrng S).keyBytes = s.keyBytes := rfl
@[simp] theorem State.withPrng_ivBytes (S : PrngState) : (s.withPrng S).ivBytes = s.ivBytes := rfl
@[simp] theorem State.withPrng_imageBytes (S : PrngState) : (s.withPrng S).imageBytes = s.imageBytes := rfl
@[simp] theorem State.withPrng_blockCount (S : PrngState) : (s.withPrng S).blockCount = s.blockCount := rfl
@[simp] theorem State.withPrng_permEntries (S : PrngState) : (s.withPrng S).permEntries = s.permEntries := rfl
@[simp] theorem State.withPrng_memByte (S : PrngState) (x : Nat) :
    (s.withPrng S).memByte x = s.memByte x := rfl

@[simp] theorem State.withCorr_keyBytes (buf : List Byte) (W H : Nat) : (s.withCorr buf W H).keyBytes = s.keyBytes := rfl
@[simp] theorem State.withCorr_ivBytes (buf : List Byte) (W H : Nat) : (s.withCorr buf W H).ivBytes = s.ivBytes := rfl
@[simp] theorem State.withCorr_imageBytes (buf : List Byte) (W H : Nat) : (s.withCorr buf W H).imageBytes = s.imageBytes := rfl
@[simp] theorem State.withCorr_blockCount (buf : List Byte) (W H : Nat) : (s.withCorr buf W H).blockCount = s.blockCount := rfl
@[simp] theorem State.withCorr_permEntries (buf : List Byte) (W H : Nat) : (s.withCorr buf W H).permEntries = s.permEntries := rfl
@[simp] theorem State.withCorr_prng (buf : List Byte) (W H : Nat) : (s.withCorr buf W H).prng = s.prng := rfl
@[simp] theorem State.withCorr_memByte (buf : List Byte) (W H : Nat) (x : Nat) :
    (s.withCorr buf W H).memByte x = s.memByte x := rfl

@[simp] theorem State.writeMem_keyBytes (a : Nat) (bytes : List Byte) : (s.writeMem a bytes).keyBytes = s.keyBytes := rfl
@[simp] theorem State.writeMem_ivBytes (a : Nat) (bytes : List Byte) : (s.writeMem a bytes).ivBytes = s.ivBytes := rfl
@[simp] theorem State.writeMem_imageBytes (a : Nat) (bytes : List Byte) : (s.writeMem a bytes).imageBytes = s.imageBytes := rfl
@[simp] theorem State.writeMem_blockCount (a : Nat) (bytes : List Byte) : (s.writeMem a bytes).blockCount = s.blockCount := rfl
@[simp] theorem State.writeMem_permEntries (a : Nat) (bytes : List Byte) : (s.writeMem a bytes).permEntries = s.permEntries := rfl
@[simp] theorem State.writeMem_prng (a : Nat) (bytes : List Byte) : (s.writeMem a bytes).prng = s.prng := rfl

@[simp] theorem State.withInbox_keyBytes (ts : List Transaction) : (s.withInbox ts).keyBytes = s.keyBytes := rfl
@[simp] theorem State.withInbox_ivBytes (ts : List Transaction) : (s.withInbox ts).ivBytes = s.ivBytes := rfl
@[simp] theorem State.withInbox_imageBytes (ts : List Transaction) : (s.withInbox ts).imageBytes = s.imageBytes := rfl
@[simp] theorem State.withInbox_blockCount (ts : List Transaction) : (s.withInbox ts).blockCount = s.blockCount := rfl
@[simp] theorem State.withInbox_permEntries (ts : List Transaction) : (s.withInbox ts).permEntries = s.permEntries := rfl
@[simp] theorem State.withInbox_prng (ts : List Transaction) : (s.withInbox ts).prng = s.prng := rfl
@[simp] theorem State.withInbox_memByte (ts : List Transaction) (x : Nat) :
    (s.withInbox ts).memByte x = s.memByte x := rfl

@[simp] theorem State.pushReply_keyBytes (r : Reply) : (s.pushReply r).keyBytes = s.keyBytes := rfl
@[simp] theorem State.pushReply_ivBytes (r : Reply) : (s.pushReply r).ivBytes = s.ivBytes := rfl
@[simp] theorem State.pushReply_imageBytes (r : Reply) : (s.pushReply r).imageBytes = s.imageBytes := rfl
@[simp] theorem State.pushReply_blockCount (r : Reply) : (s.pushReply r).blockCount = s.blockCount := rfl
@[simp] theorem State.pushReply_permEntries (r : Reply) : (s.pushReply r).permEntries = s.permEntries := rfl
@[simp] theorem State.pushReply_prng (r : Reply) : (s.pushReply r).prng = s.prng := rfl
@[simp] theorem State.pushReply_memByte (r : Reply) (x : Nat) :
    (s.pushReply r).memByte x = s.memByte x := rfl

end Sys2Proof.Machine
end

