-- ==== Sys2Proof/Laws/Memory.lean ====
section
/-! SUPPORT. Register files and MEM: read after write, what a write leaves alone, and that every memory
operation keeps the canonical form. -/

namespace Sys2Proof.Machine

/-! ## Register files -/

@[simp] theorem RegFile.zero_get (w n i : Nat) : (RegFile.zero w n).get i = 0 := by
  simp only [RegFile.zero, RegFile.get, List.getD_eq_getElem?_getD, List.getElem?_replicate]
  split <;> rfl

theorem RegFile.get_set_same {w n : Nat} (f : RegFile w n) (i : Nat) (v : BitVec w) (h : i < n) :
    (f.set i v).get i = v := by
  have : i < f.cells.length := by rw [f.size]; exact h
  simp [RegFile.set, RegFile.get, this]

theorem RegFile.get_set_other {w n : Nat} (f : RegFile w n) (i j : Nat) (v : BitVec w) (h : j ≠ i) :
    (f.set i v).get j = f.get j := by
  simp [RegFile.set, RegFile.get, Ne.symm h]

/-- An element the file does not have reads as 0. -/
theorem RegFile.get_outside {w n : Nat} (f : RegFile w n) (i : Nat) (h : n ≤ i) : f.get i = 0 := by
  have : f.cells.length ≤ i := by rw [f.size]; exact h
  simp [RegFile.get, this]

/-! ## One byte of MEM -/

theorem Memory.find_write_same (m : Memory) (a : Nat) (v : Byte) : (m.write a v).find a = some v := by
  induction m with
  | nil => simp [Memory.write, Memory.find]
  | cons c rest ih =>
    unfold Memory.write
    split
    · simp [Memory.find]
    · split
      · simp [Memory.find]
      · rename_i h1 h2
        have : (a == c.1) = false := by simpa using h2
        simpa [Memory.find, List.lookup, this] using ih

theorem Memory.find_write_other (m : Memory) (a x : Nat) (v : Byte) (h : x ≠ a) :
    (m.write a v).find x = m.find x := by
  have hx : (x == a) = false := by simpa using h
  induction m with
  | nil => simp [Memory.write, Memory.find, List.lookup, hx]
  | cons c rest ih =>
    unfold Memory.write
    split
    · simp [Memory.find, List.lookup, hx]
    · split
      · rename_i h1 h2
        subst h2
        simp [Memory.find, List.lookup, hx]
      · simp only [Memory.find, List.lookup] at ih ⊢
        split <;> [rfl; exact ih]

/-- Every listed address of a write is the one written or was listed before. -/
theorem Memory.mem_write (m : Memory) (a : Nat) (v : Byte) (c : Host.Cell) (h : c ∈ m.write a v) :
    c = (a, v) ∨ c ∈ m := by
  induction m with
  | nil => simpa [Memory.write] using h
  | cons d rest ih =>
    unfold Memory.write at h
    split at h
    · simpa using h
    · split at h
      · simp only [List.mem_cons] at h ⊢
        tauto
      · simp only [List.mem_cons] at h ⊢
        rcases h with h | h
        · exact .inr (.inl h)
        · rcases ih h with h | h <;> tauto

/-- A write keeps the canonical form. -/
theorem Memory.write_wf (m : Memory) (a : Nat) (v : Byte) (h : m.wf) : (m.write a v).wf := by
  induction m with
  | nil => simp [Memory.write, Memory.wf]
  | cons c rest ih =>
    obtain ⟨hc, hrest⟩ := List.pairwise_cons.1 h
    unfold Memory.write
    split
    · rename_i h1
      refine List.pairwise_cons.2 ⟨fun x hx => ?_, h⟩
      rcases List.mem_cons.1 hx with rfl | hx
      · exact h1
      · exact h1.trans (hc x hx)
    · split
      · rename_i h1 h2
        exact List.pairwise_cons.2 ⟨fun x hx => by simpa [h2] using hc x hx, hrest⟩
      · rename_i h1 h2
        refine List.pairwise_cons.2 ⟨fun x hx => ?_, ih hrest⟩
        rcases Memory.mem_write rest a v x hx with rfl | hx
        · exact by dsimp only; omega
        · exact hc x hx

/-! ## Buffers of MEM -/

/-- A buffer write keeps the canonical form. -/
theorem Memory.writeBuf_wf (bytes : List Byte) (m : Memory) (a : Nat) (h : m.wf) : (m.writeBuf a bytes).wf := by
  induction bytes generalizing m a with
  | nil => exact h
  | cons b rest ih => exact ih _ _ (Memory.write_wf m a b h)

/-- A buffer write lists no address at or beyond a bound that its buffer respects. -/
theorem Memory.writeBuf_bound (bytes : List Byte) (m : Memory) (a n : Nat)
    (hm : ∀ c ∈ m, c.1 < n) (hb : a + bytes.length ≤ n) : ∀ c ∈ m.writeBuf a bytes, c.1 < n := by
  induction bytes generalizing m a with
  | nil => exact hm
  | cons b rest ih =>
    simp only [List.length_cons] at hb
    refine ih (m.write a b) (a + 1) (fun c hc => ?_) (by omega)
    rcases Memory.mem_write m a b c hc with rfl | hc
    · exact by dsimp only; omega
    · exact hm c hc

/-- What a buffer write can do to one address: inside the buffer its byte, outside nothing. -/
theorem Memory.find_writeBuf (bytes : List Byte) (m : Memory) (a x : Nat) :
    (m.writeBuf a bytes).find x =
      if h : a ≤ x ∧ x < a + bytes.length then some (bytes[x - a]'(by omega)) else m.find x := by
  induction bytes generalizing m a with
  | nil => rw [dif_neg (by simp only [List.length_nil]; omega)]; rfl
  | cons b rest ih =>
    rw [Memory.writeBuf, ih]
    by_cases hx : x = a
    · subst hx
      rw [dif_neg (by omega), dif_pos (by simp), Memory.find_write_same]
      simp
    · by_cases hin : a ≤ x ∧ x < a + (rest.length + 1)
      · rw [dif_pos (by omega), dif_pos (by simpa using hin)]
        have hs : x - a = (x - (a + 1)) + 1 := by omega
        simp [hs]
      · rw [dif_neg (by omega), dif_neg (by simpa using hin), Memory.find_write_other _ _ _ _ hx]

/-- One byte after a buffer write. -/
theorem State.memByte_writeMem (s : State) (a x : Nat) (bytes : List Byte) :
    (s.writeMem a bytes).memByte x =
      if a ≤ x ∧ x < a + bytes.length then bytes.getD (x - a) 0 else s.memByte x := by
  simp only [State.memByte, State.writeMem_mem, State.writeMem_memEpoch, Memory.find_writeBuf]
  split
  · rename_i h
    have : x - a < bytes.length := by omega
    simp [this]
  · rfl

@[simp] theorem State.readBuf_length (s : State) (a n : Nat) : (s.readBuf a n).length = n := by
  simp [State.readBuf]

theorem State.readBuf_getD (s : State) (a n i : Nat) (h : i < n) :
    (s.readBuf a n).getD i 0 = s.memByte (a + i) := by
  simp [State.readBuf, h]

end Sys2Proof.Machine
end

