-- ==== Sys2Proof/Laws/Ops.lean ====
section
/-! SUPPORT. What the shared operations of every command can do: the status bits, the checks, completion and
fault entry. -/

namespace Sys2Proof.Machine

/-! ## STATUS -/

theorem statusWithDone_bits (x : BitVec 2) :
    (statusWithDone x).getLsbD 0 = true ∧ (statusWithDone x).getLsbD 1 = x.getLsbD 1 := by
  revert x; decide

theorem faultStatus_eq (x : BitVec 2) : statusWithErr (statusWithoutDone x) = 0b10#2 := by
  revert x; decide

@[simp] theorem State.complete_doneFlag (s : State) : s.complete.doneFlag = true :=
  (statusWithDone_bits s.status).1

@[simp] theorem State.complete_errFlag (s : State) : s.complete.errFlag = s.errFlag :=
  (statusWithDone_bits s.status).2

/-- Fault entry, field by field (rule R207). -/
theorem State.takeFault_eq (s : State) (f : FaultKind) :
    s.takeFault f = { s with status := 0b10#2, errcode := f.code } := by
  simp [State.takeFault, faultStatus_eq]

@[simp] theorem State.takeFault_doneFlag (s : State) (f : FaultKind) : (s.takeFault f).doneFlag = false := by
  simp [State.takeFault_eq, State.doneFlag]

@[simp] theorem State.takeFault_errFlag (s : State) (f : FaultKind) : (s.takeFault f).errFlag = true := by
  simp [State.takeFault_eq, State.errFlag]

/-! ## Checks -/

@[simp] theorem firstFault_nil : firstFault [] = none := rfl

@[simp] theorem firstFault_cons (b : Bool) (f : FaultKind) (cs : List (Bool × FaultKind)) :
    firstFault ((b, f) :: cs) = if b then some f else firstFault cs := by
  cases b <;> rfl

/-! ## Running a command -/

theorem runCommand_fault (cs : List (Bool × FaultKind)) (e : State → State) (s : State) (f : FaultKind)
    (h : firstFault cs = some f) : runCommand cs e s = .next (s.takeFault f) := by
  simp [runCommand, h]

theorem runCommand_done (cs : List (Bool × FaultKind)) (e : State → State) (s : State)
    (h : firstFault cs = none) : runCommand cs e s = .next (e s).complete := by
  simp [runCommand, h]

/-- All a command can do: its first failing check faults and nothing else changes, or it has its whole effect
and completes. -/
theorem runCommand_cases (cs : List (Bool × FaultKind)) (e : State → State) (s t : State)
    (h : runCommand cs e s = .next t) :
    (∃ f, firstFault cs = some f ∧ t = s.takeFault f) ∨ (firstFault cs = none ∧ t = (e s).complete) := by
  unfold runCommand at h
  split at h
  · rename_i f hf
    exact .inl ⟨f, hf, by simpa using h.symm⟩
  · rename_i hn
    exact .inr ⟨hn, by simpa using h.symm⟩

/-- A command always answers a next state (rule R232). -/
theorem runCommand_next (cs : List (Bool × FaultKind)) (e : State → State) (s : State) :
    ∃ t, runCommand cs e s = .next t := by
  unfold runCommand
  split <;> exact ⟨_, rfl⟩

/-- Every meaning is one `runCommand`; so every command answers a next state. -/
theorem exec_next (i : Instr) (s : State) : ∃ t, exec i s = .next t := by
  cases i
  case kseed => unfold exec execKseed; exact runCommand_next _ _ _
  case kchunk => unfold exec execKchunk; exact runCommand_next _ _ _
  case ksgen => unfold exec execKsgen; exact runCommand_next _ _ _
  case sxf => unfold exec execSxf; exact runCommand_next _ _ _
  case cseed => unfold exec execCseed; exact runCommand_next _ _ _
  case lgen => unfold exec execLgen; exact runCommand_next _ _ _
  case pinit => unfold exec execPinit; exact runCommand_next _ _ _
  case shuf => unfold exec execShuf; exact runCommand_next _ _ _
  case prev => unfold exec execPrev; exact runCommand_next _ _ _
  case pbuild => unfold exec execPbuild; exact runCommand_next _ _ _
  case pinv => unfold exec execPinv; exact runCommand_next _ _ _
  case bremap => unfold exec execBremap; exact runCommand_next _ _ _
  case hist => unfold exec execHist; exact runCommand_next _ _ _
  case corr => unfold exec execCorr; exact runCommand_next _ _ _

end Sys2Proof.Machine
end

