-- ==== Sys2Proof/Laws/Serve.lean ====
section
/-! SUPPORT. All a transaction and a step can do. -/

namespace Sys2Proof.Machine

/-- A CMD write: refused, illegal, or the execution of the decoded command (rule R206). -/
theorem State.writeCmd_cases (s t : State) (v : Word) (h : s.writeCmd v = .next t) :
    (s.errFlag = true ∧ t = s) ∨
      (s.errFlag = false ∧ (∃ e, decode v = .error e) ∧
        t = (s.withCmd v).takeFault .unsupportedAlgorithm) ∨
      (s.errFlag = false ∧ ∃ i, decode v = .ok i ∧ exec i (s.withCmd v) = .next t) := by
  unfold State.writeCmd at h
  split at h
  · rename_i he
    exact .inl ⟨he, by simpa using h.symm⟩
  · rename_i he
    have he : s.errFlag = false := by simpa using he
    split at h
    · rename_i i hi
      exact .inr (.inr ⟨he, i, hi, h⟩)
    · rename_i e hd
      exact .inr (.inl ⟨he, ⟨e, hd⟩, by simpa using h.symm⟩)

theorem State.writeCmd_next (s : State) (v : Word) : ∃ t, s.writeCmd v = .next t := by
  unfold State.writeCmd
  split
  · exact ⟨_, rfl⟩
  · split
    · exact exec_next _ _
    · exact ⟨_, rfl⟩

/-- A register write: ignored, a CMD write, a CTRL write, or a plain store. -/
theorem State.regWrite_cases (s t : State) (i v : Word) (h : s.regWrite i v = .next t) :
    (regAt s.nblkMax i = none ∧ t = s) ∨
      (regAt s.nblkMax i = some .cmd ∧ s.writeCmd v = .next t) ∨
      (regAt s.nblkMax i = some .ctrl ∧ t = s.writeCtrl v) ∨
      ∃ r, regAt s.nblkMax i = some r ∧ r ≠ .cmd ∧ r ≠ .ctrl ∧ t = s.storeReg r v := by
  unfold State.regWrite at h
  split at h
  · rename_i hr
    exact .inl ⟨hr, by simpa using h.symm⟩
  · rename_i hr
    exact .inr (.inl ⟨hr, h⟩)
  · rename_i hr
    exact .inr (.inr (.inl ⟨hr, by simpa using h.symm⟩))
  · rename_i r h1 h2 hr
    exact .inr (.inr (.inr ⟨r, hr, by simpa using h1, by simpa using h2, by simpa using h.symm⟩))

theorem serve_next (t : Transaction) (s : State) : ∃ u, serve t s = .next u := by
  cases t with
  | regWrite i v =>
    simp only [serve, State.regWrite]
    split
    · exact ⟨_, rfl⟩
    · exact State.writeCmd_next _ _
    · exact ⟨_, rfl⟩
    · exact ⟨_, rfl⟩
  | _ => exact ⟨_, rfl⟩

/-- A step with nothing left to serve changes nothing. -/
theorem step_idle (s : State) (h : s.inbox = []) : step s = .next s := by
  simp [step, serveNext, h]

/-- A step that has a transaction serves it and answers it. -/
theorem step_serve (s u : State) (t : Transaction) (rest : List Transaction) (h : s.inbox = t :: rest)
    (hu : serve t (s.withInbox rest) = .next u) : step s = .next (u.pushReply (replyTo t s)) := by
  simp [step, serveNext, h, hu]

/-- All a step can do. -/
theorem step_cases (s s' : State) (h : step s = .next s') :
    (s.inbox = [] ∧ s' = s) ∨
      ∃ t rest u, s.inbox = t :: rest ∧ serve t (s.withInbox rest) = .next u ∧
        s' = u.pushReply (replyTo t s) := by
  cases hi : s.inbox with
  | nil =>
    rw [step_idle s hi] at h
    exact .inl ⟨rfl, by simpa using h.symm⟩
  | cons t rest =>
    obtain ⟨u, hu⟩ := serve_next t (s.withInbox rest)
    rw [step_serve s u t rest hi hu] at h
    exact .inr ⟨t, rest, u, rfl, hu, by simpa using h.symm⟩

end Sys2Proof.Machine
end

