-- ==== Sys2Proof/Machine/HostSide.lean ====
section
/-! DEFINITION. Functions of the host's software, spec/45_host_side.md and spec/44_metrics.md rules R168, R173:
none of it is executed by the block and none of it is state of the block (rule R180). Results that are integers
or rationals are exact; entropy and the standard deviation, real numbers whose rounding is the host's, are
given by the property that defines them. Where the host's software raises an error it is a `FaultKind` of its
own, not the ERR latch. The call flows are in HostCalls.lean. -/

namespace Sys2Proof.Machine

/-! ## Key derivation (rules R181 to R183) -/

/-- The default length of a key (rules R7, R183). -/
def defaultKeyLength : Nat := 16

/-- The accumulator and key of `deriveKey` after index `i` (rule R181): `byte` is the passphrase byte and
`code` the passphrase character's code at this index. -/
def deriveKeyByte (acc : Word) (byte : Byte) (code i : Nat) : Word × Byte :=
  let acc := acc * 31#32 + byte.setWidth 32 + BitVec.ofNat 32 i
  let h := byte ^^^ BitVec.ofNat 8 (i * 7) ^^^ byte0 acc
  let h := if i % 3 = 0 then h ^^^ byte1 acc else h
  let h := if i % 5 = 0 then h ^^^ byte2 acc else h
  (acc, h ^^^ BitVec.ofNat 8 code)

/-- The key bytes from index `i` on, `n` of them (rule R181). -/
def deriveKeyFrom (bytes : List Byte) (codes : List Nat) (acc : Word) (i n : Nat) : List Byte :=
  match n with
  | 0 => []
  | n + 1 =>
    let r := deriveKeyByte acc (bytes.getD (i % bytes.length) 0) (codes.getD (i % codes.length) 0) i
    r.2 :: deriveKeyFrom bytes codes r.1 (i + 1) n

/-- A passphrase: its UTF-8 bytes and its code points (rule R182). -/
structure Passphrase where
  bytes : List Byte
  codes : List Nat
deriving DecidableEq, Repr

/-- An ASCII passphrase: each character is the one byte of its code (rule R182). -/
def Passphrase.ascii (characters : List Byte) : Passphrase := ⟨characters, characters.map BitVec.toNat⟩

/-- `deriveKey(passphrase, length = 16)` (rule R181). The empty passphrase raises InvalidInput. -/
def deriveKey (p : Passphrase) (length : Nat := defaultKeyLength) : Except FaultKind (List Byte) :=
  if p.codes.length = 0 then .error .invalidInput
  else .ok (deriveKeyFrom p.bytes p.codes (BitVec.ofNat 32 p.codes.length) 0 length)

/-- The key of a call: `deriveKey`, where an empty key is D0's InvalidKey (rule R183). -/
def sessionKey (p : Passphrase) (length : Nat := defaultKeyLength) : Except FaultKind (List Byte) :=
  match deriveKey p length with
  | .error f => .error f
  | .ok [] => .error .invalidKey
  | .ok (b :: rest) => .ok (b :: rest)

/-! ## The IV (rule R184) -/

/-- The default length of an IV (rules R7, R184). -/
def defaultIvLength : Nat := 16

/-- A fresh IV from the injected random-byte source, which is any function (rule R184, I9). -/
def generateIv (source : Nat → Byte) : List Byte := (List.range defaultIvLength).map source

/-- The value of one lowercase hex digit. -/
def hexDigit (c : Char) : Option (BitVec 4) :=
  if '0' ≤ c ∧ c ≤ '9' then some (BitVec.ofNat 4 (c.toNat - '0'.toNat))
  else if 'a' ≤ c ∧ c ≤ 'f' then some (BitVec.ofNat 4 (c.toNat - 'a'.toNat + 10))
  else none

/-- The lowercase hex digit of a nibble. -/
def hexChar (n : BitVec 4) : Char :=
  if n.toNat < 10 then Char.ofNat ('0'.toNat + n.toNat) else Char.ofNat ('a'.toNat + (n.toNat - 10))

/-- The bytes of a hex string, two characters a byte, high nibble first. -/
def hexBytes (cs : List Char) : Option (List Byte) :=
  match cs with
  | [] => some []
  | [_] => none
  | hi :: lo :: rest =>
    match hexDigit hi, hexDigit lo, hexBytes rest with
    | some h, some l, some bs => some ((h ++ l) :: bs)
    | _, _, _ => none

/-- The hex string of a byte sequence, as the IV is persisted and exchanged. -/
def hexString (bytes : List Byte) : List Char :=
  bytes.flatMap fun b => [hexChar (b.extractLsb' 4 4), hexChar (b.extractLsb' 0 4)]

/-! ## Metrics (rules R168, R173, R190 to R195) -/

/-- `HALL[v]` (rules R168, R190): the histogram summed over the channels. -/
def State.combinedCount (s : State) (v : Nat) : Nat :=
  (s.hr.get v).toNat + (s.hg.get v).toNat + (s.hb.get v).toNat

/-- A correlation scalar `A / (765 * N)` (rule R173); 0 where there is no pair (decision D27, rule R195). -/
def corrScalar (A N : Nat) : Rat := if N = 0 then 0 else (A : Rat) / (765 * N)

/-- `h` is the entropy (rule R190) of a buffer of `N` bytes of which `count v` have value `v`: the sum of
`p * log2 p` over the values that occur, negated. -/
def IsEntropy (count : Nat → Nat) (N : Nat) (h : Real) : Prop :=
  h = -∑ v ∈ (Finset.range 256).filter (fun v => 0 < count v),
    ((count v : Real) / N) * Real.logb 2 ((count v : Real) / N)

/-- `(changed, sad)` of two buffers (rule R192): the pixels that differ and the sum of byte differences. -/
def changedAndSad (A B : List Byte) : Nat × Nat :=
  (((List.range (A.length / channels)).filter fun p => pixelAt A p ≠ pixelAt B p).length,
   ((List.range A.length).map fun k => absDiff (A.getD k 0).toNat (B.getD k 0).toNat).sum)

/-- `npcrUaci(A, B)` (rule R192), exact; DimensionMismatch where the lengths differ. -/
def npcrUaci (A B : List Byte) : Except FaultKind (Rat × Rat) :=
  if A.length ≠ B.length then .error .dimensionMismatch
  else
    let T : Rat := (A.length / channels : Nat)
    let c := changedAndSad A B
    .ok (100 * (c.1 : Rat) / T, 100 * (c.2 : Rat) / (T * 3 * 255))

/-- `(pixelCount, mean, variance)` of `statistics` (rules R193, R195), exact, the variance clamped at 0. -/
def meanVariance (buf : List Byte) : Nat × Rat × Rat :=
  let T := buf.length / channels
  let sums := (List.range T).map fun p => pixelSum buf T p 0
  let squares : Nat := (sums.map fun x => x * x).sum
  let mean : Rat := (sums.sum : Rat) / (3 * T : Nat)
  let square : Rat := (squares : Rat) / (9 * T : Nat)
  (T, mean, max 0 (square - mean * mean))

/-- `x` is the standard deviation (rule R193): the square root of the variance. -/
def IsStdDev (variance : Rat) (x : Real) : Prop := x = Real.sqrt variance

end Sys2Proof.Machine
end

