-- ==== Sys2Proof/Machine/HostCalls.lean ====
section
/-! DEFINITION. The call flows of the host's software (spec/45_host_side.md rules R185 to R191, R194) as
assembler programs, and a run of a program (spec/70_reset_and_hazards.md rule R244). The host reads results
only from the replies. -/

namespace Sys2Proof.Machine

/-! ## Images and the checks before a call -/

/-- `(pixels, width, height)`: raw RGB bytes, row-major (rules R52, R187). -/
structure Image where
  pixels : List Byte
  width : Nat
  height : Nat
deriving DecidableEq, Repr

/-- What the host checks of one image (rule R187): the dimension product, and that the buffer is not empty. -/
def validateImage (img : Image) : Except FaultKind Unit :=
  if img.pixels.length ≠ img.width * img.height * channels then .error .invalidInput
  else if img.pixels.length = 0 then .error .invalidInput
  else .ok ()

/-- What the host checks of a pair of images (rules R187, R194): the same width and height. -/
def validatePair (a b : Image) : Except FaultKind Unit :=
  if a.width = b.width ∧ a.height = b.height then .ok () else .error .dimensionMismatch

/-- What the host checks of a cipher call before it looks at the tag (rule R187): the passphrase is not
empty, and the image. -/
def validateCipher (p : Passphrase) (img : Image) : Except FaultKind Unit :=
  if p.codes.length = 0 then .error .invalidInput else validateImage img

/-! ## The algorithm tag (rules R79, R185, R186) -/

/-- D0's `algorithmTag`; its stored form is not given (rule R79). -/
inductive AlgorithmTag where
  | stream
  | permutation
deriving DecidableEq, Repr

/-- CipherMetadata (rule R185). The unit and epoch of the timestamp are not given. -/
structure CipherMetadata where
  algorithmTag : AlgorithmTag
  ivHex : List Char
  timestamp : Int
deriving DecidableEq, Repr

/-- The commands that encrypt under a tag (rule R79). -/
def encryptLine (tag : AlgorithmTag) : Line :=
  match tag with
  | .stream => .senc
  | .permutation => .benc

/-- The commands that decrypt under a tag (rule R79). -/
def decryptLine (tag : AlgorithmTag) : Line :=
  match tag with
  | .stream => .sdec
  | .permutation => .bdec

/-- Dispatch on the stored tag at decryption (rule R186): an unknown tag, here none, is the host's
UnsupportedAlgorithm. -/
def dispatchTag (stored : Option AlgorithmTag) : Except FaultKind AlgorithmTag :=
  match stored with
  | some tag => .ok tag
  | none => .error .unsupportedAlgorithm

/-! ## Cipher calls (rules R188, R189) -/

/-- The default iteration count (rules R7, R189). -/
def defaultIterations : Nat := 10

/-- The host reads `n` bytes of MEM from `a`. -/
def readBackLines (a n : Nat) : List Line := (List.range n).map fun i => .mr (a + i)

/-- The stream cipher's program (rule R188): the pixels to MEM at SRC, the operands, the commands of
`last`, and the result read back from DST. `iterations` is not used by the stream cipher. A length of `2^32` or
more is written modulo `2^32`, with no error of the host's (DESIGN CHOICE, notes/assumptions/18.md). -/
def streamProgram (img : Image) (key iv : List Byte) (src dst : Word) (last : Line) : List Line :=
  [.load src.toNat img.pixels, .key key, .iv iv, .wr .src src, .wr .dst dst,
    .wr .len (BitVec.ofNat 32 (channels * img.width * img.height)), last] ++
    readBackLines dst.toNat img.pixels.length

/-- The permutation cipher's program (rule R189). It writes no IV. A width, height or iteration count that its
register cannot hold is written all the same, and the register keeps the low bits (DESIGN CHOICE,
notes/assumptions/18.md). -/
def permutationProgram (img : Image) (key : List Byte) (iterations : Nat) (src dst : Word)
    (last : Line) : List Line :=
  [.load src.toNat img.pixels, .key key, .wr .width (BitVec.ofNat 32 img.width),
    .wr .height (BitVec.ofNat 32 img.height), .wr .iters (BitVec.ofNat 32 iterations), .wr .src src,
    .wr .dst dst, last] ++ readBackLines dst.toNat img.pixels.length

/-- The program of a tag's cipher that runs the commands of `last`. -/
def cipherProgram (tag : AlgorithmTag) (img : Image) (key iv : List Byte) (iterations : Nat)
    (src dst : Word) (last : Line) : List Line :=
  match tag with
  | .stream => streamProgram img key iv src dst last
  | .permutation => permutationProgram img key iterations src dst last

/-- An encrypt call (rules R187 to R189): the checks, the key of the passphrase, the explicit IV or else a
fresh one, the program, and the metadata of the result. The IV of a permutation call is stored but not loaded
(rule R185). -/
def encryptCall (tag : AlgorithmTag) (img : Image) (p : Passphrase) (explicitIv : Option (List Byte))
    (source : Nat → Byte) (timestamp : Int) (src dst : Word) (iterations : Nat := defaultIterations) :
    Except FaultKind (List Line × CipherMetadata) :=
  match validateCipher p img, sessionKey p with
  | .error f, _ => .error f
  | .ok _, .error f => .error f
  | .ok _, .ok key =>
    let iv := explicitIv.getD (generateIv source)
    .ok (cipherProgram tag img key iv iterations src dst (encryptLine tag), ⟨tag, hexString iv, timestamp⟩)

/-- A decrypt call (rules R187 to R189): the same settings, the IV from its hex string. A string that is no
hex is InvalidInput (DESIGN CHOICE, notes/assumptions/16.md). -/
def decryptCall (stored : Option AlgorithmTag) (img : Image) (p : Passphrase) (ivHex : List Char)
    (src dst : Word) (iterations : Nat := defaultIterations) : Except FaultKind (List Line) :=
  match validateCipher p img, dispatchTag stored, sessionKey p, hexBytes ivHex with
  | .error f, _, _, _ => .error f
  | .ok _, .error f, _, _ => .error f
  | .ok _, .ok _, .error f, _ => .error f
  | .ok _, .ok _, .ok _, none => .error .invalidInput
  | .ok _, .ok tag, .ok key, some iv =>
    .ok (cipherProgram tag img key iv iterations src dst (decryptLine tag))

/-- The bytes among the replies, in order: what the `mr` lines answered. -/
def repliedBytes (replies : List Reply) : List Byte :=
  replies.filterMap fun r =>
    match r with
    | .byte b => some b
    | .word _ => none
    | .nothing => none

/-- The words among the replies, in order: what the `rd` lines answered. -/
def repliedWords (replies : List Reply) : List Word :=
  replies.filterMap fun r =>
    match r with
    | .word v => some v
    | .byte _ => none
    | .nothing => none

/-- The image a cipher call answers (rules R188, R189): the bytes read back, width and height unchanged. -/
def Image.afterCall (img : Image) (replies : List Reply) : Image :=
  { img with pixels := repliedBytes replies }

/-! ## Analysis calls (rules R191, R194) -/

/-- The registers an analysis reads: the 768 counters, then the six halves of the sums, then the counts. -/
def analysisRegisters : List Reg :=
  (List.range Config.nBucket).map Reg.hr ++ (List.range Config.nBucket).map Reg.hg ++
    (List.range Config.nBucket).map Reg.hb ++
    [.ahLo, .ahHi, .avLo, .avHi, .adLo, .adHi, .nh, .nv, .nd]

/-- The program of a single-image analysis (rule R191): the image to MEM, the operands, HIST and CORR, and
the counters and accumulators read back. A length, width or height that its register cannot hold is written
all the same, and the register keeps the low bits (DESIGN CHOICE, notes/assumptions/18.md). -/
def analysisProgram (img : Image) (src : Word) : List Line :=
  [.load src.toNat img.pixels, .wr .src src,
    .wr .len (BitVec.ofNat 32 (channels * img.width * img.height)),
    .wr .width (BitVec.ofNat 32 img.width), .wr .height (BitVec.ofNat 32 img.height),
    .command .hist, .command .corr] ++ analysisRegisters.map Line.rd

/-- The program of a single-image analysis call, after the host's checks. -/
def analysisCall (img : Image) (src : Word) : Except FaultKind (List Line) :=
  match validateImage img with
  | .error f => .error f
  | .ok _ => .ok (analysisProgram img src)

/-- The programs of a paired analysis call (`compareImages`, rules R191, R194), one image after the other. The
spec fixes no order among the host's errors here. DESIGN CHOICE: DimensionMismatch comes before either image's
InvalidInput, and the first image's error before the second's (notes/assumptions/17.md). -/
def comparisonCall (a b : Image) (src : Word) : Except FaultKind (List Line × List Line) :=
  match validatePair a b, analysisCall a src, analysisCall b src with
  | .error f, _, _ => .error f
  | .ok _, .error f, _ => .error f
  | .ok _, .ok _, .error f => .error f
  | .ok _, .ok p, .ok q => .ok (p, q)

/-- The exact part of an AnalysisReport of one image (rule R194). Its entropy is the number with
`AnalysisReport.HasEntropy` and its standard deviation the one with `AnalysisReport.HasStdDev`. -/
structure AnalysisReport where
  histogramR : List Nat
  histogramG : List Nat
  histogramB : List Nat
  horizontal : Rat
  vertical : Rat
  diagonal : Rat
  pixelCount : Nat
  mean : Rat
  variance : Rat
deriving DecidableEq, Repr

/-- The report of an image from the replies to its analysis program (rules R173, R191, R193, R194). -/
def analysisReport (img : Image) (replies : List Reply) : AnalysisReport :=
  let w := (repliedWords replies).map BitVec.toNat
  let word := fun k => w.getD (3 * Config.nBucket + k) 0
  let sum := fun k => word (2 * k) + 2 ^ 32 * word (2 * k + 1)
  let stats := meanVariance img.pixels
  { histogramR := w.take Config.nBucket
    histogramG := (w.drop Config.nBucket).take Config.nBucket
    histogramB := (w.drop (2 * Config.nBucket)).take Config.nBucket
    horizontal := corrScalar (sum 0) (word 6)
    vertical := corrScalar (sum 1) (word 7)
    diagonal := corrScalar (sum 2) (word 8)
    pixelCount := stats.1
    mean := stats.2.1
    variance := stats.2.2 }

/-- `HALL[v]` of a report (rules R168, R190). -/
def AnalysisReport.combined (r : AnalysisReport) (v : Nat) : Nat :=
  r.histogramR.getD v 0 + r.histogramG.getD v 0 + r.histogramB.getD v 0

/-- `h` is the entropy of the report's image (rule R190), which has three bytes a pixel. -/
def AnalysisReport.HasEntropy (r : AnalysisReport) (h : Real) : Prop :=
  IsEntropy r.combined (channels * r.pixelCount) h

/-- `x` is the standard deviation of the report's image (rule R193). -/
def AnalysisReport.HasStdDev (r : AnalysisReport) (x : Real) : Prop := IsStdDev r.variance x

/-- The report of a pair (rule R194): each image's report, and NPCR and UACI between them. -/
def comparisonReport (a b : Image) (repliesA repliesB : List Reply) :
    Except FaultKind (AnalysisReport × AnalysisReport × Rat × Rat) :=
  match validatePair a b, npcrUaci a.pixels b.pixels with
  | .error f, _ => .error f
  | .ok _, .error f => .error f
  | .ok _, .ok m => .ok (analysisReport a repliesA, analysisReport b repliesB, m)

/-! ## Runs (rule R244) -/

/-- The state after `n` steps. -/
def runSteps (n : Nat) (s : State) : State :=
  match n with
  | 0 => s
  | n + 1 =>
    match step s with
    | .next t => runSteps n t
    | .fault _ => s
    | .refused _ => s

/-- The state after a program whose transactions are all the host makes; the replies are its own. -/
def State.runProgram (s : State) (p : List Line) : State :=
  runSteps (expandProgram p).length { s with inbox := expandProgram p, replies := [] }

end Sys2Proof.Machine
end

