-- ==== Sys2Proof/Laws/HostSide.lean ====
section
/-! SUPPORT. The host's key and IV forms, and that a run never stops. -/

namespace Sys2Proof.Machine

/-! ## Keys -/

theorem deriveKeyFrom_length (bytes : List Byte) (codes : List Nat) (acc : Word) (i n : Nat) :
    (deriveKeyFrom bytes codes acc i n).length = n := by
  induction n generalizing acc i with
  | zero => rfl
  | succ n ih => simp [deriveKeyFrom, ih]

/-- Every derived key has the length asked for (rule R183). -/
theorem deriveKey_length (p : Passphrase) (n : Nat) (key : List Byte) (h : deriveKey p n = .ok key) :
    key.length = n := by
  unfold deriveKey at h
  split at h
  · cases h
  · cases h
    exact deriveKeyFrom_length _ _ _ _ _

/-- The key of a passphrase that is not empty is never empty (rule R183). -/
theorem sessionKey_of_pos (p : Passphrase) (n : Nat) (hp : p.codes.length ≠ 0) (hn : 1 ≤ n) :
    ∃ key, sessionKey p n = .ok key ∧ key.length = n := by
  have hk : deriveKey p n = .ok (deriveKeyFrom p.bytes p.codes (BitVec.ofNat 32 p.codes.length) 0 n) := by
    simp [deriveKey, hp]
  have hl := deriveKey_length p n _ hk
  unfold sessionKey
  rw [hk]
  split
  · rename_i f he
    cases he
  · rename_i he
    injection he with he
    rw [he] at hl
    simp at hl
    omega
  · rename_i b rest he
    injection he with he
    exact ⟨_, rfl, he ▸ hl⟩

/-! ## Hex strings -/

theorem hexDigit_hexChar (n : BitVec 4) : hexDigit (hexChar n) = some n := by
  revert n; decide

theorem nibbles_of_byte (b : Byte) : (b.extractLsb' 4 4 ++ b.extractLsb' 0 4 : BitVec (4 + 4)) = b := by
  revert b; decide

/-- Reading back the hex string of an IV gives the IV (rule R184). -/
theorem hexBytes_hexString (bytes : List Byte) : hexBytes (hexString bytes) = some bytes := by
  induction bytes with
  | nil => rfl
  | cons b rest ih =>
    have h : hexString (b :: rest) =
        hexChar (b.extractLsb' 4 4) :: hexChar (b.extractLsb' 0 4) :: hexString rest := rfl
    rw [h, hexBytes, hexDigit_hexChar, hexDigit_hexChar, ih]
    exact congrArg (fun c => some (c :: rest)) (nibbles_of_byte b)

/-! ## Runs -/

theorem step_next (s : State) : ∃ t, step s = .next t := by
  cases h : s.inbox with
  | nil => exact ⟨s, step_idle s h⟩
  | cons t rest =>
    obtain ⟨u, hu⟩ := serve_next t (s.withInbox rest)
    exact ⟨_, step_serve s u t rest h hu⟩

/-- One more step of a run. -/
theorem runSteps_succ (n : Nat) (s t : State) (h : step s = .next t) : runSteps (n + 1) s = runSteps n t := by
  simp [runSteps, h]

end Sys2Proof.Machine
end

