-- ==== Sys2Proof/Laws/PerInstr.lean ====
section
/-! SUPPORT. Statements about every command as syntax, one lemma per constructor. -/

namespace Sys2Proof.Laws

/-- The command's word is legal (rules R71, R72), decodes to the command (rule R73) and lies in the low byte
of the word. -/
def RoundTrip.Statement (i : Instr) : Prop :=
  legalCommandWord (encode i) = true ∧ decode (encode i) = .ok i ∧ (encode i).toNat < 2 ^ 8

theorem RoundTrip.kseed : RoundTrip.Statement .kseed := ⟨by decide, rfl, by decide⟩
theorem RoundTrip.kchunk : RoundTrip.Statement .kchunk := ⟨by decide, rfl, by decide⟩
theorem RoundTrip.ksgen : RoundTrip.Statement .ksgen := ⟨by decide, rfl, by decide⟩
theorem RoundTrip.sxf : RoundTrip.Statement .sxf := ⟨by decide, rfl, by decide⟩
theorem RoundTrip.cseed : RoundTrip.Statement .cseed := ⟨by decide, rfl, by decide⟩
theorem RoundTrip.lgen : RoundTrip.Statement .lgen := ⟨by decide, rfl, by decide⟩
theorem RoundTrip.pinit : RoundTrip.Statement .pinit := ⟨by decide, rfl, by decide⟩
theorem RoundTrip.shuf : RoundTrip.Statement .shuf := ⟨by decide, rfl, by decide⟩
theorem RoundTrip.prev : RoundTrip.Statement .prev := ⟨by decide, rfl, by decide⟩
theorem RoundTrip.pbuild : RoundTrip.Statement .pbuild := ⟨by decide, rfl, by decide⟩
theorem RoundTrip.pinv : RoundTrip.Statement .pinv := ⟨by decide, rfl, by decide⟩
theorem RoundTrip.bremap : RoundTrip.Statement .bremap := ⟨by decide, rfl, by decide⟩
theorem RoundTrip.hist : RoundTrip.Statement .hist := ⟨by decide, rfl, by decide⟩
theorem RoundTrip.corr : RoundTrip.Statement .corr := ⟨by decide, rfl, by decide⟩

end Sys2Proof.Laws
end

