-- ==== Sys2Proof/Tests/Slice0.lean ====
section
/-! SUPPORT. Small tests. Expected values are those of spec/95_test_vectors.md or of the rule named in the
comment; the decode words are written bit by bit from spec/30_encoding.md rules R70, R73. The last part shows
for each statement with hypotheses that a concrete state meets them. -/

namespace Sys2Proof.Tests

open Sys2Proof.Machine

-- one kernel evaluation at a time, so that the tests need few threads
set_option Elab.async false

/-! ## Decoding: bits 31:8 are RSV = 0, bits 7:0 are OPC -/

theorem test_decode_kseed : decode 0b00000000000000000000000000000001#32 = .ok .kseed := by decide
theorem test_decode_kchunk : decode 0b00000000000000000000000000000010#32 = .ok .kchunk := by decide
theorem test_decode_ksgen : decode 0b00000000000000000000000000000011#32 = .ok .ksgen := by decide
theorem test_decode_sxf : decode 0b00000000000000000000000000000100#32 = .ok .sxf := by decide
theorem test_decode_cseed : decode 0b00000000000000000000000000010000#32 = .ok .cseed := by decide
theorem test_decode_lgen : decode 0b00000000000000000000000000010001#32 = .ok .lgen := by decide
theorem test_decode_pinit : decode 0b00000000000000000000000000010010#32 = .ok .pinit := by decide
theorem test_decode_shuf : decode 0b00000000000000000000000000010011#32 = .ok .shuf := by decide
theorem test_decode_prev : decode 0b00000000000000000000000000010100#32 = .ok .prev := by decide
theorem test_decode_pbuild : decode 0b00000000000000000000000000010101#32 = .ok .pbuild := by decide
theorem test_decode_pinv : decode 0b00000000000000000000000000010110#32 = .ok .pinv := by decide
theorem test_decode_bremap : decode 0b00000000000000000000000000010111#32 = .ok .bremap := by decide
theorem test_decode_hist : decode 0b00000000000000000000000000100000#32 = .ok .hist := by decide
theorem test_decode_corr : decode 0b00000000000000000000000000100001#32 = .ok .corr := by decide

/-- R74: opcode 0, the gaps of the opcode map, and a legal opcode with a reserved bit set. -/
theorem test_decode_illegal :
    decode 0x00#32 = .error .unassignedOpcode ∧ decode 0x05#32 = .error .unassignedOpcode ∧
      decode 0x18#32 = .error .unassignedOpcode ∧ decode 0x22#32 = .error .unassignedOpcode ∧
      decode 0x104#32 = .error .reservedBitsSet ∧ decode 0x80000001#32 = .error .reservedBitsSet := by
  decide

theorem test_table_word : decodeTableWord 32 0x17 = some .bremap ∧ decodeTableWord 8 0x17 = some .bremap ∧
    decodeTableWord 32 0x05 = none ∧ decodeTableWord 40 0x100000001 = none := by decide

/-! ## Well-formedness: one ill-formed term for each check -/

theorem test_wf_reserved_bits : rsvIsZero 0x104#32 = false ∧ legalCommandWord 0x104#32 = false := by decide
theorem test_wf_opcode : opcIsAssigned 0x05#32 = false ∧ legalCommandWord 0x05#32 = false := by decide
theorem test_wf_word : legalCommandWord 0x21#32 = true := by decide

/-- R21: KEY[16], IV[16], HR[256], HG[256], HB[256] and PERM[NBLK_MAX] do not exist. -/
theorem test_wf_register :
    Reg.wellFormed 8 (.key 16) = false ∧ Reg.wellFormed 8 (.iv 16) = false ∧
      Reg.wellFormed 8 (.hr 256) = false ∧ Reg.wellFormed 8 (.hg 256) = false ∧
      Reg.wellFormed 8 (.hb 256) = false ∧ Reg.wellFormed 8 (.perm 8) = false ∧
      Reg.wellFormed (2 ^ 33) (.perm (2 ^ 32)) = false := by decide

/-- R78: a key line takes 1 to 16 bytes, an IV line at most 16, and a register line names a register. -/
theorem test_wf_line :
    Line.wellFormed 8 (.key []) = false ∧ Line.wellFormed 8 (.key (List.replicate 17 0)) = false ∧
      Line.wellFormed 8 (.iv (List.replicate 17 0)) = false ∧ Line.wellFormed 8 (.wr (.key 16) 0) = false ∧
      Line.wellFormed 8 (.rd (.hr 256)) = false ∧ Line.wellFormed 8 (.iv []) = true := by decide

/-! ## States for the tests -/

/-- A register file of 16 bytes from its first bytes. -/
def bytes16 (l : List Byte) : RegFile 8 16 := ⟨l.takeD 16 0, List.takeD_length 16 l 0⟩

/-- `TK` of 95_test_vectors.md. -/
def testKey : RegFile 8 16 :=
  bytes16 [0xf0, 0x71, 0xb1, 0x2b, 0xfc, 0xf6, 0x87, 0x1d, 0xe8, 0xd9, 0x94, 0x8d, 0xab, 0xe9, 0x6d, 0xde]

/-- A reset state with 1024 bytes of MEM, of which those from `a` on are written. -/
def small (a : Nat) (mem : List Byte) : State :=
  { State.resetOf 1024 64 with mem := mem.zipIdx.map fun c => (a + c.2, c.1) }

/-- The state an outcome answers. -/
def nextOf (o : Host.Outcome State Fault Refusal) : State :=
  match o with
  | .next t => t
  | .fault _ => State.reset
  | .refused _ => State.reset

/-- The 18 bytes of section 2.6. -/
def sixPixels : List Byte :=
  [0x0a, 0x14, 0x1e, 0x28, 0x32, 0x3c, 0x0a, 0x14, 0x1e, 0, 0, 0, 0xff, 0xff, 0xff, 0x0a, 0, 0x1e]

/-! ## One step each (sections 2.2 to 2.6) -/

theorem test_kseed_short_key :
    let s := { small 0 [] with key := bytes16 [0xaa, 0xbb, 0xcc], keylen := 3, iv := bytes16 [0x01], ivlen := 1 }
    (nextOf (exec .kseed s)).prng = ⟨0xB88F9A78#32, 0x9ABCDEF0#32, 0x12579BDF#32, 0x2468ACE0#32⟩ := by decide

theorem test_kchunk_first :
    let s := (small 0 []).withPrng ⟨0x12345678#32, 0x9ABCDEF0#32, 0x13579BDF#32, 0x2468ACE0#32⟩
    let t := nextOf (exec .kchunk s)
    t.prng = ⟨0x423AE815#32, 0x1C559058#32, 0x55FD9F2A#32, 0x61ABEF38#32⟩ ∧
      t.kout0 = 0xCA69E78B#32 ∧ t.kout1 = 0x0EA75E3C#32 := by decide +kernel

/-- LEN = 9: the second chunk is truncated to its first byte. -/
theorem test_ksgen_nine_bytes :
    let t := nextOf (exec .ksgen { small 0 [] with len := 9, dst := 1015 })
    t.readBuf 1015 9 = [0xca, 0x69, 0xe7, 0x8b, 0x0e, 0xa7, 0x5e, 0x3c, 0x1d] ∧ t.mem.length = 9 ∧
      t.prng = ⟨0xDBC346E2#32, 0xF10B6AEC#32, 0xC5047396#32, 0x10F3EFA6#32⟩ := by decide +kernel

/-- N1: an empty keystream does not check DST. -/
theorem test_ksgen_empty :
    let t := nextOf (exec .ksgen { small 0 [] with dst := 0xFFFFFFFF })
    t.status = 1 ∧ t.s0 = 0x12345678#32 ∧ t.mem = [] := by decide +kernel

theorem test_sxf_hello :
    let s := { small 0x100 [0x48, 0x45, 0x4c, 0x4c, 0x4f, 0x2c, 0x20, 0x57, 0x4f, 0x52, 0x4c, 0x44] with
      key := testKey, src := 0x100, dst := 0x100, len := 12 }
    (nextOf (exec .sxf s)).readBuf 0x100 12 =
      [0x25, 0x9e, 0x49, 0xe8, 0x25, 0x56, 0xe8, 0x14, 0x29, 0xc6, 0x4c, 0x71] := by decide +kernel

/-- F5, F9: the empty key is reported before the zero length, and a partial overlap faults. -/
theorem test_sxf_faults :
    (nextOf (exec .sxf { small 0 [] with keylen := 0 })).errcode = 4 ∧
      (nextOf (exec .sxf { small 0 [] with len := 4, src := 0x100, dst := 0x102 })).errcode = 1 := by
  decide +kernel

theorem test_cseed_one_byte :
    let s := { small 0 [] with key := bytes16 [1], keylen := 1, iv := bytes16 [1], ivlen := 1 }
    (nextOf (exec .cseed s)).seed = 0x5E67A58E#32 := by decide +kernel

/-- The product is `0x80000000`, whose absolute value is `2^31`. -/
theorem test_lgen_corner : (nextOf (exec .lgen { small 0 [] with arg := 0xD2388FE5 })).res = 0x80000000#32 := by
  decide +kernel

/-- A negative product. -/
theorem test_lgen_zero : (nextOf (exec .lgen (small 0 []))).res = 0x32771C97#32 := by decide +kernel

theorem test_pinit_four :
    let t := nextOf (exec .pinit { small 0 [] with arg := 4 })
    t.nblk = 4 ∧ t.perm = [0, 1, 2, 3] := by decide +kernel

/-- One above `NBLK_MAX`. -/
theorem test_pinit_too_many : (nextOf (exec .pinit { small 0 [] with arg := 65 })).errcode = 1 := by decide +kernel

/-- n = 8, with the extra swap at position 7. -/
theorem test_shuf_eight :
    let s := { small 0 [] with key := testKey, ivlen := 4, nblk := 8, perm := [0, 1, 2, 3, 4, 5, 6, 7] }
    (nextOf (exec .shuf s)).perm = [2, 6, 1, 3, 0, 5, 4, 7] := by decide +kernel

/-- SHUF acts on the current array. -/
theorem test_shuf_current :
    let s := { small 0 [] with key := testKey, ivlen := 4, nblk := 4, perm := [3, 2, 1, 0] }
    (nextOf (exec .shuf s)).perm = [1, 2, 0, 3] := by decide +kernel

theorem test_prev_four :
    (nextOf (exec .prev { small 0 [] with nblk := 4, perm := [2, 1, 3, 0] })).perm = [0, 3, 1, 2] := by
  decide +kernel

/-- 16 × 16 with ITERS = 4: iterations 0 and 3 reverse and reshuffle. -/
theorem test_pbuild_four_iterations :
    let s := { small 0 [] with key := testKey, width := 16, height := 16, iters := 4 }
    (nextOf (exec .pbuild s)).perm = [0, 2, 1, 3] := by decide +kernel

/-- 7 × 7 has no whole block; IVLEN = 17 is not read. -/
theorem test_pbuild_no_block :
    let t := nextOf (exec .pbuild { small 0 [] with width := 7, height := 7, ivlen := 17 })
    t.status = 1 ∧ t.nblk = 0 ∧ t.perm = [] := by decide +kernel

theorem test_pinv_three :
    (nextOf (exec .pinv { small 0 [] with nblk := 3, perm := [1, 2, 0] })).perm = [2, 0, 1] := by
  decide +kernel

/-- Section 2.5 (a): block 0 goes to block 1, so the first source pixel `03 0a 11` lands on bytes 24..26. -/
theorem test_bremap_first_pixel :
    (wholeMoves 16 8 [1, 0]).take 2 = [(0, 8), (1, 9)] ∧
      ((moveMixed [0x03, 0x0a, 0x11] testKey.cells (List.replicate 27 0) (0, 8)).drop 24) =
        [0xb3, 0xba, 0xb6] := by decide +kernel

/-- Section 2.5 (d): an image of trailing pixels only, KEYLEN = 1. -/
theorem test_bremap_tail :
    let s := { small 0 ((List.range 45).map fun i => BitVec.ofNat 8 i) with
      key := bytes16 [0xa5], keylen := 1, width := 5, height := 3, dst := 100 }
    (nextOf (exec .bremap s)).readBuf 100 12 =
      [0xa5, 0xa4, 0xa7, 0xf0, 0x7b, 0xec, 0x0f, 0x16, 0x34, 0xae, 0x20, 0x48] := by decide +kernel

theorem test_hist_six_pixels :
    let t := nextOf (exec .hist { small 0x100 sixPixels with src := 0x100, len := 18 })
    t.hr.get 10 = 3 ∧ t.hg.get 0 = 2 ∧ t.hb.get 255 = 1 ∧ t.hb.get 10 = 0 := by decide +kernel

theorem test_corr_three_by_two :
    let t := nextOf (exec .corr { small 0x100 sixPixels with src := 0x100, width := 3, height := 2 })
    (t.ahLo, t.nh, t.avLo, t.nv, t.adLo, t.nd) = (1670, 4, 695, 3, 815, 2) ∧ t.ahHi = 0 := by
  decide +kernel

/-! ## Transactions -/

/-- P5: an illegal word faults, the next CMD write is refused, and a soft reset clears the latch. -/
theorem test_fault_refusal_reset :
    let t1 := nextOf (step (Spec.offer (small 0 []) (.regWrite 0 5)))
    let t2 := nextOf (step (Spec.offer t1 (.regWrite 0 1)))
    let t3 := nextOf (step (Spec.offer t2 (.regWrite 3 1)))
    (t1.status, t1.errcode, t1.cmd) = (2, 2, 5) ∧ (t2.status, t2.cmd, t2.s0) = (2, 5, 0) ∧
      (t3.status, t3.errcode, t3.cmd, t3.iters) = (0, 0, 0, 10) := by decide +kernel

/-- Decision D45: the low 16 bits are stored, and the read zero-extends. -/
theorem test_width_write_read :
    let t := nextOf (step (Spec.offer (small 0 []) (.regWrite 0x13 0xABCD1234)))
    t.regRead 0x13 = 0x1234 ∧ t.regRead 0x14 = 0 := by decide +kernel

/-- R21: SRC is 0x10 and DST 0x11, RES 0x19 and SEED 0x1A, NV 0x37 and ND 0x38. -/
theorem test_register_indices :
    (nextOf (step (Spec.offer (small 0 []) (.regWrite 0x10 5)))).src = 5 ∧
      (nextOf (step (Spec.offer (small 0 []) (.regWrite 0x11 6)))).dst = 6 ∧
      ({ small 0 [] with res := 1, seed := 2 } : State).regRead 0x19 = 1 ∧
      ({ small 0 [] with nv := 3, nd := 4 } : State).regRead 0x37 = 3 := by decide +kernel

theorem test_mem_edge :
    let t := nextOf (step (Spec.offer (small 0 []) (.memWrite 1023 7)))
    t.memRead 1023 = 7 ∧ t.memRead 1024 = 0 ∧ (t.memWrite 1024 9).mem = t.mem := by decide +kernel

/-- From reset, the first command is the one that is placed. -/
theorem test_first_command :
    (nextOf (step (State.reset.withFetchWord 32 0x10))).seed = 0xC10EDA53#32 := by decide +kernel

/-- P1, line 1 and 7: the assembler's transactions. -/
theorem test_assembler :
    expandLine (.key [0xf0, 0x71]) = [.regWrite 0x40 0xf0, .regWrite 0x41 0x71, .regWrite 0x16 2] ∧
      expandLine .bdec = [.regWrite 0 0x15, .regWrite 0 0x16, .regWrite 0 0x17] ∧
      expandLine (.load 0x100 [1, 2]) = [.memWrite 0x100 1, .memWrite 0x101 2] := by decide +kernel

/-! ## Host side (section 2.8) -/

theorem test_derive_key :
    deriveKey (.ascii [0x74, 0x65, 0x73, 0x74]) = .ok testKey.cells := by decide +kernel

/-- Two lowercase characters a byte, high nibble first; an odd length and a capital are refused. -/
theorem test_hex_bytes :
    hexBytes ['f', '0', '7', '1'] = some [0xf0, 0x71] ∧ hexBytes ['f'] = none ∧ hexBytes ['F', '0'] = none := by
  decide

/-- The IV's persisted form. -/
theorem test_hex_string : hexString [0xf0, 0x0a] = ['f', '0', '0', 'a'] := by decide

/-- R183: an empty passphrase, and a key of length 0. -/
theorem test_session_key_errors :
    sessionKey (.ascii []) = .error .invalidInput ∧ sessionKey (.ascii [0x74]) 0 = .error .invalidKey := by
  decide

/-- R79, R186. -/
theorem test_tag_lines :
    encryptLine .stream = .senc ∧ decryptLine .stream = .sdec ∧ encryptLine .permutation = .benc ∧
      decryptLine .permutation = .bdec ∧ dispatchTag none = .error .unsupportedAlgorithm := by decide

/-- R188: the passphrase "test" and a fresh IV of zeros, one pixel, from 0 to 8. -/
theorem test_encrypt_stream :
    encryptCall .stream ⟨[1, 2, 3], 1, 1⟩ (.ascii [0x74, 0x65, 0x73, 0x74]) none (fun _ => 0) 7 0 8 =
      .ok ([.load 0 [1, 2, 3], .key testKey.cells, .iv (List.replicate 16 0), .wr .src 0, .wr .dst 8, .wr .len 3,
        .senc, .mr 8, .mr 9, .mr 10], ⟨.stream, List.replicate 32 '0', 7⟩) := by decide +kernel

/-- R189: the iteration count is 10 where none is given. -/
theorem test_decrypt_permutation :
    decryptCall (some .permutation) ⟨[1, 2, 3], 1, 1⟩ (.ascii [0x74, 0x65, 0x73, 0x74]) [] 0 8 =
      .ok [.load 0 [1, 2, 3], .key testKey.cells, .wr .width 1, .wr .height 1, .wr .iters 10, .wr .src 0,
        .wr .dst 8, .bdec, .mr 8, .mr 9, .mr 10] := by decide +kernel

/-- R191: HIST and CORR after the operands, and then 777 reads. -/
theorem test_analysis :
    (analysisProgram ⟨[1, 2, 3], 1, 1⟩ 0).take 8 =
        [.load 0 [1, 2, 3], .wr .src 0, .wr .len 3, .wr .width 1, .wr .height 1, .command .hist, .command .corr,
          .rd (.hr 0)] ∧
      (analysisProgram ⟨[1, 2, 3], 1, 1⟩ 0).length = 784 := by decide +kernel

theorem test_changed_pixels :
    changedAndSad sixPixels (((sixPixels.set 3 0x29).set 12 0).set 13 0 |>.set 14 0) = (2, 766) := by
  decide +kernel

/-! ## The hypotheses of the statements can be met -/

/-- A state whose commands all execute normally: a 3 × 3 image at 3, a destination that it touches but does
not overlap, and a permutation of no blocks. -/
def ready : State :=
  { small 3 (List.replicate 27 0x5a) with src := 3, dst := 30, len := 27, width := 3, height := 3, arg := 64 }

/-- A state with a permutation of two blocks whose image ends at the end of MEM. -/
def readyBlocks : State :=
  { small 640 (List.replicate 384 0x5a) with
    src := 640, dst := 256, width := 16, height := 8, nblk := 2, perm := [1, 0] }

/-- A state that has faulted. -/
def faulted : State := { small 0 [] with cmd := 5, status := 2, errcode := 2 }

theorem witness_OnlyMatchValuesDecode :
    (decode 0x21#32 = .ok .corr ∧ encode .corr = 0x21#32) ∧
      decode 0x22#32 = .error .unassignedOpcode ∧ (0x22#32).toNat ∉ Spec.matchValues := by decide

theorem witness_AssemblerIndexNamesRegister :
    Reg.wellFormed 1 (.perm 0) = true ∧ Reg.wellFormed 1 (.perm 1) = false ∧
      Reg.wellFormed 1 (.key 15) = true := by decide

theorem witness_StepRunsDecodedCommand : ready.errFlag = false ∧ decode 0x04#32 = .ok .sxf := by decide

/-- A faulted state, with an ordinary transaction, a CTRL write without SRST, and one with it. -/
theorem witness_CmdWriteRefusedWhileErr :
    faulted.errFlag = true ∧
      (∀ i v, Transaction.regWrite 0x10#32 7#32 = .regWrite i v → i ≠ 0#32 ∧ (i = 3#32 → v.getLsbD 0 = false)) ∧
      (∀ i v, Transaction.regWrite 3#32 2#32 = .regWrite i v → i ≠ 0#32 ∧ (i = 3#32 → v.getLsbD 0 = false)) ∧
      Transaction.regWrite 3#32 2#32 ≠ .externalReset ∧ Transaction.regWrite 3#32 2#32 ≠ .regRead 1#32 ∧
      (3#32).getLsbD 0 = true := by
  refine ⟨by decide, fun i v h => ?_, fun i v h => ?_, by decide, by decide, by decide⟩ <;>
    (injection h with h1 h2; subst h1; subst h2; decide)

theorem witness_IllegalWordFaults :
    ready.errFlag = false ∧ (0x100#32).toNat / 2 ^ 8 ≠ 0 ∧ (0x22#32).toNat % 2 ^ 8 ∉ Spec.matchValues := by
  decide

theorem witness_FaultEntryChangesStatusOnly :
    ∃ t, (small 0 []).errFlag = false ∧ step (Spec.offer (small 0 []) (.regWrite 0#32 0x20#32)) = .next t ∧
      t.errFlag = true :=
  ⟨_, by decide, rfl, by decide +kernel⟩

theorem witness_StepsKeepSizes :
    ∃ t, step (Spec.offer ready (.regWrite 3#32 1#32)) = .next t ∧ t.memBytes = 1024 := ⟨_, rfl, rfl⟩

theorem witness_StepWithoutTransactionIdles : State.reset.inbox = [] := by decide

/-- The first unmapped index, one in a gap, and the first beyond PERM. -/
theorem witness_UnmappedIndexReadsZero :
    ¬Spec.mapped (small 0 []).nblkMax (0x04#32).toNat ∧ ¬Spec.mapped (small 0 []).nblkMax (0x60#32).toNat ∧
      ¬Spec.mapped (small 0 []).nblkMax (0x10040#32).toNat := by
  simp only [Spec.mapped]; decide

theorem witness_ReadOnlyWritesIgnored :
    Spec.readOnlyIndex (small 0 []).nblkMax (0x01#32).toNat ∧
      Spec.readOnlyIndex (small 0 []).nblkMax (0x3FF#32).toNat ∧
      Spec.readOnlyIndex (small 0 []).nblkMax (0x1003F#32).toNat := by
  simp only [Spec.readOnlyIndex]; decide

theorem witness_RegisterWriteThenRead :
    Spec.plainWidth (0x10#32).toNat = some 32 ∧ Spec.plainWidth (0x14#32).toNat = some 16 ∧
      Spec.plainWidth (0x5F#32).toNat = some 8 := by decide

theorem witness_HostMemoryAccess : 1023 < (small 0 []).memBytes ∧ ¬1024 < (small 0 []).memBytes := by decide

/-- A soft reset, of all ones, that clears the error latch. -/
theorem witness_ResetsRestoreRegisters :
    (0xFFFFFFFF#32).getLsbD 0 = true ∧ faulted.errFlag = true ∧
      ∃ t, step (Spec.offer faulted (.regWrite 3#32 0xFFFFFFFF#32)) = .next t ∧ t.errFlag = false :=
  ⟨by decide, by decide, _, rfl, by decide⟩

theorem witness_CtrlWriteUsesBitZero : (0xFFFFFFFE#32).getLsbD 0 = false ∧ (3#32).getLsbD 0 = true := by decide

theorem witness_ErrClearedOnlyByReset :
    ∃ t, (Spec.offer faulted (.regWrite 0#32 1#32)).errFlag = true ∧
      step (Spec.offer faulted (.regWrite 0#32 1#32)) = .next t ∧
      (∀ v rest, (Spec.offer faulted (.regWrite 0#32 1#32)).inbox = .regWrite 3#32 v :: rest →
        v.getLsbD 0 = false) ∧
      ∀ rest, (Spec.offer faulted (.regWrite 0#32 1#32)).inbox ≠ .externalReset :: rest := by
  refine ⟨_, by decide, rfl, fun v rest h => ?_, fun rest h => ?_⟩ <;> simp [Spec.offer] at h

theorem witness_ResetHasInvariant : 1 ≤ 2 ^ 32 ∧ (2 : Nat) ^ 32 ≤ 2 ^ 32 ∧ 1 ≤ 1 := by decide

theorem witness_StepKeepsInvariant :
    ∃ t, (Spec.offer ready (.regWrite 0#32 3#32)).Inv ∧
      step (Spec.offer ready (.regWrite 0#32 3#32)) = .next t :=
  ⟨_, by decide +kernel, rfl⟩

theorem witness_DimensionMismatchNeverRaised :
    ∃ t, (Spec.offer ready (.regWrite 0#32 3#32)).errcode ≠ 3#8 ∧
      step (Spec.offer ready (.regWrite 0#32 3#32)) = .next t :=
  ⟨_, by decide, rfl⟩

/-- Both outcomes of the check table. -/
theorem witness_CheckTableDecidesFaults :
    Spec.faultCode .bremap readyBlocks = none ∧ Spec.faultCode .sxf ready = none ∧
      Spec.faultCode .sxf { ready with dst := 29 } = some 1 ∧
      Spec.faultCode .ksgen { ready with dst := 998 } = some 1 ∧
      Spec.faultCode .ksgen { ready with dst := 997 } = none := by decide +kernel

theorem witness_CommandsKeepOperandRegisters : ∃ t, exec .sxf ready = .next t := ⟨_, rfl⟩

/-- The three kinds of command, with an address just outside each destination. -/
theorem witness_CommandsWriteOnlyDestination :
    (∃ t, exec .ksgen ready = .next t) ∧ (∃ t, exec .sxf ready = .next t) ∧ ready.src ≠ ready.dst ∧ (∃ t, exec .bremap ready = .next t) ∧
      (∃ t, exec .hist ready = .next t) ∧ 29 < ready.dst.toNat ∧
      ready.dst.toNat + ready.len.toNat ≤ 57 :=
  ⟨⟨_, rfl⟩, ⟨_, rfl⟩, by decide, ⟨_, rfl⟩, ⟨_, rfl⟩, by decide, by decide⟩

theorem witness_KeyOk_IvOk : Spec.KeyOk ready ∧ Spec.IvOk ready :=
  ⟨⟨by decide, by decide⟩, by unfold Spec.IvOk; decide⟩

theorem witness_KseedLoadsKeyAndIv : Spec.KeyOk ready ∧ Spec.IvOk ready := witness_KeyOk_IvOk

theorem witness_KchunkFixesZeroState :
    ready.s0 = 0#32 ∧ ready.s1 = 0#32 ∧ ready.s2 = 0#32 ∧ ready.s3 = 0#32 := by decide

theorem witness_KsgenWritesKeystream : Spec.KsgenReady { ready with dst := 997 } ∧ Spec.KsgenReady { ready with len := 0 } := by
  refine ⟨⟨⟨by decide, by decide⟩, ?_, by decide⟩, ⟨⟨by decide, by decide⟩, ?_, by decide⟩⟩ <;>
    (unfold Spec.IvOk; decide)

theorem witness_KsgenDependsOnKeyAndIvOnly :
    Spec.KsgenReady ready ∧ Spec.KsgenReady { ready with s0 := 1, dst := 200 } ∧
      ({ ready with s0 := 1, dst := 200 } : State).key = ready.key := by
  refine ⟨⟨⟨by decide, by decide⟩, ?_, by decide⟩, ⟨⟨by decide, by decide⟩, ?_, by decide⟩, rfl⟩ <;>
    (unfold Spec.IvOk; decide)

theorem witness_KeystreamIsPrefix : 7 ≤ 8 ∧ 8 ≤ 9 := by decide

theorem witness_KchunksYieldKeystream : Spec.KeyOk ready ∧ Spec.IvOk ready ∧ 3 < 4 :=
  ⟨witness_KeyOk_IvOk.1, witness_KeyOk_IvOk.2, by decide⟩

theorem witness_SxfTransformsBuffer : Spec.SxfReady ready ∧ Spec.SxfReady { ready with src := 30 } := by
  refine ⟨⟨⟨by decide, by decide⟩, ?_, by decide, by decide, by decide, by decide⟩,
    ⟨⟨by decide, by decide⟩, ?_, by decide, by decide, by decide, by decide⟩⟩ <;>
    (unfold Spec.IvOk; decide)

theorem witness_SxfTwiceRestoresBuffer :
    Spec.SxfReady ready ∧ Spec.SxfReady (Spec.withBuffers ready ready.dst 3#32) ∧
      Spec.SxfReady (Spec.withBuffers ready ready.dst ready.dst) := by
  refine ⟨witness_SxfTransformsBuffer.1, ⟨⟨by decide, by decide⟩, ?_, by decide, by decide, by decide, by decide⟩,
    ⟨⟨by decide, by decide⟩, ?_, by decide, by decide, by decide, by decide⟩⟩ <;>
    (unfold Spec.IvOk; decide)

theorem witness_PixelMixIsInvolution : 1 ≤ [(0xa5#8 : Byte)].length := by decide

theorem witness_CseedComputesSeed : Spec.KeyOk ready ∧ Spec.IvOk ready := witness_KeyOk_IvOk

theorem witness_LinearGeneratorIsAbsoluteValue : Spec.drawProduct (0xD2388FE5#32).toNat = 2 ^ 31 := by decide

theorem witness_PrevReversesArray : 0 < readyBlocks.nblk.toNat ∧ 1 < readyBlocks.nblk.toNat := by decide

theorem witness_PinitLoadsIdentity : ready.arg.toNat ≤ ready.nblkMax ∧ 63 < ready.arg.toNat := by decide

theorem witness_ShufMatchesPseudocode :
    Spec.KeyOk readyBlocks ∧ Spec.IvOk readyBlocks ∧ 1 < readyBlocks.nblk.toNat :=
  ⟨⟨by decide, by decide⟩, by unfold Spec.IvOk; decide, by decide⟩

theorem witness_PbuildEqualsCommandSequence : Spec.PbuildReady ready ∧ Spec.PbuildReady readyBlocks :=
  ⟨⟨⟨by decide, by decide⟩, by decide, by decide, by decide⟩,
    ⟨⟨by decide, by decide⟩, by decide, by decide, by decide⟩⟩

theorem witness_PinvInvertsArray : readyBlocks.PermOk ∧ 1 < readyBlocks.nblk.toNat := by decide +kernel

theorem witness_RemapWritesEachPixelOnce : [1, 0].Perm (List.range (16 / 8 * (9 / 8))) := by decide

theorem witness_BremapMovesAndMixes :
    Spec.BremapReady readyBlocks ∧ readyBlocks.PermOk ∧ Spec.BremapReady ready ∧ ready.PermOk :=
  ⟨⟨⟨by decide, by decide⟩, by decide, by decide, by decide, by decide, by decide, by decide⟩,
    by decide +kernel,
    ⟨⟨by decide, by decide⟩, by decide, by decide, by decide, by decide, by decide, by decide⟩,
    by decide +kernel⟩

/-- SRC and DST as in `readyBlocks`, and the third place at the source. -/
theorem witness_DecryptRestoresImage :
    Spec.PbuildReady readyBlocks ∧
      (readyBlocks.src.toNat + 384 ≤ readyBlocks.memBytes ∧ readyBlocks.dst.toNat + 384 ≤ readyBlocks.memBytes ∧
        readyBlocks.dst.toNat + 384 ≤ readyBlocks.src.toNat) ∧
      3 * readyBlocks.width.toNat * readyBlocks.height.toNat = 384 :=
  ⟨witness_PbuildEqualsCommandSequence.2, by decide, by decide⟩

theorem witness_HistCountsChannels : Spec.HistReady ready ∧ Spec.HistReady { ready with src := 997 } :=
  ⟨⟨by decide, by decide, by decide⟩, ⟨by decide, by decide, by decide⟩⟩

theorem witness_HistogramConserved : Spec.HistReady ready := witness_HistCountsChannels.1

theorem witness_CorrAccumulatesDifferences : Spec.CorrReady ready ∧ Spec.CorrReady readyBlocks :=
  ⟨⟨by decide, by decide, by decide⟩, ⟨by decide, by decide, by decide⟩⟩

/-- An image one pixel wide and one pixel high. -/
theorem witness_CorrBounds :
    ({ ready with width := 1, height := 1 } : State).ParamsOk ∧
      Spec.CorrReady { ready with width := 1, height := 1 } ∧
      ({ ready with width := 1, height := 1 } : State).width.toNat = 1 ∧
      ({ ready with width := 1, height := 1 } : State).height.toNat = 1 :=
  ⟨by decide, ⟨by decide, by decide, by decide⟩, by decide, by decide⟩

end Sys2Proof.Tests
end

section
/-! SUPPORT. The two size parameters MEM_BYTES and NBLK_MAX (rule R8) that the model carries in State: every
operation of the block keeps them, hence so does every step. -/

namespace Sys2Proof.Machine

/-- The two parameters of rule R8. -/
def State.sizes (s : State) : Nat × Nat := (s.memBytes, s.nblkMax)

theorem State.sizes_eq_iff (s t : State) :
    t.sizes = s.sizes ↔ t.memBytes = s.memBytes ∧ t.nblkMax = s.nblkMax := Prod.mk_inj

/-! ## Updates, stores and resets -/

@[simp] theorem State.takeFault_sizes (s : State) (f : FaultKind) : (s.takeFault f).sizes = s.sizes := rfl
@[simp] theorem State.complete_sizes (s : State) : s.complete.sizes = s.sizes := rfl
@[simp] theorem State.withCmd_sizes (s : State) (v : Word) : (s.withCmd v).sizes = s.sizes := rfl
@[simp] theorem State.withSeed_sizes (s : State) (v : Word) : (s.withSeed v).sizes = s.sizes := rfl
@[simp] theorem State.withRes_sizes (s : State) (v : Word) : (s.withRes v).sizes = s.sizes := rfl
@[simp] theorem State.withKout_sizes (s : State) (a b : Word) : (s.withKout a b).sizes = s.sizes := rfl
@[simp] theorem State.withPerm_sizes (s : State) (P : List Nat) : (s.withPerm P).sizes = s.sizes := rfl
@[simp] theorem State.withMapping_sizes (s : State) (n : Nat) (P : List Nat) :
    (s.withMapping n P).sizes = s.sizes := rfl
@[simp] theorem State.withHistogram_sizes (s : State) (r g b : RegFile 32 Config.nBucket) :
    (s.withHistogram r g b).sizes = s.sizes := rfl
@[simp] theorem State.withPrng_sizes (s : State) (S : PrngState) : (s.withPrng S).sizes = s.sizes := rfl
@[simp] theorem State.withCorr_sizes (s : State) (buf : List Byte) (W H : Nat) :
    (s.withCorr buf W H).sizes = s.sizes := rfl
@[simp] theorem State.writeMem_sizes (s : State) (a : Nat) (bytes : List Byte) :
    (s.writeMem a bytes).sizes = s.sizes := rfl
@[simp] theorem State.withInbox_sizes (s : State) (ts : List Transaction) :
    (s.withInbox ts).sizes = s.sizes := rfl
@[simp] theorem State.pushReply_sizes (s : State) (r : Reply) : (s.pushReply r).sizes = s.sizes := rfl
@[simp] theorem State.softReset_sizes (s : State) : s.softReset.sizes = s.sizes := rfl
@[simp] theorem State.externalReset_sizes (s : State) : s.externalReset.sizes = s.sizes := rfl

@[simp] theorem State.storeReg_sizes (s : State) (r : Reg) (v : Word) : (s.storeReg r v).sizes = s.sizes := by
  cases r <;> rfl

@[simp] theorem State.writeCtrl_sizes (s : State) (v : Word) : (s.writeCtrl v).sizes = s.sizes := by
  unfold State.writeCtrl
  split
  · exact s.softReset_sizes
  · rfl

@[simp] theorem State.memWrite_sizes (s : State) (a : Nat) (v : Byte) : (s.memWrite a v).sizes = s.sizes := by
  unfold State.memWrite
  split
  · exact s.writeMem_sizes a [v]
  · rfl

/-! ## Commands -/

/-- A command keeps the sizes when its effect does: fault entry and completion only touch STATUS and ERRCODE. -/
theorem runCommand_sizes {cs : List (Bool × FaultKind)} {e : State → State} {s t : State}
    (h : runCommand cs e s = .next t) (he : (e s).sizes = s.sizes) : t.sizes = s.sizes := by
  obtain ⟨f, -, rfl⟩ | ⟨-, rfl⟩ := runCommand_cases cs e s t h
  · exact s.takeFault_sizes f
  · rw [State.complete_sizes, he]

/-- The meaning of PREV (rule R135). -/
theorem exec_prev_eq_runCommand (s : State) :
    exec .prev s = runCommand [] (fun s => s.withPerm s.permEntries.reverse) s := by
  rfl

/-- Each command's effect is a chain of named updates. The proofs name the update's law, because comparing the
two states by `rfl` would make the kernel evaluate the new register value. -/
theorem exec_sizes {i : Instr} {s t : State} (h : exec i s = .next t) : t.sizes = s.sizes := by
  cases i with
  | kseed => unfold exec execKseed at h; exact runCommand_sizes h (s.withPrng_sizes _)
  | kchunk =>
    unfold exec execKchunk at h
    exact runCommand_sizes h ((State.withKout_sizes _ _ _).trans (s.withPrng_sizes _))
  | ksgen =>
    unfold exec execKsgen at h
    exact runCommand_sizes h ((State.writeMem_sizes _ _ _).trans (s.withPrng_sizes _))
  | sxf =>
    unfold exec execSxf at h
    exact runCommand_sizes h ((State.writeMem_sizes _ _ _).trans (s.withPrng_sizes _))
  | cseed => unfold exec execCseed at h; exact runCommand_sizes h (s.withSeed_sizes _)
  | lgen => unfold exec execLgen at h; exact runCommand_sizes h (s.withRes_sizes _)
  | pinit => unfold exec execPinit at h; exact runCommand_sizes h (s.withMapping_sizes _ _)
  | shuf => unfold exec execShuf at h; exact runCommand_sizes h (s.withPerm_sizes _)
  | prev => rw [exec_prev_eq_runCommand] at h; exact runCommand_sizes h (s.withPerm_sizes _)
  | pbuild => unfold exec execPbuild at h; exact runCommand_sizes h (s.withMapping_sizes _ _)
  | pinv => unfold exec execPinv at h; exact runCommand_sizes h (s.withPerm_sizes _)
  | bremap => unfold exec execBremap at h; exact runCommand_sizes h (s.writeMem_sizes _ _)
  | hist => unfold exec execHist at h; exact runCommand_sizes h (s.withHistogram_sizes _ _ _)
  | corr => unfold exec execCorr at h; exact runCommand_sizes h (s.withCorr_sizes _ _ _)

/-! ## Transactions and steps -/

theorem State.writeCmd_sizes {s t : State} {v : Word} (h : s.writeCmd v = .next t) : t.sizes = s.sizes := by
  obtain ⟨-, rfl⟩ | ⟨-, -, rfl⟩ | ⟨-, i, -, hexec⟩ := s.writeCmd_cases t v h
  · rfl
  · rw [State.takeFault_sizes, State.withCmd_sizes]
  · rw [exec_sizes hexec, State.withCmd_sizes]

theorem State.regWrite_sizes {s t : State} {i v : Word} (h : s.regWrite i v = .next t) :
    t.sizes = s.sizes := by
  obtain ⟨-, rfl⟩ | ⟨-, hcmd⟩ | ⟨-, rfl⟩ | ⟨r, -, -, -, rfl⟩ := s.regWrite_cases t i v h
  · rfl
  · exact State.writeCmd_sizes hcmd
  · exact s.writeCtrl_sizes v
  · exact s.storeReg_sizes r v

theorem serve_sizes {x : Transaction} {s t : State} (h : serve x s = .next t) : t.sizes = s.sizes := by
  cases x with
  | regWrite i v => exact State.regWrite_sizes h
  | regRead i => cases h; rfl
  | memRead a => cases h; rfl
  | memWrite a b => cases h; exact s.memWrite_sizes a b
  | externalReset => cases h; exact s.externalReset_sizes

theorem step_sizes {s t : State} (h : step s = .next t) : t.sizes = s.sizes := by
  obtain ⟨-, rfl⟩ | ⟨x, rest, u, -, hserve, rfl⟩ := step_cases s t h
  · rfl
  · rw [State.pushReply_sizes, serve_sizes hserve, State.withInbox_sizes]

/-- Settles O9: the two sizes as one value, kept by `step_sizes`. -/
theorem stepsKeepSizes : Obligations.StepsKeepSizes := by
  unfold Obligations.StepsKeepSizes
  intro s t h
  exact (State.sizes_eq_iff s t).1 (step_sizes h)

end Sys2Proof.Machine
end

section
/-! SUPPORT. The register space of rule R21: the register map, the assembler's index and the register read,
each against the spec's table. -/

namespace Sys2Proof.Machine

/-! ## The register map -/

theorem registerTable_mem (p : Nat × Reg) (hp : p ∈ registerTable) :
    Spec.tableIndex p.2 = p.1 ∧ ∀ nblkMax, p.2.wellFormed nblkMax = true := by
  revert p
  simp [registerTable, Spec.tableIndex, Reg.wellFormed]

/-- The table holds exactly the registers outside the arrays. -/
theorem registerTable_lookup {n : Nat} {r : Reg} (h : registerTable.lookup n = some r) :
    Spec.tableIndex r = n ∧ ∀ nblkMax, r.wellFormed nblkMax = true := by
  obtain ⟨before, after, happ, -⟩ := List.lookup_eq_some_iff.1 h
  exact registerTable_mem (n, r) (by simp [happ])

/-- The register map with the array sizes of rule R8 put in. -/
theorem regAt_eq (nblkMax : Nat) (i : Word) :
    regAt nblkMax i =
      if i.toNat < 0x40 then registerTable.lookup i.toNat
      else if i.toNat < 0x50 then some (.key (i.toNat - 0x40))
      else if i.toNat < 0x60 then some (.iv (i.toNat - 0x50))
      else if i.toNat < 0x100 then none
      else if i.toNat < 0x200 then some (.hr (i.toNat - 0x100))
      else if i.toNat < 0x300 then some (.hg (i.toNat - 0x200))
      else if i.toNat < 0x400 then some (.hb (i.toNat - 0x300))
      else if 0x10000 ≤ i.toNat ∧ i.toNat - 0x10000 < nblkMax then some (.perm (i.toNat - 0x10000))
      else none := by
  simp only [regAt, Config.keyMax, Config.ivMax, Config.nBucket]
  grind

@[simp] theorem Reg.key_wellFormed (nblkMax k : Nat) : (Reg.key k).wellFormed nblkMax = true ↔ k < 16 :=
  decide_eq_true_iff
@[simp] theorem Reg.iv_wellFormed (nblkMax k : Nat) : (Reg.iv k).wellFormed nblkMax = true ↔ k < 16 :=
  decide_eq_true_iff
@[simp] theorem Reg.hr_wellFormed (nblkMax k : Nat) : (Reg.hr k).wellFormed nblkMax = true ↔ k < 256 :=
  decide_eq_true_iff
@[simp] theorem Reg.hg_wellFormed (nblkMax k : Nat) : (Reg.hg k).wellFormed nblkMax = true ↔ k < 256 :=
  decide_eq_true_iff
@[simp] theorem Reg.hb_wellFormed (nblkMax k : Nat) : (Reg.hb k).wellFormed nblkMax = true ↔ k < 256 :=
  decide_eq_true_iff
@[simp] theorem Reg.perm_wellFormed (nblkMax k : Nat) :
    (Reg.perm k).wellFormed nblkMax = true ↔ k < nblkMax ∧ 0x10000 + k < 2 ^ 32 := by
  simp [Reg.wellFormed]

/-- A register map entry is a register that exists, at its index in the table of rule R21. -/
theorem wellFormed_of_regAt {nblkMax : Nat} {i : Word} {r : Reg} (h : regAt nblkMax i = some r) :
    r.wellFormed nblkMax = true ∧ Spec.tableIndex r = i.toNat := by
  rw [regAt_eq] at h
  split_ifs at h
  · exact (registerTable_lookup h).symm.imp (· nblkMax) id
  all_goals
    cases h
    simp only [Reg.key_wellFormed, Reg.iv_wellFormed, Reg.hr_wellFormed, Reg.hg_wellFormed,
      Reg.hb_wellFormed, Reg.perm_wellFormed, Spec.tableIndex]
    omega

theorem regAt_of_wellFormed {nblkMax : Nat} {i : Word} {r : Reg} (hr : r.wellFormed nblkMax = true)
    (hi : Spec.tableIndex r = i.toNat) : regAt nblkMax i = some r := by
  rw [regAt_eq, ← hi]
  cases r with
  | key k | iv k | hr k | hg k | hb k | perm k =>
    simp only [Reg.key_wellFormed, Reg.iv_wellFormed, Reg.hr_wellFormed, Reg.hg_wellFormed,
      Reg.hb_wellFormed, Reg.perm_wellFormed, Spec.tableIndex] at hr ⊢
    grind
  | _ => rfl

theorem mapped_of_wellFormed {nblkMax : Nat} {r : Reg} (hr : r.wellFormed nblkMax = true) :
    Spec.mapped nblkMax (Spec.tableIndex r) := by
  cases r with
  | key k | iv k | hr k | hg k | hb k | perm k =>
    simp only [Reg.key_wellFormed, Reg.iv_wellFormed, Reg.hr_wellFormed, Reg.hg_wellFormed,
      Reg.hb_wellFormed, Reg.perm_wellFormed, Spec.mapped, Spec.tableIndex] at hr ⊢
    omega
  | _ => simp [Spec.mapped, Spec.tableIndex]

/-- Below the arrays the register map is the table, checked index by index. -/
theorem registerTable_lookup_none {n : Nat} (h : registerTable.lookup n = none) (hn : n < 0x40) :
    ¬Spec.mapped 0 n := by
  revert h
  unfold Spec.mapped
  decide +revert

/-- An index has no register exactly where the table of rule R21 does not list it. -/
theorem regAt_eq_none_iff {nblkMax : Nat} {i : Word} :
    regAt nblkMax i = none ↔ ¬Spec.mapped nblkMax i.toNat := by
  constructor
  · intro h
    rw [regAt_eq] at h
    split_ifs at h
    · have := registerTable_lookup_none h ‹_›
      unfold Spec.mapped at this ⊢
      omega
    all_goals
      unfold Spec.mapped
      omega
  · intro h
    cases hr : regAt nblkMax i with
    | none => rfl
    | some r =>
      obtain ⟨hwf, hi⟩ := wellFormed_of_regAt hr
      exact absurd (hi ▸ mapped_of_wellFormed hwf) h

/-! ## The assembler's index -/

/-- The assembler's index of a register is its index in the table of rule R21, cut to 32 bits. -/
theorem indexOf_eq (r : Reg) : indexOf r = BitVec.ofNat 32 (Spec.tableIndex r) := by
  cases r <;> rfl

theorem tableIndex_lt {nblkMax : Nat} {r : Reg} (hr : r.wellFormed nblkMax = true) :
    Spec.tableIndex r < 2 ^ 32 := by
  cases r with
  | key k | iv k | hr k | hg k | hb k | perm k =>
    simp only [Reg.key_wellFormed, Reg.iv_wellFormed, Reg.hr_wellFormed, Reg.hg_wellFormed,
      Reg.hb_wellFormed, Reg.perm_wellFormed, Spec.tableIndex] at hr ⊢
    omega
  | _ => simp [Spec.tableIndex]

theorem indexOf_toNat {nblkMax : Nat} {r : Reg} (hr : r.wellFormed nblkMax = true) :
    (indexOf r).toNat = Spec.tableIndex r := by
  rw [indexOf_eq, BitVec.toNat_ofNat, Nat.mod_eq_of_lt (tableIndex_lt hr)]

/-- Settles O3: the register map and the assembler both follow the table of rule R21. -/
theorem assemblerIndexNamesRegister : Obligations.AssemblerIndexNamesRegister := by
  unfold Obligations.AssemblerIndexNamesRegister
  refine fun nblkMax r => ⟨⟨fun hr => ?_, fun h => (wellFormed_of_regAt h).1⟩, indexOf_toNat⟩
  exact regAt_of_wellFormed hr (indexOf_toNat hr).symm

/-! ## Register reads -/

/-- Above the single registers the spec's read-out is its chain of arrays. -/
theorem registerValue_eq_of_ge (s : State) {n : Nat} (h : 0x40 ≤ n) :
    Spec.registerValue s n =
      if n < 0x50 then (s.key.get (n - 0x40)).setWidth 32
      else if n < 0x60 then (s.iv.get (n - 0x50)).setWidth 32
      else if n < 0x100 then 0#32
      else if n < 0x200 then s.hr.get (n - 0x100)
      else if n < 0x300 then s.hg.get (n - 0x200)
      else if n < 0x400 then s.hb.get (n - 0x300)
      else if 0x10000 ≤ n ∧ n - 0x10000 < s.nblkMax ∧ n - 0x10000 < s.nblk.toNat then
        s.perm.getD (n - 0x10000) 0#32
      else 0#32 := by
  unfold Spec.registerValue
  split
  all_goals first
    | omega
    | grind

/-- The spec's read-out of a register that exists. -/
theorem registerValue_tableIndex (s : State) {r : Reg} (hr : r.wellFormed s.nblkMax = true) :
    Spec.registerValue s (Spec.tableIndex r) = s.readReg r := by
  cases r with
  | key k | iv k | hr k | hg k | hb k | perm k =>
    simp only [Reg.key_wellFormed, Reg.iv_wellFormed, Reg.hr_wellFormed, Reg.hg_wellFormed,
      Reg.hb_wellFormed, Reg.perm_wellFormed, Spec.tableIndex] at hr ⊢
    rw [registerValue_eq_of_ge s (by omega)]
    simp only [State.readReg]
    grind
  | _ => rfl

/-- The spec's read-out of an index that its table does not list. -/
theorem registerValue_unmapped (s : State) {n : Nat} (hn : ¬Spec.mapped s.nblkMax n) :
    Spec.registerValue s n = 0#32 := by
  unfold Spec.mapped at hn
  by_cases h : 0x40 ≤ n
  · rw [registerValue_eq_of_ge s h]
    split_ifs <;> first | rfl | omega
  · unfold Spec.registerValue
    split
    all_goals first
      | omega
      | split_ifs <;> first | rfl | omega

/-- The model's register read is the table of rule R21 read at the index. -/
theorem regRead_eq_registerValue (s : State) (i : Word) : s.regRead i = Spec.registerValue s i.toNat := by
  unfold State.regRead
  cases h : regAt s.nblkMax i with
  | none => exact (registerValue_unmapped s (regAt_eq_none_iff.1 h)).symm
  | some r =>
    obtain ⟨hr, hi⟩ := wellFormed_of_regAt h
    rw [← hi, registerValue_tableIndex s hr]

end Sys2Proof.Machine
end

section
/-! SUPPORT. Serving one offered transaction, and what a register write stores and leaves alone. -/

namespace Sys2Proof.Machine

/-! ## Offered transactions -/

/-- The step that serves an offered transaction: what it does to the block, and its reply. -/
theorem step_offer {s u : State} {x : Transaction} (h : serve x s = .next u) :
    step (Spec.offer s x) = .next (Spec.answered u (replyTo x s)) := by
  have hreply : replyTo x (Spec.offer s x) = replyTo x s := by cases x <;> rfl
  rw [← hreply]
  exact step_serve (Spec.offer s x) u x s.inbox rfl h

theorem step_offer_regRead (s : State) (i : Word) :
    step (Spec.offer s (.regRead i)) = .next (Spec.answered s (.word (Spec.registerValue s i.toNat))) := by
  rw [← regRead_eq_registerValue]
  exact step_offer rfl

theorem step_offer_regWrite {s t : State} {i v : Word} (h : s.regWrite i v = .next t) :
    step (Spec.offer s (.regWrite i v)) = .next (Spec.answered t .nothing) := step_offer h

/-! ## Register writes -/

theorem State.regWrite_unmapped {s : State} {i : Word} (h : regAt s.nblkMax i = none) (v : Word) :
    s.regWrite i v = .next s := by
  simp [State.regWrite, h]

theorem State.regWrite_cmd (s : State) (v : Word) : s.regWrite 0#32 v = s.writeCmd v := rfl

theorem State.regWrite_ctrl (s : State) (v : Word) : s.regWrite 3#32 v = .next (s.writeCtrl v) := rfl

/-- A write to any register but CMD and CTRL only stores. -/
theorem State.regWrite_store {s : State} {i : Word} {r : Reg} (h : regAt s.nblkMax i = some r)
    (hcmd : r ≠ .cmd) (hctrl : r ≠ .ctrl) (v : Word) : s.regWrite i v = .next (s.storeReg r v) := by
  unfold State.regWrite
  rw [h]
  cases r with
  | cmd => exact absurd rfl hcmd
  | ctrl => exact absurd rfl hctrl
  | _ => rfl

theorem State.writeCmd_refused {s : State} (h : s.errFlag = true) (v : Word) : s.writeCmd v = .next s := by
  simp [State.writeCmd, h]

theorem State.writeCmd_legal {s : State} {v : Word} {i : Instr} (h : s.errFlag = false)
    (hv : decode v = .ok i) : s.writeCmd v = exec i (s.withCmd v) := by
  simp [State.writeCmd, h, hv]

theorem State.writeCtrl_set (s : State) {v : Word} (h : v.getLsbD 0 = true) :
    s.writeCtrl v = s.softReset := if_pos h

theorem State.writeCtrl_clear (s : State) {v : Word} (h : v.getLsbD 0 = false) : s.writeCtrl v = s :=
  if_neg (by rw [h]; exact Bool.false_ne_true)

/-- Only CTRL's own index reaches it. -/
theorem index_of_regAt_ctrl {nblkMax : Nat} {i : Word} (h : regAt nblkMax i = some .ctrl) : i = 3#32 :=
  BitVec.eq_of_toNat_eq (wellFormed_of_regAt h).2.symm

/-! ## Stores -/

/-- A register the host may not write ignores the store (rule R42). -/
theorem State.storeReg_eq_self (s : State) {r : Reg} (h : Reg.access r ≠ .readWrite) (v : Word) :
    s.storeReg r v = s := by
  cases r <;> first | rfl | exact absurd rfl h

/-- What a store leaves alone, whatever the register. -/
theorem State.storeReg_frame (s : State) (r : Reg) (v : Word) :
    (s.storeReg r v).status = s.status ∧ (s.storeReg r v).errcode = s.errcode ∧
      (s.storeReg r v).nblk = s.nblk ∧ (s.storeReg r v).perm = s.perm ∧ (s.storeReg r v).mem = s.mem ∧
      (s.storeReg r v).memEpoch = s.memEpoch ∧ (s.storeReg r v).inbox = s.inbox ∧
      (s.storeReg r v).replies = s.replies := by
  cases r <;> exact ⟨rfl, rfl, rfl, rfl, rfl, rfl, rfl, rfl⟩

/-- Storing the low `w` bits and reading them zero-extended is a remainder. -/
theorem setWidth_setWidth_eq_ofNat (v : Word) (w : Nat) :
    (v.setWidth w).setWidth 32 = BitVec.ofNat 32 (v.toNat % 2 ^ w) :=
  BitVec.eq_of_toNat_eq (by simp)

/-- A read-write register reads as the low bits of the value stored. -/
theorem State.readReg_storeReg_same (s : State) {r : Reg} (hr : r.wellFormed s.nblkMax = true)
    (hrw : Reg.access r = .readWrite) (v : Word) :
    (s.storeReg r v).readReg r = BitVec.ofNat 32 (v.toNat % 2 ^ Reg.bits r) := by
  have hword : v = BitVec.ofNat 32 (v.toNat % 2 ^ 32) := BitVec.eq_of_toNat_eq
    (by rw [BitVec.toNat_ofNat, Nat.mod_mod, Nat.mod_eq_of_lt v.isLt])
  cases r with
  | key k =>
    have hk : k < Config.keyMax := (Reg.key_wellFormed _ k).1 hr
    simp only [State.readReg, State.storeReg, RegFile.get_set_same _ _ _ hk]
    exact setWidth_setWidth_eq_ofNat v 8
  | iv k =>
    have hk : k < Config.ivMax := (Reg.iv_wellFormed _ k).1 hr
    simp only [State.readReg, State.storeReg, RegFile.get_set_same _ _ _ hk]
    exact setWidth_setWidth_eq_ofNat v 8
  | width | height => exact setWidth_setWidth_eq_ofNat v 16
  | keylen | ivlen => exact setWidth_setWidth_eq_ofNat v 8
  | cmd | src | dst | len | iters | arg | s0 | s1 | s2 | s3 => exact hword
  | _ => cases hrw

/-- Every other register reads as before. -/
theorem State.readReg_storeReg_other (s : State) {r r' : Reg} (h : r' ≠ r) (v : Word) :
    (s.storeReg r v).readReg r' = s.readReg r' := by
  cases r with
  | key k =>
    cases r' with
    | key j =>
      have hj : j ≠ k := fun e => h (congrArg Reg.key e)
      simp only [State.readReg, State.storeReg, RegFile.get_set_other _ _ _ _ hj]
    | _ => rfl
  | iv k =>
    cases r' with
    | iv j =>
      have hj : j ≠ k := fun e => h (congrArg Reg.iv e)
      simp only [State.readReg, State.storeReg, RegFile.get_set_other _ _ _ _ hj]
    | _ => rfl
  | _ => cases r' <;> first | exact absurd rfl h | rfl

@[simp] theorem State.storeReg_nblkMax (s : State) (r : Reg) (v : Word) :
    (s.storeReg r v).nblkMax = s.nblkMax :=
  ((State.sizes_eq_iff _ _).1 (s.storeReg_sizes r v)).2

theorem State.regRead_of_regAt {s : State} {i : Word} {r : Reg} (h : regAt s.nblkMax i = some r) :
    s.regRead i = s.readReg r := by
  simp [State.regRead, h]

theorem State.regRead_answered (s : State) (a : Reply) (i : Word) :
    (Spec.answered s a).regRead i = s.regRead i := rfl

theorem State.regRead_storeReg_same {s : State} {i : Word} {r : Reg} (h : regAt s.nblkMax i = some r)
    (hrw : Reg.access r = .readWrite) (v : Word) :
    (s.storeReg r v).regRead i = BitVec.ofNat 32 (v.toNat % 2 ^ Reg.bits r) := by
  rw [State.regRead_of_regAt (by rwa [State.storeReg_nblkMax]),
    s.readReg_storeReg_same (wellFormed_of_regAt h).1 hrw]

/-- Two indices never name one register. -/
theorem index_unique {nblkMax : Nat} {i j : Word} {r : Reg} (hi : regAt nblkMax i = some r)
    (hj : regAt nblkMax j = some r) : i = j :=
  BitVec.eq_of_toNat_eq ((wellFormed_of_regAt hi).2.symm.trans (wellFormed_of_regAt hj).2)

theorem State.regRead_storeReg_other {s : State} {i j : Word} {r : Reg} (h : regAt s.nblkMax i = some r)
    (hj : j ≠ i) (v : Word) : (s.storeReg r v).regRead j = s.regRead j := by
  cases h' : regAt s.nblkMax j with
  | none => simp [State.regRead, h']
  | some r' =>
    have hr : r' ≠ r := by rintro rfl; exact hj (index_unique h' h)
    rw [State.regRead_of_regAt (by rwa [State.storeReg_nblkMax]), State.regRead_of_regAt h',
      s.readReg_storeReg_other hr]

/-! ## Which writes store, and where -/

/-- Settles O12: an unmapped index has no register. -/
theorem unmappedIndexReadsZero : Obligations.UnmappedIndexReadsZero := by
  unfold Obligations.UnmappedIndexReadsZero
  intro s i hi
  constructor
  · rw [step_offer_regRead, registerValue_unmapped s hi]
  · exact fun v => step_offer_regWrite (State.regWrite_unmapped (regAt_eq_none_iff.2 hi) v)

/-- The registers that rule R42 lists are read-only in the model. -/
theorem access_of_readOnlyIndex {nblkMax : Nat} {r : Reg} (hr : r.wellFormed nblkMax = true)
    (h : Spec.readOnlyIndex nblkMax (Spec.tableIndex r)) : Reg.access r = .readOnly := by
  cases r with
  | key k | iv k =>
    simp only [Reg.key_wellFormed, Reg.iv_wellFormed, Spec.tableIndex, Spec.readOnlyIndex] at hr h
    omega
  | _ => first | rfl | simp [Spec.tableIndex, Spec.readOnlyIndex] at h

/-- Settles O13: the store ignores the registers that are read-only. -/
theorem readOnlyWritesIgnored : Obligations.ReadOnlyWritesIgnored := by
  unfold Obligations.ReadOnlyWritesIgnored
  refine fun s => ⟨fun i v hi => step_offer_regWrite ?_, step_offer_regRead s 3#32⟩
  cases h : regAt s.nblkMax i with
  | none => exact State.regWrite_unmapped h v
  | some r =>
    obtain ⟨hr, hri⟩ := wellFormed_of_regAt h
    have hro : Reg.access r = .readOnly := access_of_readOnlyIndex hr (hri ▸ hi)
    rw [State.regWrite_store h (by rintro rfl; cases hro) (by rintro rfl; cases hro),
      State.storeReg_eq_self s (by rw [hro]; decide)]

theorem mapped_of_plainWidth {n w : Nat} (nblkMax : Nat) (h : Spec.plainWidth n = some w) :
    Spec.mapped nblkMax n := by
  unfold Spec.plainWidth at h
  unfold Spec.mapped
  split_ifs at h <;> omega

/-- The registers with a plain width are those the host may write, CMD aside, and the width is theirs. -/
theorem plainWidth_tableIndex {nblkMax : Nat} {r : Reg} (hr : r.wellFormed nblkMax = true) :
    Spec.plainWidth (Spec.tableIndex r) =
      if Reg.access r = .readWrite ∧ r ≠ .cmd then some (Reg.bits r) else none := by
  cases r with
  | key k | iv k | hr k | hg k | hb k | perm k =>
    simp only [Reg.key_wellFormed, Reg.iv_wellFormed, Reg.hr_wellFormed, Reg.hg_wellFormed,
      Reg.hb_wellFormed, Reg.perm_wellFormed, Spec.tableIndex, Spec.plainWidth, Reg.access,
      Reg.bits] at hr ⊢
    grind
  | _ => rfl

/-- Settles O14: the step stores in the register at the index, and each index reads through the register
map. -/
theorem registerWriteThenRead : Obligations.RegisterWriteThenRead := by
  unfold Obligations.RegisterWriteThenRead
  intro s i v w hw
  cases h : regAt s.nblkMax i with
  | none => exact absurd (mapped_of_plainWidth s.nblkMax hw) (regAt_eq_none_iff.1 h)
  | some r =>
    obtain ⟨hr, hri⟩ := wellFormed_of_regAt h
    rw [← hri, plainWidth_tableIndex hr, Option.ite_none_right_eq_some, Option.some.injEq] at hw
    obtain ⟨⟨hrw, hcmd⟩, hbits⟩ := hw
    have hctrl : r ≠ .ctrl := by rintro rfl; cases hrw
    obtain ⟨hbytes, hnblk⟩ := (State.sizes_eq_iff _ _).1 (s.storeReg_sizes r v)
    obtain ⟨-, -, -, hperm, hmem, hepoch, hinbox, hreplies⟩ := s.storeReg_frame r v
    refine ⟨_, step_offer_regWrite (State.regWrite_store h hcmd hctrl v), ?_, fun j hj => ?_, hperm, hmem,
      hepoch, hbytes, hnblk, hinbox, congrArg (· ++ [Reply.nothing]) hreplies⟩
    · rw [← regRead_eq_registerValue, State.regRead_answered, State.regRead_storeReg_same h hrw, hbits]
    · rw [← regRead_eq_registerValue, ← regRead_eq_registerValue, State.regRead_answered,
        State.regRead_storeReg_other h hj]

/-! ## Reset values -/

/-- What each register reads as after a reset (rule R46). -/
theorem readReg_resetOf (memBytes nblkMax : Nat) {r : Reg} (hr : r.wellFormed nblkMax = true) :
    (State.resetOf memBytes nblkMax).readReg r = Spec.resetValue (Spec.tableIndex r) := by
  cases r with
  | key k | iv k | hr k | hg k | hb k | perm k =>
    have harray : ∀ n, 0x40 ≤ n → Spec.resetValue n = 0#32 := fun n hn => by
      unfold Spec.resetValue
      split_ifs <;> first | omega | rfl
    rw [harray _ (by simp only [Spec.tableIndex]; omega)]
    simp [State.readReg, State.resetOf]
  | _ => rfl

theorem resetValue_unmapped {nblkMax n : Nat} (h : ¬Spec.mapped nblkMax n) : Spec.resetValue n = 0#32 := by
  unfold Spec.mapped at h
  unfold Spec.resetValue
  split_ifs <;> first | omega | rfl

theorem registerValue_resetOf (memBytes nblkMax : Nat) (i : Word) :
    Spec.registerValue (State.resetOf memBytes nblkMax) i.toNat = Spec.resetValue i.toNat := by
  rw [← regRead_eq_registerValue]
  cases h : regAt nblkMax i with
  | none =>
    rw [resetValue_unmapped (regAt_eq_none_iff.1 h)]
    simp [State.regRead, State.resetOf, h]
  | some r =>
    obtain ⟨hr, hi⟩ := wellFormed_of_regAt h
    rw [State.regRead_of_regAt h, readReg_resetOf memBytes nblkMax hr, hi]

/-- Settles O16: index by index through the register map. -/
theorem resetValues : Obligations.ResetValues := by
  unfold Obligations.ResetValues
  exact ⟨fun memBytes nblkMax => ⟨registerValue_resetOf memBytes nblkMax, rfl⟩, rfl,
    registerValue_resetOf _ _⟩

/-! ## CMD and CTRL -/

/-- Settles O4: index 0 is CMD, and every command answers a next state. -/
theorem stepRunsDecodedCommand : Obligations.StepRunsDecodedCommand := by
  unfold Obligations.StepRunsDecodedCommand
  intro s v i herr hv
  obtain ⟨t, ht⟩ := exec_next i (s.withCmd v)
  refine ⟨t, ht, step_offer_regWrite ?_⟩
  rw [State.regWrite_cmd, State.writeCmd_legal herr hv, ht]

/-- Settles O18: a CTRL write depends on its value through bit 0 alone. -/
theorem ctrlWriteUsesBitZero : Obligations.CtrlWriteUsesBitZero := by
  unfold Obligations.CtrlWriteUsesBitZero
  intro s v
  constructor
  · intro hv
    rw [step_offer_regWrite (s.regWrite_ctrl v), State.writeCtrl_clear s hv]
  · intro hv
    rw [step_offer_regWrite (s.regWrite_ctrl v), step_offer_regWrite (s.regWrite_ctrl 1#32),
      State.writeCtrl_set s hv, State.writeCtrl_set s (by decide)]

/-! ## The latch of ERR and ERRCODE -/

@[simp] theorem State.memWrite_status (s : State) (a : Nat) (b : Byte) :
    (s.memWrite a b).status = s.status := by
  unfold State.memWrite
  split
  · exact s.writeMem_status a [b]
  · rfl

@[simp] theorem State.memWrite_errcode (s : State) (a : Nat) (b : Byte) :
    (s.memWrite a b).errcode = s.errcode := by
  unfold State.memWrite
  split
  · exact s.writeMem_errcode a [b]
  · rfl

/-- While ERR is set, a register write that is no soft reset leaves STATUS and ERRCODE alone: a CMD write is
refused (rule R209), a store does not reach them. -/
theorem State.regWrite_latched {s t : State} {i v : Word} (h : s.regWrite i v = .next t)
    (herr : s.errFlag = true) (hctrl : i = 3#32 → v.getLsbD 0 = false) :
    t.status = s.status ∧ t.errcode = s.errcode := by
  obtain ⟨-, rfl⟩ | ⟨-, hcmd⟩ | ⟨hi, rfl⟩ | ⟨r, -, -, -, rfl⟩ := s.regWrite_cases t i v h
  · exact ⟨rfl, rfl⟩
  · rw [State.writeCmd_refused herr] at hcmd
    cases hcmd
    exact ⟨rfl, rfl⟩
  · rw [State.writeCtrl_clear s (hctrl (index_of_regAt_ctrl hi))]
    exact ⟨rfl, rfl⟩
  · obtain ⟨hstatus, herrcode, -⟩ := s.storeReg_frame r v
    exact ⟨hstatus, herrcode⟩

theorem serve_latched {x : Transaction} {s t : State} (h : serve x s = .next t) (herr : s.errFlag = true)
    (hctrl : ∀ v, x = .regWrite 3#32 v → v.getLsbD 0 = false) (hext : x ≠ .externalReset) :
    t.status = s.status ∧ t.errcode = s.errcode := by
  cases x with
  | regWrite i v => exact State.regWrite_latched h herr fun hi => hctrl v (by rw [hi])
  | regRead i => cases h; exact ⟨rfl, rfl⟩
  | memRead a => cases h; exact ⟨rfl, rfl⟩
  | memWrite a b => cases h; exact ⟨s.memWrite_status a b, s.memWrite_errcode a b⟩
  | externalReset => exact absurd rfl hext

/-- Settles O19: `serve_latched` for the transaction the step serves. -/
theorem errClearedOnlyByReset : Obligations.ErrClearedOnlyByReset := by
  unfold Obligations.ErrClearedOnlyByReset
  intro s t herr hstep hctrl hext
  obtain ⟨-, rfl⟩ | ⟨x, rest, u, hinbox, hserve, rfl⟩ := step_cases s t hstep
  · exact ⟨rfl, rfl⟩
  · have hlatched : u.status = s.status ∧ u.errcode = s.errcode :=
      serve_latched (s := s.withInbox rest) hserve herr (fun v hx => hctrl v rest (hx ▸ hinbox))
        fun hx => hext rest (hx ▸ hinbox)
    exact hlatched

end Sys2Proof.Machine
end

section
/-! SUPPORT. The lengths of what the commands write to MEM, and that each operation on an index array gives a
permutation of it. -/

namespace Sys2Proof.Machine

/-! ## Lengths of the buffers that are written -/

@[simp] theorem chunkBytes_length (S : PrngState) : (chunkBytes S).length = 8 := by
  simp [chunkBytes]

@[simp] theorem chunks_length (k : Nat) (S : PrngState) : (chunks k S).1.length = 8 * k := by
  induction k generalizing S with
  | zero => rfl
  | succ k ih =>
    simp only [chunks, chunk, List.length_append, chunkBytes_length, ih]
    omega

@[simp] theorem generateKeyStream_length (n : Nat) (key iv : List Byte) :
    (generateKeyStream n key iv).1.length = n := by
  simp only [generateKeyStream, List.length_take, chunks_length, chunkCount]
  omega

@[simp] theorem transform_length (buf key iv : List Byte) : (transform buf key iv).1.length = buf.length := by
  simp [transform, xorStream]

@[simp] theorem putPixel_length (buf : List Byte) (p : Nat) (v : Pixel) :
    (putPixel buf p v).length = buf.length := by
  simp [putPixel]

theorem moveMixed_length (src key dst : List Byte) (m : Nat × Nat) :
    (moveMixed src key dst m).length = dst.length := putPixel_length _ _ _

theorem moveTail_length (src key dst : List Byte) (p : Nat) :
    (moveTail src key dst p).length = dst.length := by
  unfold moveTail
  split
  · exact moveMixed_length src key dst (p, p)
  · exact putPixel_length _ _ _

/-- Steps that each keep the length keep it together. -/
theorem foldl_length_eq {α β : Type} {f : List β → α → List β}
    (hf : ∀ B a, (f B a).length = B.length) (l : List α) (B : List β) :
    (l.foldl f B).length = B.length := by
  induction l generalizing B with
  | nil => rfl
  | cons a l ih => rw [List.foldl_cons, ih, hf]

@[simp] theorem remap_length (src : List Byte) (W H : Nat) (P : List Nat) (key : List Byte) :
    (remap src W H P key).length = channels * W * H := by
  rw [remap, foldl_length_eq (moveTail_length src key), foldl_length_eq (moveMixed_length src key),
    List.length_replicate]

/-! ## Permutations of an index array -/

theorem swapAt_perm {α : Type} (A : List α) (i j : Nat) : (swapAt A i j).Perm A := by
  unfold swapAt
  split
  · rename_i a b ha hb
    obtain ⟨hi, rfl⟩ := List.getElem?_eq_some_iff.1 ha
    obtain ⟨hj, rfl⟩ := List.getElem?_eq_some_iff.1 hb
    exact List.set_set_perm hi hj
  · exact .refl A

theorem shuffleAt_perm {α : Type} (seed : Word) (r : Nat) (A : List α) (i : Nat) :
    (shuffleAt seed r A i).Perm A := by
  unfold shuffleAt
  split
  · exact (swapAt_perm _ _ _).trans (swapAt_perm _ _ _)
  · exact swapAt_perm _ _ _

/-- Steps that each permute the array permute it together. -/
theorem foldl_perm {α β : Type} {f : List β → α → List β} (hf : ∀ B a, (f B a).Perm B)
    (l : List α) (B : List β) : (l.foldl f B).Perm B := by
  induction l generalizing B with
  | nil => exact .refl B
  | cons a l ih => exact (ih (f B a)).trans (hf B a)

theorem shufflePass_perm {α : Type} (seed : Word) (A : List α) (pass : Nat) :
    (shufflePass seed A pass).Perm A := foldl_perm (shuffleAt_perm seed _) _ A

theorem shuffleBlocks_perm {α : Type} (A : List α) (key iv : List Byte) :
    (shuffleBlocks A key iv).Perm A := foldl_perm (shufflePass_perm _) _ A

theorem mixIteration_perm (key : List Byte) (A : List Nat) (iter : Nat) :
    (mixIteration key A iter).Perm A := by
  have hshuf := shuffleBlocks_perm A key (ivIter iter)
  unfold mixIteration
  split
  · exact ((shuffleBlocks_perm _ key _).trans (List.reverse_perm _)).trans hshuf
  · exact hshuf

theorem processBlocks_perm (n : Nat) (key : List Byte) (iters : Nat) :
    (processBlocks n key iters).Perm (List.range n) := foldl_perm (mixIteration_perm key) _ _

/-! ## Inversion -/

/-- Recording the positions of distinct entries, from position `k` on: an entry's slot gets its position,
every other slot stays. -/
theorem foldl_set_getElem? {A : List Nat} (hA : A.Nodup) (k : Nat) (Q : List Nat)
    {x : Nat} (hx : x < Q.length) :
    ((A.zipIdx k).foldl (fun Q c => Q.set c.1 c.2) Q)[x]? =
      if x ∈ A then some (k + A.idxOf x) else Q[x]? := by
  induction A generalizing k Q with
  | nil => simp
  | cons a A ih =>
    obtain ⟨ha, hA⟩ := List.nodup_cons.1 hA
    rw [List.zipIdx_cons, List.foldl_cons, ih hA (k + 1) (Q.set a k) (by simpa using hx)]
    by_cases hxa : x = a
    · subst hxa
      simp [ha, hx]
    · simp only [List.mem_cons, hxa, false_or, List.idxOf_cons_ne A (Ne.symm hxa),
        List.getElem?_set_ne (Ne.symm hxa)]
      congr 2
      omega

/-- The inverse of a permutation of `0 .. n-1` lists the position of each number (rule R129). -/
theorem invert_eq_map_idxOf {A : List Nat} (hA : A.Perm (List.range A.length)) :
    invert A = (List.range A.length).map (fun x => A.idxOf x) := by
  have hnodup : A.Nodup := hA.nodup_iff.2 List.nodup_range
  have hlen : (invert A).length = A.length := by
    rw [invert, foldl_length_eq (fun B c => List.length_set), List.length_replicate]
  refine List.ext_getElem? fun x => ?_
  by_cases hx : x < A.length
  · have hmem : x ∈ A := hA.mem_iff.2 (List.mem_range.2 hx)
    rw [invert, foldl_set_getElem? hnodup 0 _ (by simpa using hx), if_pos hmem]
    simp [hx]
  · rw [List.getElem?_eq_none (by omega), List.getElem?_eq_none (by simpa using hx)]

theorem invert_perm {A : List Nat} {n : Nat} (hA : A.Perm (List.range n)) :
    (invert A).Perm (List.range n) := by
  obtain rfl : A.length = n := by simpa using hA.length_eq
  have hnodup : A.Nodup := hA.nodup_iff.2 List.nodup_range
  have hself : A.map (fun x => A.idxOf x) = List.range A.length :=
    List.ext_getElem (by simp) fun i _ _ => by simp [hnodup.idxOf_getElem]
  rw [invert_eq_map_idxOf hA]
  exact (hA.symm.map _).trans (.of_eq hself)

end Sys2Proof.Machine
end

section
/-! SUPPORT. What the fourteen commands have in common: each is one run of checks and an effect, and the
effect writes result registers, PERM and MEM only, and keeps MEM canonical and PERM a permutation. -/

namespace Sys2Proof.Machine

/-! ## The registers no command's effect writes -/

/-- The state with every register an effect may write, PERM and MEM blanked: what is left is CMD, STATUS,
ERRCODE, the operand registers, KEY, IV, the sizes and the host's lists. -/
def State.withoutResults (s : State) : State :=
  { s with
    res := 0, seed := 0, nblk := 0, s0 := 0, s1 := 0, s2 := 0, s3 := 0, kout0 := 0, kout1 := 0
    ahLo := 0, ahHi := 0, avLo := 0, avHi := 0, adLo := 0, adHi := 0, nh := 0, nv := 0, nd := 0
    hr := .zero 32 Config.nBucket, hg := .zero 32 Config.nBucket, hb := .zero 32 Config.nBucket
    perm := [], mem := [] }

@[simp] theorem State.withSeed_withoutResults (s : State) (v : Word) :
    (s.withSeed v).withoutResults = s.withoutResults := rfl
@[simp] theorem State.withRes_withoutResults (s : State) (v : Word) :
    (s.withRes v).withoutResults = s.withoutResults := rfl
@[simp] theorem State.withKout_withoutResults (s : State) (a b : Word) :
    (s.withKout a b).withoutResults = s.withoutResults := rfl
@[simp] theorem State.withPerm_withoutResults (s : State) (P : List Nat) :
    (s.withPerm P).withoutResults = s.withoutResults := rfl
@[simp] theorem State.withMapping_withoutResults (s : State) (n : Nat) (P : List Nat) :
    (s.withMapping n P).withoutResults = s.withoutResults := rfl
@[simp] theorem State.withHistogram_withoutResults (s : State) (r g b : RegFile 32 Config.nBucket) :
    (s.withHistogram r g b).withoutResults = s.withoutResults := rfl
@[simp] theorem State.withPrng_withoutResults (s : State) (S : PrngState) :
    (s.withPrng S).withoutResults = s.withoutResults := rfl
@[simp] theorem State.withCorr_withoutResults (s : State) (buf : List Byte) (W H : Nat) :
    (s.withCorr buf W H).withoutResults = s.withoutResults := rfl
@[simp] theorem State.writeMem_withoutResults (s : State) (a : Nat) (bytes : List Byte) :
    (s.writeMem a bytes).withoutResults = s.withoutResults := rfl

/-! ## Checks that have passed -/

theorem firstFault_eq_none_iff {cs : List (Bool × FaultKind)} :
    firstFault cs = none ↔ ∀ c ∈ cs, c.1 = false := by
  simp [firstFault]

/-- The fault of a run is the kind of one of its checks. -/
theorem mem_of_firstFault {cs : List (Bool × FaultKind)} {f : FaultKind} (h : firstFault cs = some f) :
    ∃ c ∈ cs, c.2 = f := by
  simp only [firstFault, Option.map_eq_some_iff] at h
  obtain ⟨c, hc, rfl⟩ := h
  exact ⟨c, List.mem_of_find?_eq_some hc, rfl⟩

theorem State.ksgenOutOfMem_passed {s : State} (h : s.ksgenOutOfMem.1 = false) :
    0 < s.len.toNat → s.dst.toNat + s.len.toNat ≤ s.memBytes := by
  simpa [State.ksgenOutOfMem, State.inRange] using h

theorem State.srcOrDstOutOfMem_passed {s : State} {n : Nat} (h : (s.srcOrDstOutOfMem n).1 = false) :
    s.src.toNat + n ≤ s.memBytes ∧ s.dst.toNat + n ≤ s.memBytes := by
  simpa [State.srcOrDstOutOfMem, State.inRange] using h

theorem State.tooManyBlocks_passed {s : State} {n : Nat} (h : (s.tooManyBlocks n).1 = false) :
    n ≤ s.nblkMax := by
  simpa [State.tooManyBlocks] using h

/-- A block count fits NBLK: both dimensions have 16 bits. -/
theorem State.blockCount_lt (s : State) : s.blockCount < 2 ^ 32 :=
  calc s.blockCount ≤ s.width.toNat * s.height.toNat :=
        Nat.mul_le_mul (Nat.div_le_self _ _) (Nat.div_le_self _ _)
    _ < 2 ^ 16 * 2 ^ 16 := Nat.mul_lt_mul'' s.width.isLt s.height.isLt

/-! ## MEM and PERM after an effect -/

theorem State.withSeed_memOk (s : State) (v : Word) : (s.withSeed v).MemOk ↔ s.MemOk := Iff.rfl
theorem State.withRes_memOk (s : State) (v : Word) : (s.withRes v).MemOk ↔ s.MemOk := Iff.rfl
theorem State.withKout_memOk (s : State) (a b : Word) : (s.withKout a b).MemOk ↔ s.MemOk := Iff.rfl
theorem State.withPerm_memOk (s : State) (P : List Nat) : (s.withPerm P).MemOk ↔ s.MemOk := Iff.rfl
theorem State.withMapping_memOk (s : State) (n : Nat) (P : List Nat) :
    (s.withMapping n P).MemOk ↔ s.MemOk := Iff.rfl
theorem State.withHistogram_memOk (s : State) (r g b : RegFile 32 Config.nBucket) :
    (s.withHistogram r g b).MemOk ↔ s.MemOk := Iff.rfl
theorem State.withPrng_memOk (s : State) (S : PrngState) : (s.withPrng S).MemOk ↔ s.MemOk := Iff.rfl
theorem State.withCorr_memOk (s : State) (buf : List Byte) (W H : Nat) :
    (s.withCorr buf W H).MemOk ↔ s.MemOk := Iff.rfl
theorem State.withSeed_permOk (s : State) (v : Word) : (s.withSeed v).PermOk ↔ s.PermOk := Iff.rfl
theorem State.withRes_permOk (s : State) (v : Word) : (s.withRes v).PermOk ↔ s.PermOk := Iff.rfl
theorem State.withKout_permOk (s : State) (a b : Word) : (s.withKout a b).PermOk ↔ s.PermOk := Iff.rfl
theorem State.withHistogram_permOk (s : State) (r g b : RegFile 32 Config.nBucket) :
    (s.withHistogram r g b).PermOk ↔ s.PermOk := Iff.rfl
theorem State.withPrng_permOk (s : State) (S : PrngState) : (s.withPrng S).PermOk ↔ s.PermOk := Iff.rfl
theorem State.withCorr_permOk (s : State) (buf : List Byte) (W H : Nat) :
    (s.withCorr buf W H).PermOk ↔ s.PermOk := Iff.rfl
theorem State.writeMem_permOk (s : State) (a : Nat) (bytes : List Byte) :
    (s.writeMem a bytes).PermOk ↔ s.PermOk := Iff.rfl

/-- A buffer inside MEM is stored in canonical form; an empty one may lie anywhere. -/
theorem State.MemOk.writeMem {s : State} (h : s.MemOk) {a : Nat} {bytes : List Byte}
    (hin : 0 < bytes.length → a + bytes.length ≤ s.memBytes) : (s.writeMem a bytes).MemOk := by
  obtain ⟨hwf, hbound⟩ := h
  cases bytes with
  | nil => exact ⟨hwf, hbound⟩
  | cons b rest =>
    exact ⟨Memory.writeBuf_wf _ s.mem a hwf,
      Memory.writeBuf_bound _ s.mem a _ hbound (hin (Nat.succ_pos _))⟩

/-- Numbers below `2^32` survive being stored in PERM. -/
theorem map_toNat_map_ofNat {P : List Nat} (h : ∀ x ∈ P, x < 2 ^ 32) :
    (P.map (BitVec.ofNat 32)).map BitVec.toNat = P := by
  rw [List.map_map]
  refine (List.map_congr_left fun x hx => ?_).trans P.map_id
  rw [Function.comp_apply, BitVec.toNat_ofNat, Nat.mod_eq_of_lt (h x hx), id]

/-- In a good state the list holds exactly the entries `0 .. NBLK-1`. -/
theorem State.PermOk.permEntries_perm {s : State} (h : s.PermOk) :
    s.permEntries.Perm (List.range s.nblk.toNat) := by
  obtain ⟨hperm, -⟩ := h
  have hlen : s.perm.length = s.nblk.toNat := by simpa using hperm.length_eq
  rw [State.permEntries, List.takeD_eq_take _ hlen.ge, List.take_of_length_le hlen.le]
  exact hperm

/-- A new array of NBLK entries. -/
theorem State.PermOk.withPerm {s : State} (h : s.PermOk) {P : List Nat}
    (hP : P.Perm (List.range s.nblk.toNat)) : (s.withPerm P).PermOk := by
  have hlt : ∀ x ∈ P, x < 2 ^ 32 := fun x hx =>
    (List.mem_range.1 (hP.mem_iff.1 hx)).trans s.nblk.isLt
  refine ⟨?_, h.2⟩
  rw [State.withPerm_perm, map_toNat_map_ofNat hlt]
  exact hP

/-- A new array of a new size. -/
theorem State.permOk_withMapping {s : State} {n : Nat} (hn : n < 2 ^ 32) (hmax : n ≤ s.nblkMax)
    {P : List Nat} (hP : P.Perm (List.range n)) : (s.withMapping n P).PermOk := by
  have hlt : ∀ x ∈ P, x < 2 ^ 32 := fun x hx => (List.mem_range.1 (hP.mem_iff.1 hx)).trans hn
  have hnblk : (s.withMapping n P).nblk.toNat = n := by
    rw [State.withMapping_nblk, BitVec.toNat_ofNat, Nat.mod_eq_of_lt hn]
  refine ⟨?_, hnblk.trans_le hmax⟩
  rw [State.withMapping_perm, map_toNat_map_ofNat hlt, hnblk]
  exact hP

/-! ## Every command -/

/-- What the invariant needs of a command's checks and effect in the state it finds. -/
structure LawfulCommand (cs : List (Bool × FaultKind)) (e : State → State) (s : State) : Prop where
  kinds : ∀ c ∈ cs, c.2 ≠ .dimensionMismatch
  frame : (e s).withoutResults = s.withoutResults
  memOk : firstFault cs = none → s.MemOk → (e s).MemOk
  permOk : firstFault cs = none → s.PermOk → (e s).PermOk

/-- A command's outcome is that of lawful checks and a lawful effect. -/
def RunsLawfully (o : Host.Outcome State Fault Refusal) (s : State) : Prop :=
  ∃ cs e, o = runCommand cs e s ∧ LawfulCommand cs e s

theorem execKseed_lawful (s : State) : RunsLawfully (execKseed s) s := by
  unfold execKseed
  exact ⟨_, _, rfl, {
    kinds := by simp [State.emptyKey, State.longKeyOrIv]
    frame := s.withPrng_withoutResults _
    memOk := fun _ h => (s.withPrng_memOk _).2 h
    permOk := fun _ h => (s.withPrng_permOk _).2 h }⟩

theorem execKchunk_lawful (s : State) : RunsLawfully (execKchunk s) s := by
  unfold execKchunk
  exact ⟨_, _, rfl, {
    kinds := by simp
    frame := (State.withKout_withoutResults _ _ _).trans (s.withPrng_withoutResults _)
    memOk := fun _ h => (State.withKout_memOk _ _ _).2 ((s.withPrng_memOk _).2 h)
    permOk := fun _ h => (State.withKout_permOk _ _ _).2 ((s.withPrng_permOk _).2 h) }⟩

theorem execKsgen_lawful (s : State) : RunsLawfully (execKsgen s) s := by
  unfold execKsgen
  exact ⟨_, _, rfl, {
    kinds := by simp [State.emptyKey, State.longKeyOrIv, State.ksgenOutOfMem]
    frame := (State.writeMem_withoutResults _ _ _).trans (s.withPrng_withoutResults _)
    memOk := fun hpass h => ((s.withPrng_memOk _).2 h).writeMem fun hlen => by
      rw [generateKeyStream_length] at hlen ⊢
      exact State.ksgenOutOfMem_passed (firstFault_eq_none_iff.1 hpass _ (by simp)) hlen
    permOk := fun _ h => (State.writeMem_permOk _ _ _).2 ((s.withPrng_permOk _).2 h) }⟩

theorem execSxf_lawful (s : State) : RunsLawfully (execSxf s) s := by
  unfold execSxf
  exact ⟨_, _, rfl, {
    kinds := by simp [State.emptyKey, State.longKeyOrIv, State.zeroLen, State.srcOrDstOutOfMem,
      State.partialOverlap]
    frame := (State.writeMem_withoutResults _ _ _).trans (s.withPrng_withoutResults _)
    memOk := fun hpass h => ((s.withPrng_memOk _).2 h).writeMem fun _ => by
      rw [transform_length, State.readBuf_length]
      exact (State.srcOrDstOutOfMem_passed (firstFault_eq_none_iff.1 hpass _ (by simp))).2
    permOk := fun _ h => (State.writeMem_permOk _ _ _).2 ((s.withPrng_permOk _).2 h) }⟩

theorem execCseed_lawful (s : State) : RunsLawfully (execCseed s) s := by
  unfold execCseed
  exact ⟨_, _, rfl, {
    kinds := by simp [State.emptyKey, State.longKeyOrIv]
    frame := s.withSeed_withoutResults _
    memOk := fun _ h => (s.withSeed_memOk _).2 h
    permOk := fun _ h => (s.withSeed_permOk _).2 h }⟩

theorem execLgen_lawful (s : State) : RunsLawfully (execLgen s) s := by
  unfold execLgen
  exact ⟨_, _, rfl, {
    kinds := by simp
    frame := s.withRes_withoutResults _
    memOk := fun _ h => (s.withRes_memOk _).2 h
    permOk := fun _ h => (s.withRes_permOk _).2 h }⟩

theorem execPinit_lawful (s : State) : RunsLawfully (execPinit s) s := by
  unfold execPinit
  exact ⟨_, _, rfl, {
    kinds := by simp [State.tooManyBlocks]
    frame := s.withMapping_withoutResults _ _
    memOk := fun _ h => (s.withMapping_memOk _ _).2 h
    permOk := fun hpass _ =>
      State.permOk_withMapping s.arg.isLt
        (State.tooManyBlocks_passed (firstFault_eq_none_iff.1 hpass _ (by simp))) (.refl _) }⟩

theorem execShuf_lawful (s : State) : RunsLawfully (execShuf s) s := by
  unfold execShuf
  exact ⟨_, _, rfl, {
    kinds := by simp [State.emptyKey, State.longKeyOrIv]
    frame := s.withPerm_withoutResults _
    memOk := fun _ h => (s.withPerm_memOk _).2 h
    permOk := fun _ h => h.withPerm ((shuffleBlocks_perm _ _ _).trans h.permEntries_perm) }⟩

theorem exec_prev_lawful (s : State) : RunsLawfully (exec .prev s) s := by
  rw [exec_prev_eq_runCommand]
  exact ⟨_, _, rfl, {
    kinds := by simp
    frame := s.withPerm_withoutResults _
    memOk := fun _ h => (s.withPerm_memOk _).2 h
    permOk := fun _ h => h.withPerm ((List.reverse_perm _).trans h.permEntries_perm) }⟩

theorem execPbuild_lawful (s : State) : RunsLawfully (execPbuild s) s := by
  unfold execPbuild
  exact ⟨_, _, rfl, {
    kinds := by simp [State.emptyKey, State.longKey, State.zeroDimension, State.tooManyBlocks]
    frame := s.withMapping_withoutResults _ _
    memOk := fun _ h => (s.withMapping_memOk _ _).2 h
    permOk := fun hpass _ =>
      State.permOk_withMapping s.blockCount_lt
        (State.tooManyBlocks_passed (firstFault_eq_none_iff.1 hpass _ (by simp)))
        (processBlocks_perm _ _ _) }⟩

theorem execPinv_lawful (s : State) : RunsLawfully (execPinv s) s := by
  unfold execPinv
  exact ⟨_, _, rfl, {
    kinds := by simp
    frame := s.withPerm_withoutResults _
    memOk := fun _ h => (s.withPerm_memOk _).2 h
    permOk := fun _ h => h.withPerm (invert_perm h.permEntries_perm) }⟩

theorem execBremap_lawful (s : State) : RunsLawfully (execBremap s) s := by
  unfold execBremap
  exact ⟨_, _, rfl, {
    kinds := by simp [State.emptyKey, State.longKey, State.zeroDimension, State.blockCountMismatch,
      State.srcOrDstOutOfMem, State.imagesOverlap]
    frame := s.writeMem_withoutResults _ _
    memOk := fun hpass h => h.writeMem fun _ => by
      rw [remap_length]
      exact (State.srcOrDstOutOfMem_passed (n := s.imageBytes)
        (firstFault_eq_none_iff.1 hpass _ (by simp))).2
    permOk := fun _ h => (s.writeMem_permOk _ _).2 h }⟩

theorem execHist_lawful (s : State) : RunsLawfully (execHist s) s := by
  unfold execHist
  exact ⟨_, _, rfl, {
    kinds := by simp [State.zeroLen, State.lenNotPixels, State.outOfMem]
    frame := s.withHistogram_withoutResults _ _ _
    memOk := fun _ h => (s.withHistogram_memOk _ _ _).2 h
    permOk := fun _ h => (s.withHistogram_permOk _ _ _).2 h }⟩

theorem execCorr_lawful (s : State) : RunsLawfully (execCorr s) s := by
  unfold execCorr
  exact ⟨_, _, rfl, {
    kinds := by simp [State.zeroDimension, State.outOfMem]
    frame := s.withCorr_withoutResults _ _ _
    memOk := fun _ h => (s.withCorr_memOk _ _ _).2 h
    permOk := fun _ h => (s.withCorr_permOk _ _ _).2 h }⟩

theorem exec_lawful (i : Instr) (s : State) : RunsLawfully (exec i s) s := by
  cases i with
  | kseed => exact execKseed_lawful s
  | kchunk => exact execKchunk_lawful s
  | ksgen => exact execKsgen_lawful s
  | sxf => exact execSxf_lawful s
  | cseed => exact execCseed_lawful s
  | lgen => exact execLgen_lawful s
  | pinit => exact execPinit_lawful s
  | shuf => exact execShuf_lawful s
  | prev => exact exec_prev_lawful s
  | pbuild => exact execPbuild_lawful s
  | pinv => exact execPinv_lawful s
  | bremap => exact execBremap_lawful s
  | hist => exact execHist_lawful s
  | corr => exact execCorr_lawful s

/-- All a command can do: fault with one of the three codes it may raise, or complete its effect. -/
theorem exec_cases {i : Instr} {s t : State} (h : exec i s = .next t) :
    (∃ f, f ≠ .dimensionMismatch ∧ t = s.takeFault f) ∨
      ∃ u : State, u.withoutResults = s.withoutResults ∧ (s.MemOk → u.MemOk) ∧
        (s.PermOk → u.PermOk) ∧ t = u.complete := by
  obtain ⟨cs, e, hrun, hlawful⟩ := exec_lawful i s
  obtain ⟨f, hf, rfl⟩ | ⟨hpass, rfl⟩ := runCommand_cases cs e s t (hrun ▸ h)
  · obtain ⟨c, hc, rfl⟩ := mem_of_firstFault hf
    exact .inl ⟨c.2, hlawful.kinds c hc, rfl⟩
  · exact .inr ⟨e s, hlawful.frame, hlawful.memOk hpass, hlawful.permOk hpass, rfl⟩

/-- Settles O24: fault entry and completion change STATUS and ERRCODE, and the effect keeps what
`withoutResults` keeps. -/
theorem commandsKeepOperandRegisters : Obligations.CommandsKeepOperandRegisters := by
  unfold Obligations.CommandsKeepOperandRegisters
  intro i s t h
  obtain ⟨f, -, rfl⟩ | ⟨u, hframe, -, -, rfl⟩ := exec_cases h
  · exact ⟨rfl, rfl, rfl, rfl, rfl, rfl, rfl, rfl, rfl, rfl, rfl, rfl, rfl, rfl, rfl, rfl, rfl⟩
  · have keeps {α : Type} (field : State → α) : field u.withoutResults = field s.withoutResults :=
      congrArg field hframe
    exact ⟨keeps State.cmd, keeps State.src, keeps State.dst, keeps State.len, keeps State.width,
      keeps State.height, keeps State.iters, keeps State.keylen, keeps State.ivlen, keeps State.arg,
      keeps State.key, keeps State.iv, keeps State.memBytes, keeps State.nblkMax, keeps State.memEpoch,
      keeps State.inbox, keeps State.replies⟩

end Sys2Proof.Machine
end

section
/-! SUPPORT. The invariant: it holds after a reset, and every transaction keeps it. -/

namespace Sys2Proof.Machine

/-! ## Reset -/

theorem resetOf_permOk (memBytes nblkMax : Nat) : (State.resetOf memBytes nblkMax).PermOk :=
  ⟨.refl [], Nat.zero_le _⟩

theorem resetOf_statusOk (memBytes nblkMax : Nat) : (State.resetOf memBytes nblkMax).StatusOk := by
  have hdone : (State.resetOf memBytes nblkMax).doneFlag = false := by simp [State.doneFlag, State.resetOf]
  have herr : (State.resetOf memBytes nblkMax).errFlag = false := by simp [State.errFlag, State.resetOf]
  exact ⟨fun h => Bool.false_ne_true (hdone.symm.trans h.1), iff_of_true herr rfl, List.mem_cons_self⟩

theorem resetOf_inv {memBytes nblkMax : Nat} (hpos : 1 ≤ memBytes) (hmax : memBytes ≤ 2 ^ 32)
    (hblk : 1 ≤ nblkMax) : (State.resetOf memBytes nblkMax).Inv :=
  ⟨⟨hpos, hmax, hblk⟩, ⟨.nil, List.forall_mem_nil _⟩, resetOf_permOk _ _, resetOf_statusOk _ _⟩

/-- Settles O20: `resetOf_inv`, and the model's own sizes are legal. -/
theorem resetHasInvariant : Obligations.ResetHasInvariant := by
  unfold Obligations.ResetHasInvariant
  exact ⟨resetOf_inv (by decide) (by decide) (by decide), fun _ _ => resetOf_inv⟩

theorem State.softReset_inv {s : State} (h : s.Inv) : s.softReset.Inv := by
  obtain ⟨hparams, hmem, -, -⟩ := h
  exact ⟨hparams, hmem, resetOf_permOk s.memBytes s.nblkMax, resetOf_statusOk s.memBytes s.nblkMax⟩

theorem State.externalReset_inv {s : State} (h : s.Inv) : s.externalReset.Inv := by
  obtain ⟨hparams, -, -, -⟩ := h
  exact ⟨hparams, ⟨.nil, List.forall_mem_nil _⟩, resetOf_permOk s.memBytes s.nblkMax,
    resetOf_statusOk s.memBytes s.nblkMax⟩

/-! ## Host accesses -/

theorem State.withInbox_inv (s : State) (ts : List Transaction) : (s.withInbox ts).Inv ↔ s.Inv := Iff.rfl

theorem State.pushReply_inv (s : State) (r : Reply) : (s.pushReply r).Inv ↔ s.Inv := Iff.rfl

theorem State.withCmd_inv (s : State) (v : Word) : (s.withCmd v).Inv ↔ s.Inv := Iff.rfl

theorem State.storeReg_inv (s : State) (r : Reg) (v : Word) : (s.storeReg r v).Inv ↔ s.Inv := by
  cases r <;> exact Iff.rfl

theorem State.memWrite_inv {s : State} (h : s.Inv) (a : Nat) (b : Byte) : (s.memWrite a b).Inv := by
  unfold State.memWrite
  split
  · rename_i ha
    obtain ⟨hparams, hmem, hperm, hstatus⟩ := h
    exact ⟨hparams, hmem.writeMem fun _ => ha, (s.writeMem_permOk _ _).2 hperm, hstatus⟩
  · exact h

theorem State.writeCtrl_inv {s : State} (h : s.Inv) (v : Word) : (s.writeCtrl v).Inv := by
  unfold State.writeCtrl
  split
  · exact State.softReset_inv h
  · exact h

/-! ## Faults and commands -/

/-- Fault entry latches one of the three codes a step may raise. -/
theorem State.takeFault_inv {s : State} (h : s.Inv) {f : FaultKind} (hf : f ≠ .dimensionMismatch) :
    (s.takeFault f).Inv := by
  obtain ⟨hparams, hmem, hperm, -⟩ := h
  have hcode : f.code ≠ 0#8 ∧ f.code ∈ [0#8, 1#8, 2#8, 4#8] := by
    cases f with
    | dimensionMismatch => exact absurd rfl hf
    | _ => decide
  exact ⟨hparams, hmem, hperm, by simp, by simpa using hcode.1, hcode.2⟩

/-- Completion sets DONE, which rule R23 forbids only beside ERR. -/
theorem State.complete_inv {s : State} (h : s.Inv) (herr : s.errFlag = false) : s.complete.Inv := by
  obtain ⟨hparams, hmem, hperm, -, hiff, hcode⟩ := h
  exact ⟨hparams, hmem, hperm, by simp [herr], by simpa using hiff, hcode⟩

theorem State.withoutResults_paramsOk (s : State) : s.withoutResults.ParamsOk ↔ s.ParamsOk := Iff.rfl

theorem State.withoutResults_statusOk (s : State) : s.withoutResults.StatusOk ↔ s.StatusOk := Iff.rfl

/-- A command that runs while ERR is clear keeps the invariant. -/
theorem exec_inv {i : Instr} {s t : State} (h : exec i s = .next t) (hs : s.Inv) (herr : s.errFlag = false) :
    t.Inv := by
  obtain ⟨f, hf, rfl⟩ | ⟨u, hframe, hmem, hperm, rfl⟩ := exec_cases h
  · exact State.takeFault_inv hs hf
  · obtain ⟨hparams, hsmem, hsperm, hstatus⟩ := hs
    rw [← State.withoutResults_paramsOk, ← hframe] at hparams
    rw [← State.withoutResults_statusOk, ← hframe] at hstatus
    exact State.complete_inv ⟨hparams, hmem hsmem, hperm hsperm, hstatus⟩
      ((congrArg State.errFlag hframe).trans herr)

/-! ## Transactions and steps -/

theorem State.writeCmd_inv {s t : State} {v : Word} (h : s.writeCmd v = .next t) (hs : s.Inv) : t.Inv := by
  obtain ⟨-, rfl⟩ | ⟨-, -, rfl⟩ | ⟨herr, i, -, hexec⟩ := s.writeCmd_cases t v h
  · exact hs
  · exact State.takeFault_inv ((s.withCmd_inv v).2 hs) (by decide)
  · exact exec_inv hexec ((s.withCmd_inv v).2 hs) herr

theorem State.regWrite_inv {s t : State} {i v : Word} (h : s.regWrite i v = .next t) (hs : s.Inv) :
    t.Inv := by
  obtain ⟨-, rfl⟩ | ⟨-, hcmd⟩ | ⟨-, rfl⟩ | ⟨r, -, -, -, rfl⟩ := s.regWrite_cases t i v h
  · exact hs
  · exact State.writeCmd_inv hcmd hs
  · exact State.writeCtrl_inv hs v
  · exact (s.storeReg_inv r v).2 hs

theorem serve_inv {x : Transaction} {s t : State} (h : serve x s = .next t) (hs : s.Inv) : t.Inv := by
  cases x with
  | regWrite i v => exact State.regWrite_inv h hs
  | regRead i => cases h; exact hs
  | memRead a => cases h; exact hs
  | memWrite a b => cases h; exact State.memWrite_inv hs a b
  | externalReset => cases h; exact State.externalReset_inv hs

theorem step_inv {s t : State} (h : step s = .next t) (hs : s.Inv) : t.Inv := by
  obtain ⟨-, rfl⟩ | ⟨x, rest, u, -, hserve, rfl⟩ := step_cases s t h
  · exact hs
  · exact (u.pushReply_inv _).2 (serve_inv hserve ((s.withInbox_inv rest).2 hs))

/-- Settles O21: whatever transaction the step serves, `step_inv`. -/
theorem stepKeepsInvariant : Obligations.StepKeepsInvariant := by
  unfold Obligations.StepKeepsInvariant
  exact fun s t hs h => step_inv h hs

end Sys2Proof.Machine
end

section
/-! SUPPORT. Who writes which byte of MEM: the host's memory transactions, and the three commands with a
destination buffer. -/

namespace Sys2Proof.Machine

/-! ## One byte after a write -/

theorem State.memByte_writeMem_outside (s : State) {a x : Nat} {bytes : List Byte}
    (hx : x < a ∨ a + bytes.length ≤ x) : (s.writeMem a bytes).memByte x = s.memByte x := by
  rw [State.memByte_writeMem, if_neg (by omega)]

theorem State.memByte_writeMem_singleton_same (s : State) (a : Nat) (b : Byte) :
    (s.writeMem a [b]).memByte a = b := by
  simp [State.memByte_writeMem]

theorem State.memByte_writeMem_singleton_other (s : State) {a x : Nat} (b : Byte) (hx : x ≠ a) :
    (s.writeMem a [b]).memByte x = s.memByte x :=
  s.memByte_writeMem_outside (by rw [List.length_singleton]; omega)

@[simp] theorem State.memByte_answered (s : State) (r : Reply) (x : Nat) :
    (Spec.answered s r).memByte x = s.memByte x := rfl

/-! ## Host memory transactions (rule R51) -/

theorem State.memWrite_inside (s : State) {a : Nat} (h : a < s.memBytes) (b : Byte) :
    s.memWrite a b = s.writeMem a [b] := if_pos h

theorem State.memWrite_beyond (s : State) {a : Nat} (h : ¬a < s.memBytes) (b : Byte) :
    s.memWrite a b = s := if_neg h

theorem step_offer_memRead (s : State) (a : Nat) :
    step (Spec.offer s (.memRead a)) =
      .next (Spec.answered s (.byte (if a < s.memBytes then s.memByte a else 0#8))) := step_offer rfl

theorem step_offer_memWrite (s : State) (a : Nat) (b : Byte) :
    step (Spec.offer s (.memWrite a b)) = .next (Spec.answered (s.memWrite a b) .nothing) := step_offer rfl

/-- Settles O11: serving a read leaves the state as it is, and the reply is what the two read rules say. -/
theorem readsChangeNothing : Obligations.ReadsChangeNothing := by
  unfold Obligations.ReadsChangeNothing
  exact fun s => ⟨step_offer_regRead s, step_offer_memRead s⟩

/-- Settles O15: inside MEM the write is a buffer write of one byte, beyond it nothing. -/
theorem hostMemoryAccess : Obligations.HostMemoryAccess := by
  unfold Obligations.HostMemoryAccess
  intro s a b
  constructor
  · intro ha
    refine ⟨by rw [step_offer_memRead, if_pos ha], Spec.answered (s.writeMem a [b]) .nothing, ?_, rfl, ?_,
      fun x hx => ?_⟩
    · rw [step_offer_memWrite, s.memWrite_inside ha]
    · rw [State.memByte_answered, State.memByte_writeMem_singleton_same]
    · rw [State.memByte_answered, s.memByte_writeMem_singleton_other b hx]
  · intro ha
    constructor
    · rw [step_offer_memRead, if_neg ha]
    · rw [step_offer_memWrite, s.memWrite_beyond ha]

/-! ## What a command leaves of MEM (rule R68) -/

/-- A command leaves MEM alone when its effect does. -/
theorem runCommand_mem {cs : List (Bool × FaultKind)} {e : State → State} {s t : State}
    (h : runCommand cs e s = .next t) (he : (e s).mem = s.mem) : t.mem = s.mem := by
  obtain ⟨f, -, rfl⟩ | ⟨-, rfl⟩ := runCommand_cases cs e s t h
  · exact s.takeFault_mem f
  · rw [State.complete_mem, he]

/-- A command leaves a byte alone when its effect does; the effect may count on the checks having passed. -/
theorem runCommand_memByte {cs : List (Bool × FaultKind)} {e : State → State} {s t : State} {x : Nat}
    (h : runCommand cs e s = .next t) (he : firstFault cs = none → (e s).memByte x = s.memByte x) :
    t.memByte x = s.memByte x := by
  obtain ⟨f, -, rfl⟩ | ⟨hpass, rfl⟩ := runCommand_cases cs e s t h
  · exact s.takeFault_memByte f x
  · rw [State.complete_memByte, he hpass]

theorem disjoint_eq_true_iff {a b n : Nat} : disjoint a b n = true ↔ a + n ≤ b ∨ b + n ≤ a := by
  simp [disjoint]

theorem State.partialOverlap_passed {s : State} (h : s.partialOverlap.1 = false) (hne : s.src ≠ s.dst) :
    s.src.toNat + s.len.toNat ≤ s.dst.toNat ∨ s.dst.toNat + s.len.toNat ≤ s.src.toNat := by
  have hnat : s.src.toNat ≠ s.dst.toNat := fun e => hne (BitVec.eq_of_toNat_eq e)
  simpa [State.partialOverlap, disjoint_eq_true_iff, hnat] using h

theorem State.imagesOverlap_passed {s : State} (h : s.imagesOverlap.1 = false) :
    s.src.toNat + s.imageBytes ≤ s.dst.toNat ∨ s.dst.toNat + s.imageBytes ≤ s.src.toNat := by
  simpa [State.imagesOverlap, disjoint_eq_true_iff] using h

/-- KSGEN writes LEN bytes from DST. -/
theorem exec_ksgen_memByte {s t : State} {x : Nat} (h : exec .ksgen s = .next t)
    (hx : x < s.dst.toNat ∨ s.dst.toNat + s.len.toNat ≤ x) : t.memByte x = s.memByte x := by
  unfold exec execKsgen at h
  refine runCommand_memByte h fun _ => ?_
  rw [State.memByte_writeMem_outside _ (by rwa [generateKeyStream_length]), State.withPrng_memByte]

/-- SXF writes LEN bytes from DST. That a byte lies outside them may be concluded from the check that a source
other than the destination is disjoint from it (rule R112), since an overlap faults. -/
theorem exec_sxf_memByte {s t : State} {x : Nat} (h : exec .sxf s = .next t)
    (hx : (s.src ≠ s.dst →
        s.src.toNat + s.len.toNat ≤ s.dst.toNat ∨ s.dst.toNat + s.len.toNat ≤ s.src.toNat) →
      x < s.dst.toNat ∨ s.dst.toNat + s.len.toNat ≤ x) : t.memByte x = s.memByte x := by
  unfold exec execSxf at h
  refine runCommand_memByte h fun hpass => ?_
  have hout := hx (State.partialOverlap_passed (firstFault_eq_none_iff.1 hpass _ (by simp)))
  rw [State.memByte_writeMem_outside _ (by rwa [transform_length, State.readBuf_length]),
    State.withPrng_memByte]

/-- BREMAP writes an image from DST. That a byte lies outside it may be concluded from the check that the two
images are disjoint (rule R155). -/
theorem exec_bremap_memByte {s t : State} {x : Nat} (h : exec .bremap s = .next t)
    (hx : s.src.toNat + s.imageBytes ≤ s.dst.toNat ∨ s.dst.toNat + s.imageBytes ≤ s.src.toNat →
      x < s.dst.toNat ∨ s.dst.toNat + s.imageBytes ≤ x) : t.memByte x = s.memByte x := by
  unfold exec execBremap at h
  refine runCommand_memByte h fun hpass => ?_
  have hout := hx (State.imagesOverlap_passed (firstFault_eq_none_iff.1 hpass _ (by simp)))
  exact s.memByte_writeMem_outside (by rwa [remap_length])

/-- The commands without a destination buffer leave the whole of MEM: their effects update registers and
PERM. -/
theorem exec_mem {i : Instr} {s t : State} (h : exec i s = .next t) (hksgen : i ≠ .ksgen) (hsxf : i ≠ .sxf)
    (hbremap : i ≠ .bremap) : t.mem = s.mem := by
  cases i with
  | ksgen => exact absurd rfl hksgen
  | sxf => exact absurd rfl hsxf
  | bremap => exact absurd rfl hbremap
  | kseed => unfold exec execKseed at h; exact runCommand_mem h (s.withPrng_mem _)
  | kchunk =>
    unfold exec execKchunk at h
    exact runCommand_mem h ((State.withKout_mem _ _ _).trans (s.withPrng_mem _))
  | cseed => unfold exec execCseed at h; exact runCommand_mem h (s.withSeed_mem _)
  | lgen => unfold exec execLgen at h; exact runCommand_mem h (s.withRes_mem _)
  | pinit => unfold exec execPinit at h; exact runCommand_mem h (s.withMapping_mem _ _)
  | shuf => unfold exec execShuf at h; exact runCommand_mem h (s.withPerm_mem _)
  | prev => rw [exec_prev_eq_runCommand] at h; exact runCommand_mem h (s.withPerm_mem _)
  | pbuild => unfold exec execPbuild at h; exact runCommand_mem h (s.withMapping_mem _ _)
  | pinv => unfold exec execPinv at h; exact runCommand_mem h (s.withPerm_mem _)
  | hist => unfold exec execHist at h; exact runCommand_mem h (s.withHistogram_mem _ _ _)
  | corr => unfold exec execCorr at h; exact runCommand_mem h (s.withCorr_mem _ _ _)

/-- Settles O25: a source byte lies outside the destination, because a command whose buffers overlap
faults. -/
theorem commandsWriteOnlyDestination : Obligations.CommandsWriteOnlyDestination := by
  unfold Obligations.CommandsWriteOnlyDestination
  intro i s t h
  refine ⟨?_, ?_, ?_, exec_mem h⟩
  · rintro (rfl | rfl) a ha
    · exact exec_ksgen_memByte h ha
    · exact exec_sxf_memByte h fun _ => ha
  · rintro rfl hne a hlo hhi
    refine exec_sxf_memByte h fun hdisjoint => ?_
    have := hdisjoint hne
    omega
  · rintro rfl a ha
    have himage : s.imageBytes = 3 * s.width.toNat * s.height.toNat := rfl
    refine exec_bremap_memByte h fun hdisjoint => ?_
    rw [himage] at hdisjoint ⊢
    omega

end Sys2Proof.Machine
end

section
/-! SUPPORT. The decoder and the encoder are inverse to each other, and the encoder's values are the `match`
column of rule R73. -/

namespace Sys2Proof.Machine

/-! ## The two fields of a command word, as numbers -/

theorem opc_toNat (v : Word) : (v.extractLsb' 0 8).toNat = v.toNat % 2 ^ 8 := by
  simp [BitVec.extractLsb'_toNat]

theorem rsv_eq_zero_iff (v : Word) : v.extractLsb' 8 24 = 0#24 ↔ v.toNat / 2 ^ 8 = 0 := by
  have hv : v.toNat / 2 ^ 8 < 2 ^ 24 := by omega
  rw [← BitVec.toNat_inj, BitVec.extractLsb'_toNat, Nat.shiftRight_eq_div_pow, Nat.mod_eq_of_lt hv,
    BitVec.toNat_zero]

/-! ## Decoding and encoding -/

/-- Every command's word decodes to the command (rule R73). -/
@[simp] theorem decode_encode (i : Instr) : decode (encode i) = .ok i := by
  have hround : Laws.RoundTrip.Statement i := by
    cases i with
    | kseed => exact Laws.RoundTrip.kseed
    | kchunk => exact Laws.RoundTrip.kchunk
    | ksgen => exact Laws.RoundTrip.ksgen
    | sxf => exact Laws.RoundTrip.sxf
    | cseed => exact Laws.RoundTrip.cseed
    | lgen => exact Laws.RoundTrip.lgen
    | pinit => exact Laws.RoundTrip.pinit
    | shuf => exact Laws.RoundTrip.shuf
    | prev => exact Laws.RoundTrip.prev
    | pbuild => exact Laws.RoundTrip.pbuild
    | pinv => exact Laws.RoundTrip.pinv
    | bremap => exact Laws.RoundTrip.bremap
    | hist => exact Laws.RoundTrip.hist
    | corr => exact Laws.RoundTrip.corr
  obtain ⟨-, hdecode, -⟩ := hround
  exact hdecode

/-- A word that decodes has no reserved bit set, and its opcode is the one of the command's own word (rule
R71). -/
theorem fields_of_decode {v : Word} {i : Instr} (h : decode v = .ok i) :
    v.extractLsb' 8 24 = 0#24 ∧ (v.extractLsb' 0 8).toNat = (encode i).toNat := by
  unfold decode at h
  split at h
  case isTrue => cases h
  case isFalse hrsv =>
    refine ⟨not_not.1 hrsv, ?_⟩
    split at h <;> cases h <;> assumption

/-- No other word decodes to a command: the opcode of a word without reserved bits is the whole word. -/
theorem encode_of_decode {v : Word} {i : Instr} (h : decode v = .ok i) : encode i = v := by
  obtain ⟨hrsv, hopc⟩ := fields_of_decode h
  rw [rsv_eq_zero_iff] at hrsv
  rw [opc_toNat] at hopc
  exact BitVec.eq_of_toNat_eq (by omega)

theorem decode_eq_ok_iff {v : Word} {i : Instr} : decode v = .ok i ↔ encode i = v :=
  ⟨encode_of_decode, fun h => h ▸ decode_encode i⟩

/-! ## The legal words -/

theorem mem_matchValues_iff {n : Nat} : n ∈ Spec.matchValues ↔ ∃ i, (encode i).toNat = n := by
  constructor
  · have hall : ∀ m ∈ Spec.matchValues, ∃ i, (encode i).toNat = m := by
      simp only [Spec.matchValues, List.forall_mem_cons]
      exact ⟨⟨.kseed, rfl⟩, ⟨.kchunk, rfl⟩, ⟨.ksgen, rfl⟩, ⟨.sxf, rfl⟩, ⟨.cseed, rfl⟩, ⟨.lgen, rfl⟩,
        ⟨.pinit, rfl⟩, ⟨.shuf, rfl⟩, ⟨.prev, rfl⟩, ⟨.pbuild, rfl⟩, ⟨.pinv, rfl⟩, ⟨.bremap, rfl⟩,
        ⟨.hist, rfl⟩, ⟨.corr, rfl⟩, List.forall_mem_nil _⟩
    exact hall n
  · rintro ⟨i, rfl⟩
    cases i <;> decide

/-- The decoder accepts exactly the `match` values (rules R71, R74). -/
theorem decode_accepts_iff (v : Word) : (∃ i, decode v = .ok i) ↔ v.toNat ∈ Spec.matchValues := by
  simp only [decode_eq_ok_iff, mem_matchValues_iff, BitVec.toNat_inj]

theorem decode_rejects_iff (v : Word) : (∃ e, decode v = .error e) ↔ v.toNat ∉ Spec.matchValues := by
  rw [← decode_accepts_iff]
  cases decode v with
  | ok i => simp
  | error e => simp

/-- Settles O2: decoding inverts encoding, and what it rejects is what no command encodes to. -/
theorem onlyMatchValuesDecode : Obligations.OnlyMatchValuesDecode := by
  unfold Obligations.OnlyMatchValuesDecode
  exact fun v => ⟨fun _ => decode_eq_ok_iff, decode_rejects_iff v⟩

/-- Settles O1: the written-out words are the encodings of the fourteen commands. -/
theorem commandWordsDecode : Obligations.CommandWordsDecode := by
  unfold Obligations.CommandWordsDecode
  exact ⟨decode_encode .kseed, decode_encode .kchunk, decode_encode .ksgen, decode_encode .sxf,
    decode_encode .cseed, decode_encode .lgen, decode_encode .pinit, decode_encode .shuf,
    decode_encode .prev, decode_encode .pbuild, decode_encode .pinv, decode_encode .bremap,
    decode_encode .hist, decode_encode .corr⟩

end Sys2Proof.Machine
end

section
/-! SUPPORT. The keystream PRNG unit against the formulas of `Spec`: the bytes of a word, the seeding, one
`customPRNG` run, one chunk, and the bytes of a keystream. -/

namespace Sys2Proof.Machine

/-! ## The bytes of a word -/

theorem toNat_append_eq_add {m n : Nat} (x : BitVec m) (y : BitVec n) :
    (x ++ y).toNat = x.toNat * 2 ^ n + y.toNat := by
  rw [BitVec.toNat_append, ← Nat.shiftLeft_add_eq_or_of_lt y.isLt, Nat.shiftLeft_eq]

/-- Four bytes written after each other, as the sum of rule R93. -/
theorem toNat_fourBytes (a b c d : Byte) :
    (a ++ b ++ c ++ d : Word).toNat =
      a.toNat * 2 ^ 24 + b.toNat * 2 ^ 16 + c.toNat * 2 ^ 8 + d.toNat := by
  simp only [toNat_append_eq_add]
  omega

/-- Byte `j` of four bytes written after each other, counted from the most significant. -/
theorem extractLsb'_fourBytes (a b c d : Byte) {j : Nat} (hj : j < 4) :
    (a ++ b ++ c ++ d : Word).extractLsb' (8 * (3 - j)) 8 = [a, b, c, d].getD j 0 := by
  refine BitVec.eq_of_toNat_eq ?_
  rw [BitVec.extractLsb'_toNat, toNat_fourBytes, Nat.shiftRight_eq_div_pow]
  interval_cases j
  all_goals
    simp only [List.getD_cons_zero, List.getD_cons_succ]
    omega

/-- Byte `j` of a packed word (rule R93). -/
theorem packBE_byte (b : List Byte) (o : Nat) {j : Nat} (hj : j < 4) :
    (packBE b o).extractLsb' (8 * (3 - j)) 8 = b.getD (o + j) 0 := by
  rw [packBE, extractLsb'_fourBytes _ _ _ _ hj]
  interval_cases j <;> rfl

/-- A word is its four bytes. -/
theorem word_eq_of_bytes {v w : Word}
    (h : ∀ j < 4, v.extractLsb' (8 * (3 - j)) 8 = w.extractLsb' (8 * (3 - j)) 8) : v = w := by
  refine BitVec.eq_of_getLsbD_eq fun i hi => ?_
  have hbit := congrArg (fun b : Byte => b.getLsbD (i % 8)) (h (3 - i / 8) (by omega))
  have hlt : i % 8 < 8 := Nat.mod_lt _ (by decide)
  have hpos : 8 * (3 - (3 - i / 8)) + i % 8 = i := by omega
  simpa [hlt, hpos] using hbit

/-! ## The seeding (rules R92, R93) -/

/-- The first `n` bytes of a register file, read beyond their end as zero. -/
theorem RegFile.getD_take_cells (f : RegFile 8 16) (n k : Nat) :
    (f.cells.take n).getD k 0 = if k < n then f.get k else 0 := by
  simp only [RegFile.get, List.getD_eq_getElem?_getD, List.getElem?_take]
  split <;> rfl

theorem packBE_toNat (b : List Byte) (o : Nat) :
    (packBE b o).toNat =
      ((List.range 4).map fun k => (b.getD (o + k) 0).toNat * 2 ^ (8 * (3 - k))).sum := by
  rw [packBE, toNat_fourBytes]
  simp [List.range_succ, Nat.add_assoc]

theorem packBE_take_cells (f : RegFile 8 16) (n o : Nat) :
    packBE (f.cells.take n) o = Spec.packSum f n o := by
  have hterm (k : Nat) : ((f.cells.take n).getD (o + k) 0).toNat * 2 ^ (8 * (3 - k)) =
      if o + k < n then (f.get (o + k)).toNat * 2 ^ (8 * (3 - k)) else 0 := by
    rw [f.getD_take_cells]
    split
    · rfl
    · exact Nat.zero_mul _
  calc packBE (f.cells.take n) o = BitVec.ofNat 32 (packBE (f.cells.take n) o).toNat := by
        rw [BitVec.ofNat_toNat, BitVec.setWidth_eq]
    _ = Spec.packSum f n o := by
        rw [packBE_toNat]
        simp only [hterm]
        rfl

theorem seedState_eq_seeded (s : State) : seedState s.keyBytes s.ivBytes = Spec.seeded s := by
  have hkey (o : Nat) : packBE s.keyBytes o = Spec.packSum s.key s.keylen.toNat o :=
    packBE_take_cells s.key _ o
  have hiv (o : Nat) : packBE s.ivBytes o = Spec.packSum s.iv s.ivlen.toNat o :=
    packBE_take_cells s.iv _ o
  simp only [seedState, hkey, hiv]
  rfl

/-! ## One run of the PRNG (rule R90) -/

/-- The two shifts of a pair meet in no bit, so that XORing both in is XORing the rotation in. -/
theorem shl32_xor_shr32 (a : Word) {n : Nat} (hn : n ≤ 32) :
    shl32 a n ^^^ shr32 a (32 - n) = rotl32 a n := by
  refine BitVec.eq_of_getLsbD_eq fun i hi => ?_
  simp only [rotl32, shl32, shr32, BitVec.getLsbD_xor, BitVec.getLsbD_or, BitVec.getLsbD_shiftLeft,
    BitVec.getLsbD_ushiftRight]
  by_cases h : i < n
  · simp [h]
  · have : a.getLsbD (32 - n + i) = false := BitVec.getLsbD_of_ge _ _ (by omega)
    simp [this]

theorem rotl32_eq_rotateLeft (a : Word) {n : Nat} (hn : n < 32) : rotl32 a n = a.rotateLeft n := by
  rw [BitVec.rotateLeft_def, Nat.mod_eq_of_lt hn]
  rfl

theorem customPRNG_eq_prng (x y : Word) : customPRNG x y = Spec.prng x y := by
  have hpair (a : Word) : a ^^^ shl32 a 13 ^^^ prngShr a 19 = a ^^^ a.rotateLeft 13 := by
    rw [BitVec.xor_assoc, prngShr, shl32_xor_shr32 a (n := 13) (by decide),
      rotl32_eq_rotateLeft a (by decide)]
  simp only [customPRNG, hpair, rotl32_eq_rotateLeft y (n := 7) (by decide)]
  rfl

theorem nextState_eq_advanced (S : PrngState) : nextState S = Spec.advanced S := by
  simp only [nextState, Spec.advanced, customPRNG_eq_prng]

/-! ## One chunk (rules R94, R95) -/

theorem nibbleAt_eq_extractLsb' (w : Word) (sh : Nat) : nibbleAt w sh = w.extractLsb' sh 4 := by
  refine BitVec.eq_of_getLsbD_eq fun i hi => ?_
  simp [nibbleAt, shr32]

theorem nibbleWord_byte (b d : Word) (o : Nat) {j : Nat} (hj : j < 4) :
    (Spec.nibbleWord b d o).extractLsb' (8 * (3 - j)) 8 =
      b.extractLsb' (o + 4 * j) 4 ++ d.extractLsb' (o + 4 * j) 4 := by
  rw [Spec.nibbleWord, extractLsb'_fourBytes _ _ _ _ hj]
  interval_cases j <;> rfl

theorem bytesBE_getD (w : Word) {j : Nat} (hj : j < 4) :
    (bytesBE w).getD j 0 = w.extractLsb' (8 * (3 - j)) 8 := by
  interval_cases j <;> rfl

/-- Chunk byte `j` of the first half comes from S0, of the second from S2. -/
theorem chunkBytes_getD (S : PrngState) {j : Nat} (hj : j < 8) :
    (chunkBytes S).getD j 0 = (Spec.chunkWord S (j / 4)).extractLsb' (8 * (3 - j % 4)) 8 := by
  have hmap : (chunkBytes S).getD j 0 =
      (bytesBE S.s0 ++ bytesBE S.s2).getD j 0 ^^^ nibbleByte S j := by
    simp [chunkBytes, hj]
  have hmod : j % 4 < 4 := Nat.mod_lt j (by decide)
  rw [hmap, nibbleByte, nibbleAt_eq_extractLsb', nibbleAt_eq_extractLsb']
  by_cases hhalf : j < 4
  · rw [List.getD_append _ _ _ _ hhalf, bytesBE_getD _ hhalf, Nat.div_eq_of_lt hhalf, Spec.chunkWord,
      if_pos rfl, BitVec.extractLsb'_xor, nibbleWord_byte _ _ _ hmod, Nat.mod_eq_of_lt hhalf,
      Nat.zero_add, Nat.mod_eq_of_lt (show 4 * j < 32 by omega)]
  · have hlen : (bytesBE S.s0).length ≤ j := Nat.le_of_not_lt hhalf
    have hdiv : j / 4 = 1 := by omega
    have hsub : j - (bytesBE S.s0).length = j % 4 := show j - 4 = j % 4 by omega
    have hoff : 4 * j % 32 = 16 + 4 * (j % 4) := by omega
    rw [List.getD_append_right _ _ _ _ hlen, hsub, bytesBE_getD _ hmod, hdiv, Spec.chunkWord,
      if_neg (by decide), BitVec.extractLsb'_xor, nibbleWord_byte _ _ _ hmod, hoff]

theorem packBE_chunkBytes (S : PrngState) {half : Nat} (hhalf : half < 2) :
    packBE (chunkBytes S) (4 * half) = Spec.chunkWord S half := by
  refine word_eq_of_bytes fun j hj => ?_
  have hdiv : (4 * half + j) / 4 = half := by omega
  have hmod : (4 * half + j) % 4 = j := by omega
  rw [packBE_byte _ _ hj, chunkBytes_getD S (by omega), hdiv, hmod]

/-! ## Chunk after chunk (rule R96) -/

theorem chunks_succ (k : Nat) (S : PrngState) :
    chunks (k + 1) S =
      (chunkBytes (nextState S) ++ (chunks k (nextState S)).1, (chunks k (nextState S)).2) := rfl

theorem chunks_state (k : Nat) (S : PrngState) : (chunks k S).2 = Spec.advanced^[k] S := by
  induction k generalizing S with
  | zero => rfl
  | succ k ih => rw [chunks_succ, ih, nextState_eq_advanced, Function.iterate_succ_apply]

/-- More chunks only add bytes at the end. -/
theorem chunks_append {k l : Nat} (h : k ≤ l) (S : PrngState) :
    ∃ rest, (chunks l S).1 = (chunks k S).1 ++ rest := by
  induction k generalizing l S with
  | zero => exact ⟨_, rfl⟩
  | succ k ih =>
    obtain ⟨l, rfl⟩ : ∃ l', l = l' + 1 := ⟨l - 1, by omega⟩
    obtain ⟨rest, hrest⟩ := ih (Nat.le_of_succ_le_succ h) (nextState S)
    exact ⟨rest, by rw [chunks_succ, chunks_succ, hrest, List.append_assoc]⟩

/-- Byte `i` of a run of chunks is byte `i mod 8` of chunk number `i div 8`. -/
theorem chunks_getD {k i : Nat} (hi : i < 8 * k) (S : PrngState) :
    (chunks k S).1.getD i 0 = (chunkBytes (Spec.advanced^[i / 8 + 1] S)).getD (i % 8) 0 := by
  induction k generalizing i S with
  | zero => omega
  | succ k ih =>
    rw [chunks_succ, nextState_eq_advanced, Function.iterate_succ_apply]
    by_cases hfirst : i < 8
    · rw [List.getD_append _ _ _ _ (by rwa [chunkBytes_length]), Nat.mod_eq_of_lt hfirst,
        Nat.div_eq_of_lt hfirst, Function.iterate_zero_apply]
    · obtain ⟨i, rfl⟩ : ∃ i', i = i' + 8 := ⟨i - 8, by omega⟩
      rw [List.getD_append_right _ _ _ _ (by rw [chunkBytes_length]; omega), chunkBytes_length,
        Nat.add_sub_cancel, ih (by omega), Nat.add_mod_right, Nat.add_div_right i (by decide),
        ← Function.iterate_succ_apply, Function.iterate_succ_apply]

theorem length_le_chunkCount (n : Nat) : n ≤ 8 * chunkCount n := by
  unfold chunkCount
  omega

theorem chunkCount_mono {n m : Nat} (h : n ≤ m) : chunkCount n ≤ chunkCount m :=
  Nat.div_le_div_right (Nat.add_le_add_right h 7)

theorem generateKeyStream_state (s : State) (n : Nat) :
    (generateKeyStream n s.keyBytes s.ivBytes).2 = Spec.prngAfter s ((n + 7) / 8) := by
  rw [generateKeyStream, seedState_eq_seeded, chunks_state]
  rfl

/-- Byte `i` of a keystream does not depend on how long the keystream is. -/
theorem generateKeyStream_getD (s : State) {n i : Nat} (hi : i < n) :
    (generateKeyStream n s.keyBytes s.ivBytes).1.getD i 0 = Spec.ksByte s i := by
  have hchunks : i < 8 * chunkCount n := hi.trans_le (length_le_chunkCount n)
  have hmod : i % 8 % 4 = i % 4 := Nat.mod_mod_of_dvd i (by decide)
  calc (generateKeyStream n s.keyBytes s.ivBytes).1.getD i 0
      = (chunks (chunkCount n) (Spec.seeded s)).1.getD i 0 := by
        simp only [generateKeyStream, seedState_eq_seeded, List.getD_eq_getElem?_getD,
          List.getElem?_take_of_lt hi]
    _ = (chunkBytes (Spec.prngAfter s (i / 8 + 1))).getD (i % 8) 0 := chunks_getD hchunks _
    _ = Spec.ksByte s i := by
        rw [chunkBytes_getD _ (Nat.mod_lt i (by decide)), hmod]
        rfl

/-- Settles O31: both keystreams are cut from runs of chunks, and the longer run only adds bytes at the
end. -/
theorem keystreamIsPrefix : Obligations.KeystreamIsPrefix := by
  unfold Obligations.KeystreamIsPrefix
  refine fun n m key iv h => ⟨?_, generateKeyStream_length n key iv⟩
  obtain ⟨rest, hrest⟩ := chunks_append (chunkCount_mono h) (seedState key iv)
  have hlen : n ≤ (chunks (chunkCount n) (seedState key iv)).1.length := by
    rw [chunks_length]
    exact length_le_chunkCount n
  simp only [generateKeyStream, List.take_take, Nat.min_eq_left h, hrest,
    List.take_append_of_le_length hlen]

end Sys2Proof.Machine
end

section
/-! SUPPORT. The commands of the keystream unit: what KSEED, KCHUNK and KSGEN leave, each as one chain of named
updates over the formulas of `Spec`. -/

namespace Sys2Proof.Machine

/-! ## The checks pass -/

theorem State.emptyKey_passes {s : State} (h : Spec.KeyOk s) : s.emptyKey.1 = false :=
  decide_eq_false (Nat.ne_of_gt h.1)

theorem State.longKeyOrIv_passes {s : State} (hkey : Spec.KeyOk s) (hiv : Spec.IvOk s) :
    s.longKeyOrIv.1 = false := by
  simp only [State.longKeyOrIv, Bool.or_eq_false_iff, decide_eq_false_iff_not, Nat.not_lt]
  exact ⟨hkey.2, hiv⟩

theorem State.ksgenOutOfMem_passes {s : State}
    (h : s.len.toNat = 0 ∨ s.dst.toNat + s.len.toNat ≤ s.memBytes) :
    s.ksgenOutOfMem.1 = false := by
  simp only [State.ksgenOutOfMem, State.inRange, Bool.and_eq_false_iff, decide_eq_false_iff_not,
    Bool.not_eq_false', decide_eq_true_iff]
  omega

/-! ## What the commands leave -/

/-- KSEED (rule R97). -/
theorem exec_kseed {s : State} (hkey : Spec.KeyOk s) (hiv : Spec.IvOk s) :
    exec .kseed s = .next (s.withPrng (Spec.seeded s)).complete := by
  have hpass : firstFault [s.emptyKey, s.longKeyOrIv] = none := by
    simp [firstFault_eq_none_iff, State.emptyKey_passes hkey, State.longKeyOrIv_passes hkey hiv]
  unfold exec execKseed
  rw [← seedState_eq_seeded]
  exact runCommand_done _ _ s hpass

/-- A state after one more chunk: S0..S3 advance and KOUT0, KOUT1 take the chunk's two words (rule R98). -/
def State.withNextChunk (s : State) : State :=
  (s.withPrng (Spec.advanced s.prng)).withKout (Spec.chunkWord (Spec.advanced s.prng) 0)
    (Spec.chunkWord (Spec.advanced s.prng) 1)

/-- KCHUNK (rule R98). -/
theorem exec_kchunk (s : State) : exec .kchunk s = .next s.withNextChunk.complete := by
  have hfirst (S : PrngState) : packBE (chunkBytes S) 0 = Spec.chunkWord S 0 :=
    packBE_chunkBytes S (half := 0) (by decide)
  have hsecond (S : PrngState) : packBE (chunkBytes S) 4 = Spec.chunkWord S 1 :=
    packBE_chunkBytes S (half := 1) (by decide)
  unfold exec execKchunk
  rw [runCommand_done _ _ s firstFault_nil]
  simp only [chunk, nextState_eq_advanced, hfirst, hsecond, State.withNextChunk]

/-- KSGEN (rule R99). -/
theorem exec_ksgen {s : State} (h : Spec.KsgenReady s) :
    exec .ksgen s = .next ((s.withPrng (Spec.prngAfter s ((s.len.toNat + 7) / 8))).writeMem s.dst.toNat
      (generateKeyStream s.len.toNat s.keyBytes s.ivBytes).1).complete := by
  obtain ⟨hkey, hiv, hmem⟩ := h
  have hpass : firstFault [s.emptyKey, s.longKeyOrIv, s.ksgenOutOfMem] = none := by
    simp [firstFault_eq_none_iff, State.emptyKey_passes hkey, State.longKeyOrIv_passes hkey hiv,
      State.ksgenOutOfMem_passes hmem]
  unfold exec execKsgen
  rw [← generateKeyStream_state]
  exact runCommand_done _ _ s hpass

/-! ## Single commands -/

/-- Settles O26: the named updates of `exec_kseed`, written out. -/
theorem kseedLoadsKeyAndIv : Obligations.KseedLoadsKeyAndIv := by
  unfold Obligations.KseedLoadsKeyAndIv
  exact fun s hkey hiv => exec_kseed hkey hiv

/-- Settles O27: the named updates of `exec_kchunk`, written out. -/
theorem kchunkAdvancesState : Obligations.KchunkAdvancesState := by
  unfold Obligations.KchunkAdvancesState
  exact exec_kchunk

/-- Settles O28: the zero words are a fixed point of the PRNG, and all their nibbles are zero. -/
theorem kchunkFixesZeroState : Obligations.KchunkFixesZeroState := by
  unfold Obligations.KchunkFixesZeroState
  intro s h0 h1 h2 h3
  have hprng : s.prng = ⟨0#32, 0#32, 0#32, 0#32⟩ := by rw [State.prng, h0, h1, h2, h3]
  have hfix : Spec.advanced ⟨0#32, 0#32, 0#32, 0#32⟩ = ⟨0#32, 0#32, 0#32, 0#32⟩ := by decide
  have hword (half : Nat) : Spec.chunkWord ⟨0#32, 0#32, 0#32, 0#32⟩ half = 0#32 := by
    unfold Spec.chunkWord
    split <;> decide
  have hself : s.withPrng ⟨0#32, 0#32, 0#32, 0#32⟩ = s := by
    rw [← hprng]
    rfl
  rw [exec_kchunk, State.withNextChunk, hprng, hfix, hword, hword, hself]
  rfl

/-! ## KSGEN -/

/-- Settles O29: the frame is that of `exec_ksgen`, the bytes are those of the buffer it writes. -/
theorem ksgenWritesKeystream : Obligations.KsgenWritesKeystream := by
  unfold Obligations.KsgenWritesKeystream
  intro s h
  refine ⟨_, exec_ksgen h, rfl, fun i hi => ?_, fun a ha => exec_ksgen_memByte (exec_ksgen h) ha⟩
  rw [State.complete_memByte, State.memByte_writeMem, generateKeyStream_length,
    if_pos ⟨Nat.le_add_right _ _, Nat.add_lt_add_left hi _⟩, Nat.add_sub_cancel_left,
    generateKeyStream_getD s hi]

/-- The seeding reads KEY, KEYLEN, IV and IVLEN only. -/
theorem seeded_congr {s s' : State} (hkey : s'.key = s.key) (hkeylen : s'.keylen = s.keylen)
    (hiv : s'.iv = s.iv) (hivlen : s'.ivlen = s.ivlen) : Spec.seeded s' = Spec.seeded s := by
  rw [Spec.seeded, Spec.seeded, hkey, hkeylen, hiv, hivlen]

/-- Settles O30: the bytes and the state KSGEN leaves are functions of the seeding and of LEN. -/
theorem ksgenDependsOnKeyAndIvOnly : Obligations.KsgenDependsOnKeyAndIvOnly := by
  unfold Obligations.KsgenDependsOnKeyAndIvOnly
  intro s s' h h' hkey hkeylen hiv hivlen hlen
  have hseeded : Spec.seeded s' = Spec.seeded s := seeded_congr hkey hkeylen hiv hivlen
  have hafter (k : Nat) : Spec.prngAfter s' k = Spec.prngAfter s k := by
    rw [Spec.prngAfter, Spec.prngAfter, hseeded]
  obtain ⟨t, hexec, hstate, hbytes, -⟩ := ksgenWritesKeystream s h
  obtain ⟨t', hexec', hstate', hbytes', -⟩ := ksgenWritesKeystream s' h'
  have hprng : t.prng = Spec.prngAfter s ((s.len.toNat + 7) / 8) := congrArg State.prng hstate
  have hprng' : t'.prng = Spec.prngAfter s' ((s'.len.toNat + 7) / 8) := congrArg State.prng hstate'
  refine ⟨t, t', hexec, hexec', ?_, fun i hi => ?_⟩
  · rw [hprng, hprng', hafter, hlen]
  · rw [hbytes i hi, hbytes' i (by rwa [hlen]), Spec.ksByte, Spec.ksByte, hafter]

/-! ## KSEED, then KCHUNK after KCHUNK -/

theorem after_kseed {s : State} (hkey : Spec.KeyOk s) (hiv : Spec.IvOk s) :
    Spec.after .kseed s = (s.withPrng (Spec.seeded s)).complete := by
  rw [Spec.after, exec_kseed hkey hiv]

theorem after_kchunk (s : State) : Spec.after .kchunk s = s.withNextChunk.complete := by
  rw [Spec.after, exec_kchunk]

theorem prng_after_kchunk (s : State) : (Spec.after .kchunk s).prng = Spec.advanced s.prng := by
  rw [after_kchunk]
  rfl

/-- After KSEED and `n` KCHUNKs S0..S3 hold the state after `n` chunks from the seeding. -/
theorem prng_after_kchunks {s : State} (hkey : Spec.KeyOk s) (hiv : Spec.IvOk s) (n : Nat) :
    ((Spec.after .kchunk)^[n] (Spec.after .kseed s)).prng = Spec.prngAfter s n := by
  rw [Spec.prngAfter, Function.Semiconj.iterate_right prng_after_kchunk n, after_kseed hkey hiv]
  rfl

/-- After KSEED and `n + 1` KCHUNKs KOUT0 and KOUT1 hold the two words of chunk number `n`. -/
theorem kout_after_kchunks {s : State} (hkey : Spec.KeyOk s) (hiv : Spec.IvOk s) (n : Nat) :
    ((Spec.after .kchunk)^[n + 1] (Spec.after .kseed s)).kout0 = Spec.chunkWord (Spec.prngAfter s (n + 1)) 0 ∧
      ((Spec.after .kchunk)^[n + 1] (Spec.after .kseed s)).kout1 =
        Spec.chunkWord (Spec.prngAfter s (n + 1)) 1 := by
  have hstate : Spec.advanced ((Spec.after .kchunk)^[n] (Spec.after .kseed s)).prng =
      Spec.prngAfter s (n + 1) := by
    rw [prng_after_kchunks hkey hiv, Spec.prngAfter, Spec.prngAfter, Function.iterate_succ_apply']
  rw [Function.iterate_succ_apply', after_kchunk, State.withNextChunk, hstate]
  exact ⟨rfl, rfl⟩

/-- Byte `j` of a chunk's word is a byte of the keystream (rule R34). -/
theorem chunkWord_byte_eq_ksByte (s : State) (n : Nat) {half j : Nat} (hhalf : half < 2) (hj : j < 4) :
    (Spec.chunkWord (Spec.prngAfter s (n + 1)) half).extractLsb' (8 * (3 - j)) 8 =
      Spec.ksByte s (8 * n + 4 * half + j) := by
  have hchunk : (8 * n + 4 * half + j) / 8 = n := by omega
  have hword : (8 * n + 4 * half + j) % 8 / 4 = half := by omega
  have hbyte : (8 * n + 4 * half + j) % 4 = j := by omega
  rw [Spec.ksByte, hchunk, hword, hbyte]

/-- Settles O32: KOUT0 and KOUT1 are the two words of the chunk, whose bytes are the keystream's. -/
theorem kchunksYieldKeystream : Obligations.KchunksYieldKeystream := by
  unfold Obligations.KchunksYieldKeystream
  intro s n hkey hiv t j hj
  obtain ⟨hkout0, hkout1⟩ := kout_after_kchunks hkey hiv n
  constructor
  · rw [hkout0]
    exact chunkWord_byte_eq_ksByte s n (half := 0) (by decide) hj
  · rw [hkout1]
    exact chunkWord_byte_eq_ksByte s n (half := 1) (by decide) hj

end Sys2Proof.Machine
end

section
/-! SUPPORT. The XOR datapath: the position factor and the pixel mix as functions, and the stream transform as a
function of a buffer and as the command SXF. -/

namespace Sys2Proof.Machine

/-! ## The position factor (rule R110) -/

theorem posFactor_toNat (t : Nat) : (posFactor t).toNat = t * 0x9E3779B9 % 2 ^ 32 := by
  rw [posFactor, BitVec.toNat_mul, BitVec.toNat_ofNat, Nat.mod_mul_mod]
  rfl

/-- The factor sees its argument modulo `2^32` only. -/
theorem posFactor_mod (t : Nat) : posFactor (t % 2 ^ 32) = posFactor t := by
  refine BitVec.eq_of_toNat_eq ?_
  rw [posFactor_toNat, posFactor_toNat, Nat.mod_mul_mod]

/-- The low byte of a product is the product of the low bytes: `0xB9` is the low byte of `0x9E3779B9`. -/
theorem posFactor_lowByte (t : Nat) : (posFactor t).extractLsb' 0 8 = Spec.posByte t := by
  refine BitVec.eq_of_toNat_eq ?_
  rw [BitVec.extractLsb'_toNat, Nat.shiftRight_zero, posFactor_toNat, Spec.posByte, BitVec.toNat_ofNat]
  omega

theorem posByte_add_period (t : Nat) : Spec.posByte (t + 256) = Spec.posByte t := by
  rw [Spec.posByte, Spec.posByte, Nat.add_mod_right]

/-- Settles O33: the formula, and the period of the low byte from that of `Spec.posByte`. -/
theorem positionFactorFormula : Obligations.PositionFactorFormula := by
  unfold Obligations.PositionFactorFormula
  refine ⟨fun t => ⟨posFactor_toNat t, posFactor_mod t, posFactor_lowByte t, ?_⟩,
    by decide, by decide, by decide, by decide, by decide, by decide⟩
  rw [posFactor_lowByte, posFactor_lowByte, posByte_add_period]

/-! ## The pixel mix (rule R115) -/

/-- The mix sees its two indices through their sum only. -/
theorem pixelMix_comm (p : Pixel) (a b : Nat) (key : List Byte) : pixelMix p a b key = pixelMix p b a key := by
  rw [pixelMix, pixelMix, Nat.add_comm]

/-- Every channel is XORed with the same byte twice. -/
theorem pixelMix_pixelMix (p : Pixel) (a b : Nat) (key : List Byte) :
    pixelMix (pixelMix p a b key) a b key = p := by
  simp only [pixelMix, BitVec.xor_assoc, BitVec.xor_self, BitVec.xor_zero]

/-- Settles O36: exchanging the indices changes nothing, and the mix for one pair is its own inverse. -/
theorem pixelMixIsInvolution : Obligations.PixelMixIsInvolution := by
  unfold Obligations.PixelMixIsInvolution
  refine fun p a b key _ => ⟨pixelMix_comm p a b key, ?_⟩
  rw [pixelMix_comm _ b a, pixelMix_pixelMix]

/-! ## The stream transform (rule R111) -/

@[simp] theorem xorStream_length (buf ks : List Byte) : (xorStream buf ks).length = buf.length := by
  simp [xorStream]

theorem xorStream_getD (buf ks : List Byte) {i : Nat} (hi : i < buf.length) :
    (xorStream buf ks).getD i 0 = buf.getD i 0 ^^^ ks.getD i 0 ^^^ Spec.posByte i := by
  rw [← posFactor_lowByte]
  simp [xorStream, channelByte, hi]

theorem xor_xor_cancel_pair (x k p : Byte) : x ^^^ k ^^^ p ^^^ k ^^^ p = x := by
  rw [BitVec.xor_assoc x, BitVec.xor_assoc x, BitVec.xor_assoc x, BitVec.xor_assoc (k ^^^ p),
    BitVec.xor_self, BitVec.xor_zero]

/-- The second pass XORs each byte with what the first one XORed it with. -/
theorem xorStream_xorStream (buf ks : List Byte) : xorStream (xorStream buf ks) ks = buf := by
  refine List.ext_getElem (by simp) fun i hi hbuf => ?_
  rw [← List.getD_eq_getElem _ 0 hi, ← List.getD_eq_getElem _ 0 hbuf,
    xorStream_getD _ _ (by rwa [xorStream_length]), xorStream_getD _ _ hbuf, xor_xor_cancel_pair]

/-- Both passes take the keystream of the buffer's length, which they keep. -/
theorem transform_transform (buf key iv : List Byte) :
    (transform (transform buf key iv).1 key iv).1 = buf := by
  simp only [transform, xorStream_length, xorStream_xorStream]

/-! ## SXF (rule R112) -/

theorem State.zeroLen_passes {s : State} (h : 1 ≤ s.len.toNat) : s.zeroLen.1 = false :=
  decide_eq_false (Nat.ne_of_gt h)

theorem State.srcOrDstOutOfMem_passes {s : State} {n : Nat} (hsrc : s.src.toNat + n ≤ s.memBytes)
    (hdst : s.dst.toNat + n ≤ s.memBytes) : (s.srcOrDstOutOfMem n).1 = false := by
  simp [State.srcOrDstOutOfMem, State.inRange, hsrc, hdst]

theorem State.partialOverlap_passes {s : State}
    (h : s.src = s.dst ∨ s.src.toNat + s.len.toNat ≤ s.dst.toNat ∨
      s.dst.toNat + s.len.toNat ≤ s.src.toNat) : s.partialOverlap.1 = false := by
  obtain hsame | hdisjoint := h
  · simp [State.partialOverlap, hsame]
  · simp [State.partialOverlap, disjoint_eq_true_iff.2 hdisjoint]

/-- The bytes SXF stores: the source buffer under the stream transform. -/
def State.sxfBytes (s : State) : List Byte :=
  (transform (s.readBuf s.src.toNat s.len.toNat) s.keyBytes s.ivBytes).1

@[simp] theorem State.sxfBytes_length (s : State) : s.sxfBytes.length = s.len.toNat := by
  simp [State.sxfBytes]

theorem State.sxfBytes_getD (s : State) {i : Nat} (hi : i < s.len.toNat) :
    s.sxfBytes.getD i 0 = s.memByte (s.src.toNat + i) ^^^ Spec.ksByte s i ^^^ Spec.posByte i := by
  rw [State.sxfBytes, transform, xorStream_getD _ _ (by rwa [State.readBuf_length]), State.readBuf_length,
    State.readBuf_getD _ _ _ _ hi, generateKeyStream_getD s hi]

/-- A state after SXF: S0..S3 as the keystream leaves them, the transformed bytes at DST, DONE set. -/
def State.afterSxf (s : State) : State :=
  ((s.withPrng (Spec.prngAfter s ((s.len.toNat + 7) / 8))).writeMem s.dst.toNat s.sxfBytes).complete

theorem exec_sxf {s : State} (h : Spec.SxfReady s) : exec .sxf s = .next s.afterSxf := by
  obtain ⟨hkey, hiv, hlen, hsrc, hdst, hoverlap⟩ := h
  have hpass : firstFault [s.emptyKey, s.longKeyOrIv, s.zeroLen, s.srcOrDstOutOfMem s.len.toNat,
      s.partialOverlap] = none := by
    simp [firstFault_eq_none_iff, State.emptyKey_passes hkey, State.longKeyOrIv_passes hkey hiv,
      State.zeroLen_passes hlen, State.srcOrDstOutOfMem_passes hsrc hdst, State.partialOverlap_passes hoverlap]
  have hprng : (transform (s.readBuf s.src.toNat s.len.toNat) s.keyBytes s.ivBytes).2 =
      Spec.prngAfter s ((s.len.toNat + 7) / 8) := by
    rw [transform, State.readBuf_length, generateKeyStream_state]
  unfold exec execSxf
  rw [State.afterSxf, ← hprng]
  exact runCommand_done _ _ s hpass

/-- The destination buffer after SXF. -/
theorem State.afterSxf_memByte (s : State) {i : Nat} (hi : i < s.len.toNat) :
    s.afterSxf.memByte (s.dst.toNat + i) = s.sxfBytes.getD i 0 := by
  rw [State.afterSxf, State.complete_memByte, State.memByte_writeMem, State.sxfBytes_length,
    if_pos ⟨Nat.le_add_right _ _, Nat.add_lt_add_left hi _⟩, Nat.add_sub_cancel_left]

/-- Settles O34: the frame is that of `State.afterSxf`, the bytes are those of the buffer it writes. -/
theorem sxfTransformsBuffer : Obligations.SxfTransformsBuffer := by
  unfold Obligations.SxfTransformsBuffer
  intro s h
  refine ⟨_, exec_sxf h, rfl, fun i hi => ?_, fun a ha => exec_sxf_memByte (exec_sxf h) fun _ => ha⟩
  rw [s.afterSxf_memByte hi, s.sxfBytes_getD hi]

/-! ## SXF after SXF (rule R113) -/

/-- Reading DST as a buffer gives back what SXF stored there. -/
theorem State.afterSxf_readBuf (s : State) : s.afterSxf.readBuf s.dst.toNat s.len.toNat = s.sxfBytes := by
  refine List.ext_getElem (by simp) fun i hi hbytes => ?_
  have hlen : i < s.len.toNat := by rwa [State.sxfBytes_length] at hbytes
  rw [← List.getD_eq_getElem _ 0 hi, ← List.getD_eq_getElem _ 0 hbytes, State.readBuf_getD _ _ _ _ hlen,
    s.afterSxf_memByte hlen]

/-- SXF writes no register that its checks or its key and IV come from. -/
theorem State.afterSxf_withBuffers_ready {s : State} {src dst : Word}
    (h : Spec.SxfReady (Spec.withBuffers s src dst)) : Spec.SxfReady (Spec.withBuffers s.afterSxf src dst) := by
  simpa [Spec.SxfReady, Spec.KeyOk, Spec.IvOk, Spec.withBuffers, State.afterSxf] using h

/-- A second SXF that reads where the first one wrote stores the bytes the first one read. -/
theorem State.sxfBytes_afterSxf (s : State) (back : Word) :
    (Spec.withBuffers s.afterSxf s.dst back).sxfBytes = s.readBuf s.src.toNat s.len.toNat := by
  calc (Spec.withBuffers s.afterSxf s.dst back).sxfBytes
      = (transform (s.afterSxf.readBuf s.dst.toNat s.len.toNat) s.keyBytes s.ivBytes).1 := rfl
    _ = s.readBuf s.src.toNat s.len.toNat := by rw [s.afterSxf_readBuf, State.sxfBytes, transform_transform]

/-- Settles O35: the second command applies the transform to the bytes the first one stored. -/
theorem sxfTwiceRestoresBuffer : Obligations.SxfTwiceRestoresBuffer := by
  unfold Obligations.SxfTwiceRestoresBuffer
  refine ⟨transform_transform, fun s back h hback => ?_⟩
  refine ⟨_, _, exec_sxf h, exec_sxf (State.afterSxf_withBuffers_ready hback), fun i hi => ?_⟩
  calc (Spec.withBuffers s.afterSxf s.dst back).afterSxf.memByte (back.toNat + i)
      = (Spec.withBuffers s.afterSxf s.dst back).sxfBytes.getD i 0 := State.afterSxf_memByte _ hi
    _ = (s.readBuf s.src.toNat s.len.toNat).getD i 0 := by rw [s.sxfBytes_afterSxf]
    _ = s.memByte (s.src.toNat + i) := s.readBuf_getD _ _ _ hi

end Sys2Proof.Machine
end

section
/-! SUPPORT. `createSeed` and `linearGenerator` on naturals, and the commands CSEED and LGEN. -/

namespace Sys2Proof.Machine

/-! ## The constants of rule R7 -/

theorem phi_toNat : phi.toNat = 0x9E3779B9 := rfl
theorem murmur_toNat : murmur.toNat = 0x85EBCA6B := rfl
theorem lcgA_toNat : lcgA.toNat = 1664525 := rfl
theorem lcgC_toNat : lcgC.toNat = 1013904223 := rfl
theorem cseedInit_toNat : cseedInit.toNat = 0 := rfl

/-! ## createSeed (rules R120, R121) -/

theorem rotXor_toNat (s : Word) (n : Nat) : (rotXor s n).toNat = Spec.rotXorNat s.toNat n := by
  simp only [rotXor, rotl32, shl32, shr32, Spec.rotXorNat, BitVec.toNat_xor, BitVec.toNat_or,
    BitVec.toNat_shiftLeft, BitVec.toNat_ushiftRight, Nat.shiftLeft_eq, Nat.shiftRight_eq_div_pow]

/-- What a step of `createSeed` rotates: the state times the loop's multiplier plus a weighted byte. -/
theorem mul_add_byte_toNat (s : Word) (b : Byte) (m j : Nat) :
    (s * BitVec.ofNat 32 m + b.setWidth 32 * BitVec.ofNat 32 j).toNat =
      (s.toNat * m + b.toNat * j) % 2 ^ 32 := by
  have hb : (b.setWidth 32).toNat = b.toNat := BitVec.toNat_setWidth_of_le (by decide)
  simp only [BitVec.toNat_add, BitVec.toNat_mul, BitVec.toNat_ofNat, hb, Nat.mul_mod_mod,
    Nat.add_mod_mod, Nat.mod_add_mod]

theorem seedKeyByte_toNat (s : Word) (b : Byte) (i : Nat) :
    (seedKeyByte s b i).toNat = Spec.rotXorNat ((s.toNat * 31 + b.toNat * (i + 1)) % 2 ^ 32) 13 := by
  rw [seedKeyByte, rotXor_toNat, mul_add_byte_toNat]

theorem seedIvByte_toNat (s : Word) (b : Byte) (i : Nat) :
    (seedIvByte s b i).toNat = Spec.rotXorNat ((s.toNat * 17 + b.toNat * (i + 2)) % 2 ^ 32) 7 := by
  rw [seedIvByte, rotXor_toNat, mul_add_byte_toNat]

/-- A loop whose step is a step of `Spec.seedLoop` is `Spec.seedLoop`. -/
theorem foldl_zipIdx_toNat {f : Word → Byte → Nat → Word} {m o r : Nat}
    (hf : ∀ s b i, (f s b i).toNat = Spec.rotXorNat ((s.toNat * m + b.toNat * (i + o)) % 2 ^ 32) r)
    (bytes : List Byte) (i : Nat) (s : Word) :
    ((bytes.zipIdx i).foldl (fun s c => f s c.1 c.2) s).toNat =
      Spec.seedLoop m o r bytes i s.toNat := by
  induction bytes generalizing i s with
  | nil => rfl
  | cons b rest ih => rw [List.zipIdx_cons, List.foldl_cons, ih, hf, Spec.seedLoop]

theorem createSeed_toNat (key iv : List Byte) : (createSeed key iv).toNat = Spec.seedNat key iv := by
  rw [createSeed, BitVec.toNat_mul, BitVec.toNat_xor, foldl_zipIdx_toNat seedIvByte_toNat,
    foldl_zipIdx_toNat seedKeyByte_toNat, cseedInit_toNat, phi_toNat, murmur_toNat, Spec.seedNat]

theorem RegFile.take_cells (f : RegFile 8 16) {n : Nat} (hn : n ≤ 16) :
    f.cells.take n = (List.range n).map f.get := by
  have hlen : n ≤ f.cells.length := f.size.symm ▸ hn
  refine List.ext_getElem (by simpa using hlen) fun k hk hk' => ?_
  have hcell : k < f.cells.length := (by simpa using hk' : k < n).trans_le hlen
  simp [RegFile.get, hcell]

theorem State.keyBytes_eq_keyList {s : State} (h : Spec.KeyOk s) : s.keyBytes = Spec.keyList s :=
  s.key.take_cells h.2

theorem State.ivBytes_eq_ivList {s : State} (h : Spec.IvOk s) : s.ivBytes = Spec.ivList s :=
  s.iv.take_cells h

/-! ## linearGenerator (rules R122 to R124) -/

theorem drawProduct_lt (v : Nat) : Spec.drawProduct v < 2 ^ 32 := Nat.mod_lt _ (by decide)

theorem abs32_toNat (v : Word) : (abs32 v).toNat = Spec.absNat v.toNat := by
  unfold abs32 Spec.absNat
  split
  · rfl
  · rw [BitVec.toNat_ofNat]
    omega

theorem linearGenerator_toNat (v : Word) : (linearGenerator v).toNat = Spec.draw v.toNat := by
  rw [linearGenerator, abs32_toNat, Spec.draw]
  rw [lgShift, shr32, BitVec.toNat_mul, BitVec.toNat_xor, BitVec.toNat_ushiftRight, BitVec.toNat_add,
    BitVec.toNat_mul, lcgA_toNat, lcgC_toNat, phi_toNat, Nat.mod_add_mod, Nat.shiftRight_eq_div_pow,
    Spec.drawProduct]

/-- `abs32` is the absolute value of the two's complement reading. -/
theorem absNat_eq_natAbs_toInt {p : Nat} (hp : p < 2 ^ 32) :
    Spec.absNat p = (BitVec.ofNat 32 p).toInt.natAbs := by
  rw [BitVec.toInt_eq_toNat_cond, BitVec.toNat_ofNat, Nat.mod_eq_of_lt hp, Spec.absNat]
  split_ifs <;> omega

theorem absNat_le {p : Nat} (hp : p < 2 ^ 32) : Spec.absNat p ≤ 2 ^ 31 := by
  unfold Spec.absNat
  split <;> omega

/-- Settles O39: `linearGenerator_toNat`, and the facts about `abs32` for the product, which has 32 bits. -/
theorem linearGeneratorIsAbsoluteValue : Obligations.LinearGeneratorIsAbsoluteValue := by
  unfold Obligations.LinearGeneratorIsAbsoluteValue
  refine ⟨fun v => ?_, by decide⟩
  have hlt : Spec.drawProduct v.toNat < 2 ^ 32 := drawProduct_lt v.toNat
  rw [linearGenerator_toNat, Spec.draw]
  refine ⟨absNat_eq_natAbs_toInt hlt, absNat_le hlt, fun hcorner => ?_⟩
  rw [hcorner]
  decide

/-! ## CSEED and LGEN (rules R131, R132) -/

/-- A result in SEED and DONE set, field by field. The value is a variable: comparing the two states for the
seed itself would make the kernel evaluate it. -/
theorem State.withSeed_complete (s : State) (v : Word) :
    (s.withSeed v).complete = { s with seed := v, status := s.status ||| 1#2 } := rfl

theorem State.withRes_complete (s : State) (v : Word) :
    (s.withRes v).complete = { s with res := v, status := s.status ||| 1#2 } := rfl

/-- KEYLEN and IVLEN are legal, so that the two checks on them pass. -/
theorem State.keyIvChecks_pass {s : State} (hkey : Spec.KeyOk s) (hiv : Spec.IvOk s) :
    firstFault [s.emptyKey, s.longKeyOrIv] = none := by
  simp [firstFault_eq_none_iff, State.emptyKey_passes hkey, State.longKeyOrIv_passes hkey hiv]

/-- Settles O37: `createSeed_toNat` for the bytes of the register files. -/
theorem cseedComputesSeed : Obligations.CseedComputesSeed := by
  unfold Obligations.CseedComputesSeed
  intro s hkey hiv
  have hseed : createSeed s.keyBytes s.ivBytes =
      BitVec.ofNat 32 (Spec.seedNat (Spec.keyList s) (Spec.ivList s)) := by
    rw [State.keyBytes_eq_keyList hkey, State.ivBytes_eq_ivList hiv, ← createSeed_toNat,
      BitVec.ofNat_toNat, BitVec.setWidth_eq]
  rw [← State.withSeed_complete, ← hseed]
  unfold exec execCseed
  exact runCommand_done _ _ s (State.keyIvChecks_pass hkey hiv)

/-- Settles O38: LGEN has no check, and `linearGenerator_toNat`. -/
theorem lgenDrawsNumber : Obligations.LgenDrawsNumber := by
  unfold Obligations.LgenDrawsNumber
  intro s
  have hdraw : linearGenerator s.arg = BitVec.ofNat 32 (Spec.draw s.arg.toNat) := by
    rw [← linearGenerator_toNat, BitVec.ofNat_toNat, BitVec.setWidth_eq]
  rw [← State.withRes_complete, ← hdraw]
  unfold exec execLgen
  exact runCommand_done _ _ s firstFault_nil

end Sys2Proof.Machine
end

section
/-! SUPPORT. The index array in PERM: its entries as numbers, what a command that writes it leaves there, and
the commands PINIT, PREV and PINV. -/

namespace Sys2Proof.Machine

/-! ## The entries of PERM (rule R39) -/

@[simp] theorem State.permEntries_length (s : State) : s.permEntries.length = s.nblk.toNat := by
  simp [State.permEntries]

theorem State.permEntries_lt (s : State) : ∀ x ∈ s.permEntries, x < 2 ^ 32 := by
  intro x hx
  obtain ⟨w, -, rfl⟩ := List.mem_map.1 hx
  exact w.isLt

/-- Where the list holds all NBLK entries, it is its entries as registers. -/
theorem State.map_ofNat_permEntries {s : State} (h : s.perm.length = s.nblk.toNat) :
    s.permEntries.map (BitVec.ofNat 32) = s.perm := by
  rw [State.permEntries, List.takeD_eq_take _ h.ge, List.take_of_length_le h.le, List.map_map]
  exact (List.map_congr_left fun w _ => BitVec.ofNat_toNat 32 w |>.trans w.setWidth_eq).trans s.perm.map_id

/-- Numbers below `2^32`, stored as all NBLK entries, are the entries. -/
theorem State.permEntries_of_perm_eq {s : State} {P : List Nat} (hperm : s.perm = P.map (BitVec.ofNat 32))
    (hlen : P.length = s.nblk.toNat) (hlt : ∀ x ∈ P, x < 2 ^ 32) : s.permEntries = P := by
  have hfull : s.perm.length = s.nblk.toNat := by rw [hperm, List.length_map, hlen]
  rw [State.permEntries, List.takeD_eq_take _ hfull.ge, List.take_of_length_le hfull.le, hperm,
    map_toNat_map_ofNat hlt]

/-- Reading a list that is cut or padded to `n` elements. -/
theorem getD_takeD {α : Type} (l : List α) (d : α) (n k : Nat) :
    (l.takeD n d).getD k d = if k < n then l.getD k d else d := by
  induction n generalizing l k with
  | zero => rfl
  | succ n ih =>
    cases k with
    | zero => cases l <;> rfl
    | succ k =>
      simp only [List.takeD, List.getD_cons_succ, ih, Nat.add_lt_add_iff_right]
      cases l <;> rfl

/-- A host read of PERM is the entry; at or beyond NBLK both are 0. -/
theorem entry_eq_getD (s : State) (k : Nat) : Spec.entry s k = s.permEntries.getD k 0 :=
  calc Spec.entry s k = (if k < s.nblk.toNat then s.perm.getD k 0 else 0#32).toNat := rfl
    _ = ((s.perm.takeD s.nblk.toNat 0).getD k 0).toNat := by rw [getD_takeD]; rfl
    _ = s.permEntries.getD k 0 := (List.getD_map _ _ BitVec.toNat).symm

/-! ## Storing a new array -/

/-- The entries after a command has stored NBLK new ones. -/
theorem State.withPerm_complete_permEntries {s : State} {P : List Nat} (hlen : P.length = s.nblk.toNat)
    (hlt : ∀ x ∈ P, x < 2 ^ 32) : (s.withPerm P).complete.permEntries = P :=
  State.permEntries_of_perm_eq rfl hlen hlt

/-- A rearrangement of the entries fits PERM. -/
theorem State.withPerm_complete_permEntries_of_perm {s : State} {P : List Nat} (h : P.Perm s.permEntries) :
    (s.withPerm P).complete.permEntries = P :=
  State.withPerm_complete_permEntries (by rw [h.length_eq, s.permEntries_length]) fun x hx =>
    s.permEntries_lt x (h.mem_iff.1 hx)

/-- A command that stores an array changes PERM and DONE only. -/
theorem State.withPerm_complete (s : State) (P : List Nat) :
    (s.withPerm P).complete =
      { s with perm := (s.withPerm P).complete.perm, status := s.status ||| 1#2 } := rfl

theorem State.withPerm_complete_perm_length {s : State} {P : List Nat} (h : P.length = s.nblk.toNat) :
    (s.withPerm P).complete.perm.length = s.nblk.toNat := by
  rw [State.complete_perm, State.withPerm_perm, List.length_map, h]

/-- The entries after a command has loaded a new array of a new size. -/
theorem State.withMapping_complete_permEntries {s : State} {n : Nat} {P : List Nat} (hn : n < 2 ^ 32)
    (hP : P.Perm (List.range n)) : (s.withMapping n P).complete.permEntries = P := by
  have hlen : P.length = n := by simpa using hP.length_eq
  refine State.permEntries_of_perm_eq rfl ?_ fun x hx => (List.mem_range.1 (hP.mem_iff.1 hx)).trans hn
  rw [State.complete_nblk, State.withMapping_nblk, BitVec.toNat_ofNat, Nat.mod_eq_of_lt hn, hlen]

/-! ## PINIT (rule R133) -/

theorem State.tooManyBlocks_passes {s : State} {n : Nat} (h : n ≤ s.nblkMax) :
    (s.tooManyBlocks n).1 = false := decide_eq_false (Nat.not_lt.2 h)

theorem exec_pinit {s : State} (h : s.arg.toNat ≤ s.nblkMax) :
    exec .pinit s = .next (s.withMapping s.arg.toNat (List.range s.arg.toNat)).complete := by
  have hpass : firstFault [s.tooManyBlocks s.arg.toNat] = none := by
    simp [firstFault_eq_none_iff, State.tooManyBlocks_passes h]
  unfold exec execPinit
  exact runCommand_done _ _ s hpass

theorem pinit_permEntries (s : State) :
    (s.withMapping s.arg.toNat (List.range s.arg.toNat)).complete.permEntries = List.range s.arg.toNat :=
  State.withMapping_complete_permEntries s.arg.isLt (.refl _)

/-- Settles O40: the entries are the identity array, and beyond it PERM reads as 0. -/
theorem pinitLoadsIdentity : Obligations.PinitLoadsIdentity := by
  unfold Obligations.PinitLoadsIdentity
  intro s h
  have hnblk : BitVec.ofNat 32 s.arg.toNat = s.arg := by rw [BitVec.ofNat_toNat, BitVec.setWidth_eq]
  refine ⟨_, exec_pinit h, ?_, by simp, fun k hk => ?_, fun k hk => ?_⟩
  · simp only [State.complete, State.withMapping, hnblk, statusWithDone]
  · rw [entry_eq_getD, pinit_permEntries, List.getD_eq_getElem _ _ (by simpa using hk), List.getElem_range]
  · rw [entry_eq_getD, pinit_permEntries, List.getD_eq_default _ _ (by simpa using hk)]

/-! ## PREV (rule R135) -/

/-- A state after PREV. -/
def State.afterPrev (s : State) : State := (s.withPerm s.permEntries.reverse).complete

theorem exec_prev (s : State) : exec .prev s = .next s.afterPrev := by
  rw [exec_prev_eq_runCommand]
  exact runCommand_done _ _ s firstFault_nil

@[simp] theorem State.afterPrev_permEntries (s : State) : s.afterPrev.permEntries = s.permEntries.reverse :=
  State.withPerm_complete_permEntries_of_perm (List.reverse_perm _)

/-- Settles O43: PREV reverses the entries, and reversing twice is the identity. -/
theorem prevReversesArray : Obligations.PrevReversesArray := by
  unfold Obligations.PrevReversesArray
  intro s
  refine ⟨_, _, exec_prev s, s.withPerm_complete _, State.withPerm_complete_perm_length (by simp),
    fun k hk => ?_, exec_prev _, fun k _ => ?_⟩
  · rw [entry_eq_getD, entry_eq_getD, s.afterPrev_permEntries, List.getD_reverse _ (by simpa using hk),
      s.permEntries_length]
  · rw [entry_eq_getD, entry_eq_getD, State.afterPrev_permEntries, s.afterPrev_permEntries,
      List.reverse_reverse]

/-! ## PINV (rules R129, R137) -/

theorem invert_getD {A : List Nat} (hA : A.Perm (List.range A.length)) {x : Nat} (hx : x < A.length) :
    (invert A).getD x 0 = A.idxOf x := by
  rw [invert_eq_map_idxOf hA, List.getD_eq_getElem _ _ (by simpa using hx), List.getElem_map,
    List.getElem_range]

theorem getD_lt_of_perm {A : List Nat} (hA : A.Perm (List.range A.length)) {o : Nat} (ho : o < A.length) :
    A.getD o 0 < A.length := by
  rw [List.getD_eq_getElem _ _ ho]
  exact List.mem_range.1 (hA.mem_iff.1 (List.getElem_mem ho))

theorem invert_getD_getD {A : List Nat} (hA : A.Perm (List.range A.length)) {o : Nat} (ho : o < A.length) :
    (invert A).getD (A.getD o 0) 0 = o := by
  rw [invert_getD hA (getD_lt_of_perm hA ho), List.getD_eq_getElem _ _ ho,
    (hA.nodup_iff.2 List.nodup_range).idxOf_getElem]

theorem getD_invert_getD {A : List Nat} (hA : A.Perm (List.range A.length)) {x : Nat} (hx : x < A.length) :
    A.getD ((invert A).getD x 0) 0 = x := by
  have hpos : A.idxOf x < A.length := List.idxOf_lt_length_iff.2 (hA.mem_iff.2 (List.mem_range.2 hx))
  rw [invert_getD hA hx, List.getD_eq_getElem _ _ hpos, List.getElem_idxOf]

/-- The inverse lists `m` at position `A[m]`, so its own inverse lists `A[m]` at position `m`. -/
theorem invert_invert {A : List Nat} (hA : A.Perm (List.range A.length)) : invert (invert A) = A := by
  have hQ : (invert A).Perm (List.range A.length) := invert_perm hA
  have hlen : (invert A).length = A.length := by simpa using hQ.length_eq
  have hQself : (invert A).Perm (List.range (invert A).length) := by rwa [hlen]
  refine List.ext_getElem (by simpa [hlen] using (invert_perm hQ).length_eq) fun m hm hmA => ?_
  have hAm : A.getD m 0 < (invert A).length := (getD_lt_of_perm hA hmA).trans_eq hlen.symm
  calc (invert (invert A))[m] = (invert (invert A)).getD m 0 := (List.getD_eq_getElem _ _ hm).symm
    _ = (invert (invert A)).getD ((invert A).getD (A.getD m 0) 0) 0 := by rw [invert_getD_getD hA hmA]
    _ = A.getD m 0 := invert_getD_getD hQself hAm
    _ = A[m] := List.getD_eq_getElem _ _ hmA

/-- A state after PINV. -/
def State.afterPinv (s : State) : State := (s.withPerm (invert s.permEntries)).complete

theorem exec_pinv (s : State) : exec .pinv s = .next s.afterPinv := by
  unfold exec execPinv
  exact runCommand_done _ _ s firstFault_nil

/-- In a good state PINV stores the inverse of the entries. -/
theorem State.PermOk.afterPinv_permEntries {s : State} (h : s.PermOk) :
    s.afterPinv.permEntries = invert s.permEntries :=
  State.withPerm_complete_permEntries_of_perm ((invert_perm h.permEntries_perm).trans h.permEntries_perm.symm)

/-- PINV stores NBLK entries. -/
theorem State.PermOk.invert_length {s : State} (h : s.PermOk) :
    (invert s.permEntries).length = s.nblk.toNat := by
  simpa using (invert_perm h.permEntries_perm).length_eq

/-- Settles O46: the entries and their inverse undo each other, and inverting twice is the identity. -/
theorem pinvInvertsArray : Obligations.PinvInvertsArray := by
  unfold Obligations.PinvInvertsArray
  intro s h
  have hA : s.permEntries.Perm (List.range s.permEntries.length) := by
    rw [s.permEntries_length]
    exact h.permEntries_perm
  have hfull : s.perm.length = s.nblk.toNat := by
    obtain ⟨hperm, -⟩ := h
    simpa using hperm.length_eq
  refine ⟨_, _, exec_pinv s, s.withPerm_complete _, State.withPerm_complete_perm_length h.invert_length,
    fun o ho => ?_, exec_pinv _, ?_⟩
  · rw [← s.permEntries_length] at ho
    rw [entry_eq_getD, entry_eq_getD, entry_eq_getD, entry_eq_getD, h.afterPinv_permEntries,
      ← s.permEntries_length]
    exact ⟨getD_lt_of_perm hA ho, invert_getD_getD hA ho, getD_invert_getD hA ho⟩
  · calc s.afterPinv.afterPinv.perm = (invert s.afterPinv.permEntries).map (BitVec.ofNat 32) := rfl
      _ = s.permEntries.map (BitVec.ofNat 32) := by rw [h.afterPinv_permEntries, invert_invert hA]
      _ = s.perm := State.map_ofNat_permEntries hfull

end Sys2Proof.Machine
end

section
/-! SUPPORT. `shuffleBlocks` moves elements without looking at them, it is the pseudocode of rule R125 on
naturals, and the command SHUF. -/

namespace Sys2Proof.Machine

/-! ## Elements are never inspected (rule R126 e) -/

theorem swapAt_map {α β : Type} (f : α → β) (A : List α) (i j : Nat) :
    swapAt (A.map f) i j = (swapAt A i j).map f := by
  simp only [swapAt, List.getElem?_map]
  cases A[i]? with
  | none => rfl
  | some a =>
    cases A[j]? with
    | none => rfl
    | some b => simp only [Option.map_some, List.map_set]

theorem shuffleAt_map {α β : Type} (f : α → β) (seed : Word) (r : Nat) (A : List α) (i : Nat) :
    shuffleAt seed r (A.map f) i = (shuffleAt seed r A i).map f := by
  simp only [shuffleAt, swapAt_map, List.length_map, apply_ite (List.map f)]

theorem shufflePass_map {α β : Type} (f : α → β) (seed : Word) (A : List α) (pass : Nat) :
    shufflePass seed (A.map f) pass = (shufflePass seed A pass).map f := by
  simp only [shufflePass, List.length_map]
  exact List.foldl_hom (List.map f) (shuffleAt_map f seed _)

theorem shuffleBlocks_map {α β : Type} (f : α → β) (A : List α) (key iv : List Byte) :
    shuffleBlocks (A.map f) key iv = (shuffleBlocks A key iv).map f :=
  List.foldl_hom (List.map f) (shufflePass_map f _)

/-- Settles O42: an array is the positions renamed to its elements. -/
theorem shuffleMovesPositions : Obligations.ShuffleMovesPositions := by
  unfold Obligations.ShuffleMovesPositions
  refine fun A key iv => ⟨?_, shuffleBlocks_perm _ key iv⟩
  have hread : (List.range A.length).map (fun k => A.getD k 0) = A :=
    List.ext_getElem (by simp) fun k _ hk => by simp [hk]
  rw [← shuffleBlocks_map, hread]

/-! ## The pseudocode of rule R125 on naturals -/

/-- An array as `Spec` gives it: the function of its elements, 0 beyond its end. -/
def elements (A : List Nat) (k : Nat) : Nat := A.getD k 0

/-- Both exchange two elements; where `i = j` both write the same element twice. -/
theorem elements_swapAt {A : List Nat} {i j : Nat} (hi : i < A.length) (hj : j < A.length) :
    elements (swapAt A i j) = Spec.swapped (elements A) i j := by
  funext k
  simp only [swapAt, List.getElem?_eq_getElem hi, List.getElem?_eq_getElem hj, elements, Spec.swapped,
    List.getD_eq_getElem?_getD, List.getElem?_set, List.length_set]
  grind

theorem swapAt_length {α : Type} (A : List α) (i j : Nat) : (swapAt A i j).length = A.length :=
  (swapAt_perm A i j).length_eq

theorem shuffleAt_length {α : Type} (seed : Word) (r : Nat) (A : List α) (i : Nat) :
    (shuffleAt seed r A i).length = A.length := (shuffleAt_perm seed r A i).length_eq

/-- The draw for a seed offset. -/
theorem linearGenerator_add_toNat (seed : Word) (i : Nat) :
    (linearGenerator (seed + BitVec.ofNat 32 i)).toNat = Spec.draw ((seed.toNat + i) % 2 ^ 32) := by
  rw [linearGenerator_toNat, BitVec.toNat_add, BitVec.toNat_ofNat, Nat.add_mod_mod]

/-- Position `i` of a pass: one exchange, and at a multiple of 7 a second one. -/
theorem elements_shuffleAt (seed : Word) (r : Nat) {A : List Nat} {i : Nat} (hi : i < A.length) :
    elements (shuffleAt seed r A i) =
      if i % 7 = 0 then
        Spec.swapped (Spec.swapped (elements A) i (r % (i + 1))) i
          (Spec.draw ((seed.toNat + i) % 2 ^ 32) % A.length)
      else Spec.swapped (elements A) i (r % (i + 1)) := by
  have hr : r % (i + 1) < A.length := (Nat.lt_succ_iff.1 (Nat.mod_lt r i.succ_pos)).trans_lt hi
  have hextra : Spec.draw ((seed.toNat + i) % 2 ^ 32) % A.length < A.length :=
    Nat.mod_lt _ (Nat.zero_lt_of_lt hi)
  simp only [shuffleAt, extraMod, linearGenerator_add_toNat, apply_ite elements]
  rw [elements_swapAt (by rwa [swapAt_length]) (by rwa [swapAt_length]), elements_swapAt hi hr]

/-- The positions `i, i-1, .., 1` of a pass. -/
theorem elements_foldl_shuffleAt (seed : Word) (r : Nat) {i : Nat} {A : List Nat} (hi : i ≤ A.length - 1) :
    elements ((List.range' 1 i).reverse.foldl (shuffleAt seed r) A) =
      Spec.passFrom seed.toNat r A.length i (elements A) := by
  induction i generalizing A with
  | zero => rfl
  | succ i ih =>
    have hlen := shuffleAt_length seed r A (i + 1)
    rw [List.range'_1_concat, List.reverse_append, List.foldl_append, Nat.add_comm 1 i]
    simp only [List.reverse_singleton, List.foldl_cons, List.foldl_nil]
    rw [ih (by omega), hlen, elements_shuffleAt seed r (by omega), Spec.passFrom]

theorem elements_shufflePass (seed : Word) (A : List Nat) (pass : Nat) :
    elements (shufflePass seed A pass) = Spec.passOver seed.toNat A.length pass (elements A) := by
  simp only [shufflePass, passPositions, passStride, linearGenerator_add_toNat, Spec.passOver]
  exact elements_foldl_shuffleAt seed _ le_rfl

theorem shufflePass_length {α : Type} (seed : Word) (A : List α) (pass : Nat) :
    (shufflePass seed A pass).length = A.length := (shufflePass_perm seed A pass).length_eq

theorem shuffleBlocks_eq_passes {α : Type} (A : List α) (key iv : List Byte) :
    shuffleBlocks A key iv =
      shufflePass (createSeed key iv) (shufflePass (createSeed key iv)
        (shufflePass (createSeed key iv) A 0) 1) 2 := rfl

theorem elements_shuffleBlocks (A : List Nat) (key iv : List Byte) :
    elements (shuffleBlocks A key iv) = Spec.shuffled (Spec.seedNat key iv) A.length (elements A) := by
  rw [shuffleBlocks_eq_passes, elements_shufflePass, elements_shufflePass, elements_shufflePass,
    shufflePass_length, shufflePass_length, createSeed_toNat, Spec.shuffled]

/-! ## SHUF (rule R134) -/

/-- A state after SHUF. -/
def State.afterShuf (s : State) : State :=
  (s.withPerm (shuffleBlocks s.permEntries s.keyBytes s.ivBytes)).complete

theorem exec_shuf {s : State} (hkey : Spec.KeyOk s) (hiv : Spec.IvOk s) :
    exec .shuf s = .next s.afterShuf := by
  unfold exec execShuf
  exact runCommand_done _ _ s (State.keyIvChecks_pass hkey hiv)

theorem State.afterShuf_permEntries (s : State) :
    s.afterShuf.permEntries = shuffleBlocks s.permEntries s.keyBytes s.ivBytes :=
  State.withPerm_complete_permEntries_of_perm (shuffleBlocks_perm _ _ _)

/-- Settles O41: the entries before and after, as functions. -/
theorem shufMatchesPseudocode : Obligations.ShufMatchesPseudocode := by
  unfold Obligations.ShufMatchesPseudocode
  intro s hkey hiv
  have hentry (t : State) : Spec.entry t = elements t.permEntries := funext (entry_eq_getD t)
  refine ⟨_, exec_shuf hkey hiv, s.withPerm_complete _, State.withPerm_complete_perm_length ?_,
    fun k _ => ?_⟩
  · rw [(shuffleBlocks_perm _ _ _).length_eq, s.permEntries_length]
  · rw [hentry, hentry, s.afterShuf_permEntries, elements_shuffleBlocks, s.permEntries_length,
      State.keyBytes_eq_keyList hkey, State.ivBytes_eq_ivList hiv]

end Sys2Proof.Machine
end

section
/-! SUPPORT. The command PBUILD: it reads no IV register, and it leaves what its schedule of single commands
leaves. -/

namespace Sys2Proof.Machine

/-! ## PBUILD reads neither IV nor IVLEN (rule R128) -/

/-- A command whose checks do not see a change `g` of the state, and whose effect, fault entry and completion
commute with it, commutes with it. -/
theorem runCommand_comm {cs : List (Bool × FaultKind)} {e g : State → State} {s t : State}
    (h : runCommand cs e s = .next t) (hfault : ∀ f, (g s).takeFault f = g (s.takeFault f))
    (hdone : (e (g s)).complete = g (e s).complete) : runCommand cs e (g s) = .next (g t) := by
  obtain ⟨f, hf, rfl⟩ | ⟨hpass, rfl⟩ := runCommand_cases cs e s t h
  · rw [runCommand_fault cs e (g s) f hf, hfault]
  · rw [runCommand_done cs e (g s) hpass, hdone]

/-- Other IV registers. -/
def State.withIv (iv : RegFile 8 16) (ivlen : Byte) (s : State) : State := { s with iv := iv, ivlen := ivlen }

theorem State.withIv_takeFault (iv : RegFile 8 16) (ivlen : Byte) (s : State) (f : FaultKind) :
    (s.withIv iv ivlen).takeFault f = (s.takeFault f).withIv iv ivlen := rfl

theorem State.withIv_withMapping_complete (iv : RegFile 8 16) (ivlen : Byte) (s : State) (n : Nat)
    (P : List Nat) :
    ((s.withIv iv ivlen).withMapping n P).complete = (s.withMapping n P).complete.withIv iv ivlen := rfl

/-- Settles O45: the checks, the block count, the key and ITERS are read past the IV registers, and the rest of
the command commutes with them. -/
theorem pbuildIgnoresIv : Obligations.PbuildIgnoresIv := by
  unfold Obligations.PbuildIgnoresIv
  intro s iv ivlen
  obtain ⟨t, ht⟩ := exec_next .pbuild s
  refine ⟨t, ht, ?_⟩
  unfold exec execPbuild at ht ⊢
  exact runCommand_comm ht (s.withIv_takeFault iv ivlen) (s.withIv_withMapping_complete iv ivlen _ _)

/-! ## What PBUILD leaves (rule R136) -/

theorem State.longKey_passes {s : State} (h : Spec.KeyOk s) : s.longKey.1 = false :=
  decide_eq_false (Nat.not_lt.2 h.2)

theorem State.zeroDimension_passes {s : State} (hwidth : 1 ≤ s.width.toNat) (hheight : 1 ≤ s.height.toNat) :
    s.zeroDimension.1 = false := by
  simp only [State.zeroDimension, Bool.or_eq_false_iff, decide_eq_false_iff_not]
  omega

theorem exec_pbuild {s : State} (h : Spec.PbuildReady s) :
    exec .pbuild s = .next (s.withMapping s.blockCount
      (processBlocks s.blockCount s.keyBytes s.iters.toNat)).complete := by
  obtain ⟨hkey, hwidth, hheight, hmax⟩ := h
  have hpass : firstFault [s.emptyKey, s.longKey, s.zeroDimension, s.tooManyBlocks s.blockCount] = none := by
    simp [firstFault_eq_none_iff, State.emptyKey_passes hkey, State.longKey_passes hkey,
      State.zeroDimension_passes hwidth hheight, State.tooManyBlocks_passes (n := s.blockCount) hmax]
  unfold exec execPbuild
  exact runCommand_done _ _ s hpass

theorem State.withMapping_complete (s : State) (n : Nat) (P : List Nat) :
    (s.withMapping n P).complete =
      { s with nblk := BitVec.ofNat 32 n, perm := P.map (BitVec.ofNat 32), status := s.status ||| 1#2 } := rfl

/-! ## The IV bytes of the schedule (rule R128) -/

theorem withIv4_ivBytes (s : State) (a b c d : Byte) : (Spec.withIv4 s a b c d).ivBytes = [a, b, c, d] := by
  have hlen : s.iv.cells.length = 16 := s.iv.size
  match hcells : s.iv.cells with
  | w :: x :: y :: z :: rest =>
    simp [State.ivBytes, Spec.withIv4, RegFile.set, hcells]
  | [] | [_] | [_, _] | [_, _, _] => simp [hcells] at hlen

theorem withIv1_ivBytes (s : State) (a : Byte) : (Spec.withIv1 s a).ivBytes = [a] := by
  have hlen : s.iv.cells.length = 16 := s.iv.size
  match hcells : s.iv.cells with
  | w :: rest => simp [State.ivBytes, Spec.withIv1, RegFile.set, hcells]
  | [] => simp [hcells] at hlen

/-- The iteration counter's byte at a bit offset. -/
theorem extractLsb'_ofNat_eq (iter : Nat) {o : Nat} (ho : o ≤ 24) :
    (BitVec.ofNat 32 iter).extractLsb' o 8 = BitVec.ofNat 8 (iter / 2 ^ o) := by
  refine BitVec.eq_of_getLsbD_eq fun i hi => ?_
  have hbit : o + i < 32 := by omega
  rw [BitVec.getLsbD_extractLsb', BitVec.getLsbD_ofNat, BitVec.getLsbD_ofNat, Nat.testBit_div_two_pow,
    Nat.add_comm i o, decide_eq_true hbit, Bool.true_and]

theorem ivIter_eq (iter : Nat) :
    ivIter iter = [BitVec.ofNat 8 iter, BitVec.ofNat 8 (iter / 2 ^ 8), BitVec.ofNat 8 (iter / 2 ^ 16),
      BitVec.ofNat 8 (iter / 2 ^ 24)] := by
  have hzero : iter / 2 ^ 0 = iter := Nat.div_one iter
  simp only [ivIter, byte0, byte1, byte2, byte3]
  rw [extractLsb'_ofNat_eq iter (by decide), extractLsb'_ofNat_eq iter (by decide),
    extractLsb'_ofNat_eq iter (by decide), extractLsb'_ofNat_eq iter (by decide), hzero]

/-! ## The schedule by single commands (rules R127, R136) -/

/-- SHUF under the iteration counter's four bytes. -/
def State.shufByCounter (s : State) (iter : Nat) : State :=
  Spec.after .shuf (Spec.withIv4 s (BitVec.ofNat 8 iter) (BitVec.ofNat 8 (iter / 2 ^ 8))
    (BitVec.ofNat 8 (iter / 2 ^ 16)) (BitVec.ofNat 8 (iter / 2 ^ 24)))

/-- SHUF under the single byte of a reshuffle. -/
def State.shufByOffset (s : State) (iter : Nat) : State :=
  Spec.after .shuf (Spec.withIv1 s (BitVec.ofNat 8 (iter + 1000)))

theorem iterationByHand_eq (s : State) (iter : Nat) :
    Spec.iterationByHand s iter =
      if iter % 3 = 0 then (Spec.after .prev (s.shufByCounter iter)).shufByOffset iter
      else s.shufByCounter iter := rfl

theorem mixIteration_eq (key : List Byte) (A : List Nat) (iter : Nat) :
    mixIteration key A iter =
      if iter % 3 = 0 then
        shuffleBlocks (shuffleBlocks A key (ivIter iter)).reverse key (ivReshuffle iter)
      else shuffleBlocks A key (ivIter iter) := rfl

/-- A state in the middle of the schedule: the key is that of the build, and PERM holds the array `A`. -/
structure HoldsMapping (key : List Byte) (A : List Nat) (u : State) : Prop where
  keyOk : Spec.KeyOk u
  keyBytes : u.keyBytes = key
  entries : u.permEntries = A
  full : u.perm.length = u.nblk.toNat

namespace HoldsMapping

variable {key : List Byte} {A : List Nat} {u : State}

/-- The registers that such a state determines. -/
theorem nblk_eq (h : HoldsMapping key A u) : u.nblk = BitVec.ofNat 32 A.length := by
  rw [← h.entries, u.permEntries_length, BitVec.ofNat_toNat, BitVec.setWidth_eq]

theorem perm_eq (h : HoldsMapping key A u) : u.perm = A.map (BitVec.ofNat 32) := by
  rw [← h.entries, State.map_ofNat_permEntries h.full]

/-- Other IV registers are not part of it. -/
theorem withIv4 (h : HoldsMapping key A u) (a b c d : Byte) : HoldsMapping key A (Spec.withIv4 u a b c d) :=
  ⟨h.keyOk, h.keyBytes, h.entries, h.full⟩

theorem withIv1 (h : HoldsMapping key A u) (a : Byte) : HoldsMapping key A (Spec.withIv1 u a) :=
  ⟨h.keyOk, h.keyBytes, h.entries, h.full⟩

/-- Storing a rearrangement of the array. -/
theorem withPerm (h : HoldsMapping key A u) {P : List Nat} (hP : P.Perm A) :
    HoldsMapping key P (u.withPerm P).complete := by
  have hperm : P.Perm u.permEntries := by rwa [h.entries]
  exact {
    keyOk := h.keyOk
    keyBytes := h.keyBytes
    entries := State.withPerm_complete_permEntries_of_perm hperm
    full := State.withPerm_complete_perm_length (by rw [hperm.length_eq, u.permEntries_length]) }

theorem after_shuf (h : HoldsMapping key A u) (hiv : Spec.IvOk u) :
    HoldsMapping key (shuffleBlocks A key u.ivBytes) (Spec.after .shuf u) := by
  rw [Spec.after, exec_shuf h.keyOk hiv, State.afterShuf, h.entries, h.keyBytes]
  exact h.withPerm (shuffleBlocks_perm _ _ _)

theorem after_prev (h : HoldsMapping key A u) : HoldsMapping key A.reverse (Spec.after .prev u) := by
  rw [Spec.after, exec_prev, State.afterPrev, h.entries]
  exact h.withPerm (List.reverse_perm A)

theorem shufByCounter (h : HoldsMapping key A u) (iter : Nat) :
    HoldsMapping key (shuffleBlocks A key (ivIter iter)) (u.shufByCounter iter) := by
  rw [ivIter_eq, ← withIv4_ivBytes u]
  exact (h.withIv4 _ _ _ _).after_shuf (by decide : (4 : Nat) ≤ 16)

theorem shufByOffset (h : HoldsMapping key A u) (iter : Nat) :
    HoldsMapping key (shuffleBlocks A key (ivReshuffle iter)) (u.shufByOffset iter) := by
  rw [ivReshuffle, revIvOffset, ← withIv1_ivBytes u]
  exact (h.withIv1 _).after_shuf (by decide : (1 : Nat) ≤ 16)

/-- One iteration by single commands is one iteration of `processBlocks`. -/
theorem iterationByHand (h : HoldsMapping key A u) (iter : Nat) :
    HoldsMapping key (mixIteration key A iter) (Spec.iterationByHand u iter) := by
  have hshuf := h.shufByCounter iter
  rw [iterationByHand_eq, mixIteration_eq]
  split_ifs
  · exact hshuf.after_prev.shufByOffset iter
  · exact hshuf

end HoldsMapping

/-- PINIT starts the schedule with the identity array. -/
theorem holdsMapping_after_pinit {s : State} (hkey : Spec.KeyOk s) {n : Nat} (hn : n < 2 ^ 32)
    (hmax : n ≤ s.nblkMax) :
    HoldsMapping s.keyBytes (identityArray n) (Spec.after .pinit { s with arg := BitVec.ofNat 32 n }) := by
  have harg : (BitVec.ofNat 32 n).toNat = n := by rw [BitVec.toNat_ofNat, Nat.mod_eq_of_lt hn]
  have hexec := exec_pinit (s := { s with arg := BitVec.ofNat 32 n }) (harg.trans_le hmax)
  simp only [harg] at hexec
  rw [Spec.after, hexec]
  exact {
    keyOk := hkey
    keyBytes := rfl
    entries := State.withMapping_complete_permEntries hn (.refl _)
    full := by simp [harg] }

theorem holdsMapping_buildByHand {s : State} (hkey : Spec.KeyOk s) {n : Nat} (hn : n < 2 ^ 32)
    (hmax : n ≤ s.nblkMax) (iters : Nat) :
    HoldsMapping s.keyBytes (processBlocks n s.keyBytes iters) (Spec.buildByHand s n iters) :=
  List.foldl_rel (holdsMapping_after_pinit hkey hn hmax) fun iter _ _ _ h => h.iterationByHand iter

/-- Settles O44: PBUILD stores `processBlocks`, and the schedule's last state holds it. -/
theorem pbuildEqualsCommandSequence : Obligations.PbuildEqualsCommandSequence := by
  unfold Obligations.PbuildEqualsCommandSequence
  intro s h
  have hexec := exec_pbuild h
  obtain ⟨hkey, -, -, hmax⟩ := h
  have hhand := holdsMapping_buildByHand hkey s.blockCount_lt hmax s.iters.toNat
  have hlen : (processBlocks s.blockCount s.keyBytes s.iters.toNat).length = s.blockCount := by
    simpa using (processBlocks_perm s.blockCount s.keyBytes s.iters.toNat).length_eq
  change exec .pbuild s = .next { s with
      nblk := BitVec.ofNat 32 s.blockCount
      perm := (Spec.buildByHand s s.blockCount s.iters.toNat).perm
      status := s.status ||| 1#2 } ∧
    (Spec.buildByHand s s.blockCount s.iters.toNat).nblk = BitVec.ofNat 32 s.blockCount ∧
      (Spec.buildByHand s s.blockCount s.iters.toNat).perm.length = s.blockCount
  rw [hexec, State.withMapping_complete, hhand.perm_eq, hhand.nblk_eq, List.length_map, hlen]
  exact ⟨rfl, rfl, rfl⟩

end Sys2Proof.Machine
end

section
/-! SUPPORT. The geometry of the block remap (rules R150 to R154, R159): the coordinates of a pixel number, the
pixels of the whole blocks and those of the trailing region, and that the moves of `remap` write each pixel of
the image once. -/

namespace Sys2Proof.Machine

/-! ## Pixel numbers and coordinates (rule R52) -/

theorem pixelNumber_mod {W x : Nat} (hx : x < W) (y : Nat) : pixelNumber W x y % W = x := by
  rw [pixelNumber, Nat.mul_add_mod', Nat.mod_eq_of_lt hx]

theorem pixelNumber_div {W x : Nat} (hx : x < W) (y : Nat) : pixelNumber W x y / W = y := by
  rw [pixelNumber, Nat.mul_comm, Nat.mul_add_div (Nat.zero_lt_of_lt hx), Nat.div_eq_of_lt hx, Nat.add_zero]

theorem pixelNumber_mod_div (W p : Nat) : pixelNumber W (p % W) (p / W) = p := Nat.div_add_mod' p W

theorem pixelNumber_lt {W H x y : Nat} (hx : x < W) (hy : y < H) : pixelNumber W x y < W * H :=
  calc y * W + x < y * W + W := Nat.add_lt_add_left hx _
    _ = W * (y + 1) := by rw [Nat.mul_comm, Nat.mul_succ]
    _ ≤ W * H := Nat.mul_le_mul_left W hy

theorem coordinates_lt {W H p : Nat} (hp : p < W * H) : p % W < W ∧ p / W < H :=
  ⟨Nat.mod_lt p (Nat.pos_of_mul_pos_right (Nat.zero_lt_of_lt hp)), Nat.div_lt_of_lt_mul hp⟩

theorem inTail_eq_true_iff {W H x y : Nat} :
    inTail W H x y = true ↔ 8 * (W / 8) ≤ x ∨ 8 * (H / 8) ≤ y := by
  simp [inTail, blockSide]

theorem inTail_eq_false_iff {W H x y : Nat} :
    inTail W H x y = false ↔ x < 8 * (W / 8) ∧ y < 8 * (H / 8) := by
  simp [inTail, blockSide]

/-- A list put together from parts has no repetition when no part has one and every element tells its part. -/
theorem nodup_flatMap_of_part {α β : Type} {l : List α} {f : α → List β} (part : β → α) (hl : l.Nodup)
    (hf : ∀ a ∈ l, (f a).Nodup) (hpart : ∀ a ∈ l, ∀ b ∈ f a, part b = a) : (l.flatMap f).Nodup := by
  refine List.nodup_flatMap.2 ⟨hf, List.Pairwise.imp_of_mem (fun {a a'} ha ha' hne => ?_) hl⟩
  intro b hb hb'
  exact hne ((hpart a ha b hb).symm.trans (hpart a' ha' b hb'))

/-! ## The trailing region (rules R150, R154) -/

theorem mem_tailPixels_iff {W H p : Nat} :
    p ∈ tailPixels W H ↔ p < W * H ∧ inTail W H (p % W) (p / W) = true := by
  simp only [tailPixels, List.mem_flatMap, List.mem_map, List.mem_filter, List.mem_range]
  constructor
  · rintro ⟨y, hy, x, ⟨hx, htail⟩, rfl⟩
    rw [pixelNumber_mod hx, pixelNumber_div hx]
    exact ⟨pixelNumber_lt hx hy, htail⟩
  · rintro ⟨hp, htail⟩
    obtain ⟨hx, hy⟩ := coordinates_lt hp
    exact ⟨p / W, hy, p % W, ⟨hx, htail⟩, pixelNumber_mod_div W p⟩

theorem tailPixels_nodup (W H : Nat) : (tailPixels W H).Nodup := by
  refine nodup_flatMap_of_part (· / W) List.nodup_range (fun y _ => ?_) fun y _ p hp => ?_
  · exact (List.nodup_range.filter _).map fun x x' h => Nat.add_left_cancel h
  · obtain ⟨x, hx, rfl⟩ := List.mem_map.1 hp
    exact pixelNumber_div (List.mem_range.1 (List.mem_filter.1 hx).1) y

theorem tailPixels_perm (W H : Nat) :
    (tailPixels W H).Perm ((List.range (W * H)).filter fun p => inTail W H (p % W) (p / W)) := by
  refine (List.perm_ext_iff_of_nodup (tailPixels_nodup W H) (List.nodup_range.filter _)).2 fun p => ?_
  rw [mem_tailPixels_iff, List.mem_filter, List.mem_range]

/-! ## The pixels of the whole blocks (rules R150, R151) -/

/-- The pixels of block `b`, row by row. -/
def blockPixels (W b : Nat) : List Nat :=
  (List.range 8).flatMap fun py => (List.range 8).map fun px => blockPixel W b px py

/-- The block that pixel `p` lies in. -/
def blockOf (W p : Nat) : Nat := p / W / 8 * (W / 8) + p % W / 8

theorem mem_blockPixels_iff {W b p : Nat} :
    p ∈ blockPixels W b ↔ ∃ px < 8, ∃ py < 8, blockPixel W b px py = p := by
  simp only [blockPixels, List.mem_flatMap, List.mem_map, List.mem_range]
  constructor
  · rintro ⟨py, hpy, px, hpx, h⟩
    exact ⟨px, hpx, py, hpy, h⟩
  · rintro ⟨px, hpx, py, hpy, h⟩
    exact ⟨py, hpy, px, hpx, h⟩

theorem blockPixel_column_lt {W b px : Nat} (hW : 0 < W / 8) (hpx : px < 8) : 8 * (b % (W / 8)) + px < W := by
  have hcolumn : b % (W / 8) < W / 8 := Nat.mod_lt b hW
  omega

theorem blockPixel_mod {W b px : Nat} (hW : 0 < W / 8) (hpx : px < 8) (py : Nat) :
    blockPixel W b px py % W = 8 * (b % (W / 8)) + px := pixelNumber_mod (blockPixel_column_lt hW hpx) _

theorem blockPixel_div {W b px : Nat} (hW : 0 < W / 8) (hpx : px < 8) (py : Nat) :
    blockPixel W b px py / W = 8 * (b / (W / 8)) + py := pixelNumber_div (blockPixel_column_lt hW hpx) _

theorem blockOf_blockPixel {W b px py : Nat} (hW : 0 < W / 8) (hpx : px < 8) (hpy : py < 8) :
    blockOf W (blockPixel W b px py) = b := by
  have hcolumn : (8 * (b % (W / 8)) + px) / 8 = b % (W / 8) := by omega
  have hrow : (8 * (b / (W / 8)) + py) / 8 = b / (W / 8) := by omega
  rw [blockOf, blockPixel_mod hW hpx, blockPixel_div hW hpx, hcolumn, hrow, Nat.div_add_mod']

/-- A pixel outside the trailing region is at its offsets modulo 8 in its block. -/
theorem blockPixel_blockOf {W p : Nat} (hp : p % W < 8 * (W / 8)) :
    blockPixel W (blockOf W p) (p % W % 8) (p / W % 8) = p := by
  have hcolumn : p % W / 8 < W / 8 := by omega
  have hmod : blockOf W p % (W / 8) = p % W / 8 := pixelNumber_mod hcolumn _
  have hdiv : blockOf W p / (W / 8) = p / W / 8 := pixelNumber_div hcolumn _
  rw [blockPixel, blockColumn, blockRow, blockSide, hmod, hdiv, Nat.div_add_mod, Nat.div_add_mod,
    pixelNumber_mod_div]

theorem blockPixels_nodup {W : Nat} (hW : 0 < W / 8) (b : Nat) : (blockPixels W b).Nodup := by
  refine nodup_flatMap_of_part (· / W % 8) List.nodup_range (fun py _ => ?_) fun py hpy p hp => ?_
  · refine List.nodup_range.map fun x x' h => ?_
    exact Nat.add_left_cancel (Nat.add_left_cancel h)
  · obtain ⟨px, hpx, rfl⟩ := List.mem_map.1 hp
    rw [List.mem_range] at hpx hpy
    rw [blockPixel_div hW hpx]
    omega

/-- All pixels of the whole blocks, block by block. -/
def wholePixels (W H : Nat) : List Nat := (List.range (W / 8 * (H / 8))).flatMap (blockPixels W)

theorem columns_pos {W H b : Nat} (hb : b < W / 8 * (H / 8)) : 0 < W / 8 :=
  Nat.pos_of_mul_pos_right (Nat.zero_lt_of_lt hb)

theorem wholePixels_nodup (W H : Nat) : (wholePixels W H).Nodup := by
  refine nodup_flatMap_of_part (blockOf W) List.nodup_range (fun b hb => ?_) fun b hb p hp => ?_
  · exact blockPixels_nodup (columns_pos (List.mem_range.1 hb)) b
  · obtain ⟨px, hpx, py, hpy, rfl⟩ := mem_blockPixels_iff.1 hp
    exact blockOf_blockPixel (columns_pos (List.mem_range.1 hb)) hpx hpy

theorem mem_wholePixels_iff {W H p : Nat} :
    p ∈ wholePixels W H ↔ p < W * H ∧ inTail W H (p % W) (p / W) = false := by
  simp only [wholePixels, List.mem_flatMap, List.mem_range, mem_blockPixels_iff, inTail_eq_false_iff]
  constructor
  · rintro ⟨b, hb, px, hpx, py, hpy, rfl⟩
    have hW : 0 < W / 8 := columns_pos hb
    have hcolumn : b % (W / 8) < W / 8 := Nat.mod_lt b hW
    have hrow : b / (W / 8) < H / 8 := Nat.div_lt_of_lt_mul hb
    rw [blockPixel_mod hW hpx, blockPixel_div hW hpx]
    refine ⟨pixelNumber_lt (blockPixel_column_lt hW hpx) ?_, ?_, ?_⟩
    · show 8 * (b / (W / 8)) + py < H
      omega
    · omega
    · omega
  · rintro ⟨-, hx, hy⟩
    refine ⟨blockOf W p, ?_, p % W % 8, Nat.mod_lt _ (by decide), p / W % 8, Nat.mod_lt _ (by decide),
      blockPixel_blockOf hx⟩
    exact pixelNumber_lt (by omega : p % W / 8 < W / 8) (by omega : p / W / 8 < H / 8)

theorem wholePixels_perm (W H : Nat) :
    (wholePixels W H).Perm ((List.range (W * H)).filter fun p => !inTail W H (p % W) (p / W)) := by
  refine (List.perm_ext_iff_of_nodup (wholePixels_nodup W H) (List.nodup_range.filter _)).2 fun p => ?_
  rw [mem_wholePixels_iff, List.mem_filter, List.mem_range, Bool.not_eq_true']

/-! ## The moves of `remap` (rules R153, R154, R159) -/

/-- The entries of an array in order are the array. -/
theorem map_getD_range {P : List Nat} {n : Nat} (hn : P.length = n) :
    (List.range n).map (fun b => P.getD b 0) = P :=
  List.ext_getElem (by simp [hn]) fun i _ hi => by simp [hi]

theorem wholeMoves_dests {W H : Nat} {P : List Nat} (hP : P.length = W / 8 * (H / 8)) :
    (wholeMoves W H P).map (fun m => m.2) = P.flatMap (blockPixels W) := by
  conv_rhs => rw [← map_getD_range hP]
  simp only [wholeMoves, blockSide, List.map_flatMap, List.map_map, List.flatMap_map]
  rfl

/-- Settles O47: the destinations are the whole blocks in the order of the permutation, and the pixels outside
the trailing region are those of the whole blocks. -/
theorem remapWritesEachPixelOnce : Obligations.RemapWritesEachPixelOnce := by
  unfold Obligations.RemapWritesEachPixelOnce
  intro W H P hP
  have hlen : P.length = W / 8 * (H / 8) := by simpa using hP.length_eq
  rw [wholeMoves_dests hlen]
  have hwhole : (P.flatMap (blockPixels W)).Perm
      ((List.range (W * H)).filter fun p => !inTail W H (p % W) (p / W)) :=
    (hP.flatMap_right _).trans (wholePixels_perm W H)
  exact ((hwhole.append (tailPixels_perm W H)).trans List.perm_append_comm).trans
    (List.filter_append_perm _ _)

end Sys2Proof.Machine
end

section
/-! SUPPORT. `remap` as a function of a buffer: each move of rules R153 and R154 puts its mixed pixel at its
destination, and `remap` with the inverse array undoes `remap` (rules R157, R158). -/

namespace Sys2Proof.Machine

/-! ## Pixels of a buffer (rule R52) -/

/-- Channel `c` of a pixel, in the buffer's order. -/
def Pixel.channel (p : Pixel) (c : Nat) : Byte :=
  match c with
  | 0 => p.r
  | 1 => p.g
  | _ => p.b

theorem pixelAt_channel (buf : List Byte) (p : Nat) {c : Nat} (hc : c < 3) :
    (pixelAt buf p).channel c = buf.getD (3 * p + c) 0 := by
  interval_cases c <;> rfl

theorem pixelMix_channel (p : Pixel) (a b : Nat) (key : List Byte) {c : Nat} (hc : c < 3) :
    (pixelMix p a b key).channel c = p.channel c ^^^ mixByte key (a + b) c := by
  interval_cases c <;> rfl

/-- A buffer of whole pixels is its pixels. -/
theorem eq_of_pixelAt_eq {buf buf' : List Byte} {n : Nat} (hlen : buf.length = 3 * n)
    (hlen' : buf'.length = 3 * n) (h : ∀ p < n, pixelAt buf p = pixelAt buf' p) : buf = buf' := by
  refine List.ext_getElem (hlen.trans hlen'.symm) fun i hi hi' => ?_
  have hc : i % 3 < 3 := Nat.mod_lt i (by decide)
  have hchannel := congrArg (fun p => p.channel (i % 3)) (h (i / 3) (by omega))
  simp only [pixelAt_channel _ _ hc, Nat.div_add_mod] at hchannel
  rwa [List.getD_eq_getElem _ _ hi, List.getD_eq_getElem _ _ hi'] at hchannel

theorem pixelAt_putPixel_same {buf : List Byte} {p : Nat} (v : Pixel) (hp : 3 * p + 2 < buf.length) :
    pixelAt (putPixel buf p v) p = v := by
  have hr : 3 * p < buf.length := by omega
  have hg : 3 * p + 1 < buf.length := by omega
  simp [pixelAt, putPixel, channels, hr, hg, hp]

theorem pixelAt_putPixel_other (buf : List Byte) {p q : Nat} (v : Pixel) (hne : p ≠ q) :
    pixelAt (putPixel buf q v) p = pixelAt buf p := by
  have hbyte (c : Nat) (hc : c < 3) : (putPixel buf q v).getD (3 * p + c) 0 = buf.getD (3 * p + c) 0 := by
    have h0 : 3 * q ≠ 3 * p + c := by omega
    have h1 : 3 * q + 1 ≠ 3 * p + c := by omega
    have h2 : 3 * q + 2 ≠ 3 * p + c := by omega
    simp [putPixel, channels, h0, h1, h2]
  exact (Pixel.mk.injEq ..).mpr ⟨hbyte 0 (by decide), hbyte 1 (by decide), hbyte 2 (by decide)⟩

/-! ## Moving and mixing pixels (rules R152, R153) -/

theorem pixelAt_foldl_moveMixed_of_notMem (src key : List Byte) {moves : List (Nat × Nat)} {p : Nat}
    (hp : p ∉ moves.map (fun m => m.2)) (dst : List Byte) :
    pixelAt (moves.foldl (moveMixed src key) dst) p = pixelAt dst p := by
  induction moves generalizing dst with
  | nil => rfl
  | cons m rest ih =>
    rw [List.map_cons, List.mem_cons, not_or] at hp
    obtain ⟨hne, hrest⟩ := hp
    rw [List.foldl_cons, ih hrest, moveMixed, pixelAt_putPixel_other _ _ hne]

/-- Moves to different pixels do not disturb each other. -/
theorem pixelAt_foldl_moveMixed_of_mem (src key : List Byte) {moves : List (Nat × Nat)} {p q : Nat}
    (hnodup : (moves.map (fun m => m.2)).Nodup) (hmem : (p, q) ∈ moves) {dst : List Byte}
    (hq : 3 * q + 2 < dst.length) :
    pixelAt (moves.foldl (moveMixed src key) dst) q = pixelMix (pixelAt src p) (3 * p) (3 * q) key := by
  induction moves generalizing dst with
  | nil => exact absurd hmem List.not_mem_nil
  | cons m rest ih =>
    obtain ⟨hfresh, hrest⟩ := List.nodup_cons.1 hnodup
    rw [List.foldl_cons]
    obtain rfl | hmem := List.mem_cons.1 hmem
    · rw [pixelAt_foldl_moveMixed_of_notMem src key hfresh, moveMixed, pixelAt_putPixel_same _ hq]
      rfl
    · exact ih hrest hmem (by rwa [moveMixed_length])

/-! ## All moves of `remap` -/

/-- The moves of both parts of `remap`: a trailing pixel moves to its own place. -/
def remapMoves (W H : Nat) (P : List Nat) : List (Nat × Nat) :=
  wholeMoves W H P ++ (tailPixels W H).map fun p => (p, p)

theorem remap_eq_foldl_remapMoves (src : List Byte) (W H : Nat) (P : List Nat) (key : List Byte) :
    remap src W H P key =
      (remapMoves W H P).foldl (moveMixed src key) (List.replicate (channels * W * H) 0) := by
  rw [remapMoves, List.foldl_append, List.foldl_map]
  rfl

theorem mem_remapMoves_iff {W H : Nat} {P : List Nat} {p q : Nat} :
    (p, q) ∈ remapMoves W H P ↔
      (∃ b < W / 8 * (H / 8), ∃ px < 8, ∃ py < 8,
        blockPixel W b px py = p ∧ blockPixel W (P.getD b 0) px py = q) ∨
      (p ∈ tailPixels W H ∧ p = q) := by
  rw [remapMoves, List.mem_append]
  refine or_congr ?_ ?_
  · simp only [wholeMoves, blockSide, List.mem_flatMap, List.mem_map, List.mem_range, Prod.mk.injEq]
    constructor
    · rintro ⟨b, hb, py, hpy, px, hpx, h⟩
      exact ⟨b, hb, px, hpx, py, hpy, h⟩
    · rintro ⟨b, hb, px, hpx, py, hpy, h⟩
      exact ⟨b, hb, py, hpy, px, hpx, h⟩
  · simp only [List.mem_map, Prod.mk.injEq]
    constructor
    · rintro ⟨r, hr, rfl, rfl⟩
      exact ⟨hr, rfl⟩
    · rintro ⟨hp, rfl⟩
      exact ⟨p, hp, rfl, rfl⟩

section
variable {W H : Nat} {P : List Nat} (hP : P.Perm (List.range (W / 8 * (H / 8))))
include hP

theorem remapMoves_dests_perm : ((remapMoves W H P).map (fun m => m.2)).Perm (List.range (W * H)) := by
  have hdests : (remapMoves W H P).map (fun m => m.2) =
      (wholeMoves W H P).map (fun m => m.2) ++ tailPixels W H := by
    simp [remapMoves, Function.comp_def]
  rw [hdests]
  exact remapWritesEachPixelOnce W H P hP

/-- What a move leaves at its destination, whatever the other moves are. -/
theorem pixelAt_remap (src key : List Byte) {p q : Nat} (hmem : (p, q) ∈ remapMoves W H P) :
    pixelAt (remap src W H P key) q = pixelMix (pixelAt src p) (3 * p) (3 * q) key := by
  have hdests := remapMoves_dests_perm hP
  have hq : q < W * H := List.mem_range.1 (hdests.mem_iff.1 (List.mem_map_of_mem hmem))
  rw [remap_eq_foldl_remapMoves]
  refine pixelAt_foldl_moveMixed_of_mem src key (hdests.nodup_iff.2 List.nodup_range) hmem ?_
  rw [List.length_replicate, channels, Nat.mul_assoc]
  omega

theorem perm_range_length : P.Perm (List.range P.length) := by
  have hlen : P.length = W / 8 * (H / 8) := by simpa using hP.length_eq
  rwa [hlen]

/-- The inverse array moves every pixel back (rule R157). -/
theorem swap_mem_remapMoves_invert {p q : Nat} (hmem : (p, q) ∈ remapMoves W H P) :
    (q, p) ∈ remapMoves W H (invert P) := by
  have hlen : P.length = W / 8 * (H / 8) := by simpa using hP.length_eq
  rw [mem_remapMoves_iff] at hmem ⊢
  obtain ⟨b, hb, px, hpx, py, hpy, rfl, rfl⟩ | ⟨hp, rfl⟩ := hmem
  · rw [← hlen] at hb ⊢
    have hback : (invert P).getD (P.getD b 0) 0 = b := invert_getD_getD (perm_range_length hP) hb
    exact .inl ⟨P.getD b 0, getD_lt_of_perm (perm_range_length hP) hb, px, hpx, py, hpy, rfl, by rw [hback]⟩
  · exact .inr ⟨hp, rfl⟩

/-- Every pixel of the image is the source of a move: it is the destination of one of the inverse array's. -/
theorem exists_mem_remapMoves {p : Nat} (hp : p < W * H) : ∃ q, (p, q) ∈ remapMoves W H P := by
  have hQ : (invert P).Perm (List.range (W / 8 * (H / 8))) := invert_perm hP
  have hdest : p ∈ (remapMoves W H (invert P)).map (fun m => m.2) :=
    (remapMoves_dests_perm hQ).mem_iff.2 (List.mem_range.2 hp)
  obtain ⟨⟨q, _⟩, hmem, rfl⟩ := List.mem_map.1 hdest
  have hback := swap_mem_remapMoves_invert hQ hmem
  rw [invert_invert (perm_range_length hP)] at hback
  exact ⟨q, hback⟩

/-- Remapping by the inverse array restores the source (rule R158): both passes mix a pixel with the same two
indices. -/
theorem remap_remap_invert {src : List Byte} (hsrc : src.length = 3 * (W * H)) (key : List Byte) :
    remap (remap src W H P key) W H (invert P) key = src := by
  have hlen : (remap (remap src W H P key) W H (invert P) key).length = 3 * (W * H) := by
    rw [remap_length, channels, Nat.mul_assoc]
  refine eq_of_pixelAt_eq hlen hsrc fun p hp => ?_
  obtain ⟨q, hmem⟩ := exists_mem_remapMoves hP hp
  rw [pixelAt_remap (invert_perm hP) _ key (swap_mem_remapMoves_invert hP hmem), pixelAt_remap hP src key hmem,
    pixelMix_comm _ (3 * q), pixelMix_pixelMix]

end

end Sys2Proof.Machine
end

section
/-! SUPPORT. The command BREMAP: the bytes it leaves at DST (rules R153 to R155), and the round trip of the
permutation cipher (rules R156 to R158). -/

namespace Sys2Proof.Machine

/-! ## The mix bytes of a state's key (rule R115) -/

/-- Channel `c`'s byte of the position factor, by its weight. -/
theorem channelByte_posFactor (t c : Nat) :
    channelByte (posFactor t) c = BitVec.ofNat 8 (t * 0x9E3779B9 % 2 ^ 32 / 2 ^ (8 * c)) := by
  refine BitVec.eq_of_toNat_eq ?_
  rw [channelByte, BitVec.extractLsb'_toNat, posFactor_toNat, Nat.shiftRight_eq_div_pow, BitVec.toNat_ofNat]

theorem State.keyBytes_length {s : State} (h : Spec.KeyOk s) : s.keyBytes.length = s.keylen.toNat := by
  rw [State.keyBytes_eq_keyList h, Spec.keyList, List.length_map, List.length_range]

theorem mixByte_keyBytes {s : State} (h : Spec.KeyOk s) (t c : Nat) :
    mixByte s.keyBytes t c = Spec.mixByte s t c := by
  have hpos : (t % s.keylen.toNat + c) % s.keylen.toNat < s.keylen.toNat := Nat.mod_lt _ h.1
  have hget : s.keyBytes.getD ((t % s.keylen.toNat + c) % s.keylen.toNat) 0 =
      s.key.get ((t % s.keylen.toNat + c) % s.keylen.toNat) :=
    (s.key.getD_take_cells _ _).trans (if_pos hpos)
  rw [mixByte, State.keyBytes_length h, hget, channelByte_posFactor, Spec.mixByte]

/-! ## BREMAP (rule R155) -/

theorem State.imageBytes_eq (s : State) : s.imageBytes = 3 * (s.width.toNat * s.height.toNat) := Nat.mul_assoc _ _ _

theorem State.blockCountMismatch_passes {s : State} (h : s.nblk.toNat = s.blockCount) :
    s.blockCountMismatch.1 = false := decide_eq_false (not_not.2 h)

theorem State.imagesOverlap_passes {s : State}
    (h : s.src.toNat + s.imageBytes ≤ s.dst.toNat ∨ s.dst.toNat + s.imageBytes ≤ s.src.toNat) :
    s.imagesOverlap.1 = false := by
  rw [State.imagesOverlap, disjoint_eq_true_iff.2 h]
  rfl

/-- The image BREMAP reads. -/
def State.sourceImage (s : State) : List Byte := s.readBuf s.src.toNat s.imageBytes

/-- The image BREMAP stores. -/
def State.remappedImage (s : State) : List Byte :=
  remap s.sourceImage s.width.toNat s.height.toNat s.permEntries s.keyBytes

@[simp] theorem State.sourceImage_length (s : State) : s.sourceImage.length = s.imageBytes :=
  s.readBuf_length _ _

@[simp] theorem State.remappedImage_length (s : State) : s.remappedImage.length = s.imageBytes :=
  remap_length _ _ _ _ _

/-- A state after BREMAP: the remapped image at DST, DONE set. -/
def State.afterBremap (s : State) : State := (s.writeMem s.dst.toNat s.remappedImage).complete

theorem exec_bremap {s : State} (h : Spec.BremapReady s) : exec .bremap s = .next s.afterBremap := by
  obtain ⟨hkey, hwidth, hheight, hnblk, hsrc, hdst, hdisjoint⟩ := h
  have hpass : firstFault [s.emptyKey, s.longKey, s.zeroDimension, s.blockCountMismatch,
      s.srcOrDstOutOfMem s.imageBytes, s.imagesOverlap] = none := by
    simp [firstFault_eq_none_iff, State.emptyKey_passes hkey, State.longKey_passes hkey,
      State.zeroDimension_passes hwidth hheight, State.blockCountMismatch_passes hnblk,
      State.srcOrDstOutOfMem_passes (n := s.imageBytes) hsrc hdst, State.imagesOverlap_passes hdisjoint]
  unfold exec execBremap
  exact runCommand_done _ _ s hpass

/-- The destination image after BREMAP. -/
theorem State.afterBremap_memByte (s : State) {i : Nat} (hi : i < s.imageBytes) :
    s.afterBremap.memByte (s.dst.toNat + i) = s.remappedImage.getD i 0 := by
  rw [State.afterBremap, State.complete_memByte, State.memByte_writeMem, State.remappedImage_length,
    if_pos ⟨Nat.le_add_right _ _, Nat.add_lt_add_left hi _⟩, Nat.add_sub_cancel_left]

/-- Reading DST as an image gives back what BREMAP stored there. -/
theorem State.afterBremap_readBuf (s : State) :
    s.afterBremap.readBuf s.dst.toNat s.imageBytes = s.remappedImage := by
  refine List.ext_getElem (by simp) fun i hi himage => ?_
  have hlen : i < s.imageBytes := by rwa [State.remappedImage_length] at himage
  rw [← List.getD_eq_getElem _ 0 hi, ← List.getD_eq_getElem _ 0 himage, State.readBuf_getD _ _ _ _ hlen,
    s.afterBremap_memByte hlen]

theorem idx_eq (W x y : Nat) : Spec.idx W x y = 3 * pixelNumber W x y := Nat.mul_comm _ _

/-- The bytes that one move of `remap` leaves in MEM. -/
theorem State.afterBremap_memByte_of_move {s : State} (hkey : Spec.KeyOk s)
    (hperm : s.permEntries.Perm (List.range (s.width.toNat / 8 * (s.height.toNat / 8)))) {p q c : Nat}
    (hmem : (p, q) ∈ remapMoves s.width.toNat s.height.toNat s.permEntries) (hc : c < 3) :
    s.afterBremap.memByte (s.dst.toNat + 3 * q + c) =
      s.memByte (s.src.toNat + 3 * p + c) ^^^ Spec.mixByte s (3 * p + 3 * q) c := by
  have hp : p < s.width.toNat * s.height.toNat := by
    have hback := List.mem_map_of_mem (f := fun m => m.2) (swap_mem_remapMoves_invert hperm hmem)
    exact List.mem_range.1 ((remapMoves_dests_perm (invert_perm hperm)).mem_iff.1 hback)
  have hq : q < s.width.toNat * s.height.toNat :=
    List.mem_range.1 ((remapMoves_dests_perm hperm).mem_iff.1 (List.mem_map_of_mem hmem))
  have himage := s.imageBytes_eq
  calc s.afterBremap.memByte (s.dst.toNat + 3 * q + c)
      = s.remappedImage.getD (3 * q + c) 0 := by
        rw [Nat.add_assoc, s.afterBremap_memByte (by omega)]
    _ = (pixelAt s.remappedImage q).channel c := (pixelAt_channel _ _ hc).symm
    _ = (pixelAt s.sourceImage p).channel c ^^^ mixByte s.keyBytes (3 * p + 3 * q) c := by
        rw [State.remappedImage, pixelAt_remap hperm _ _ hmem, pixelMix_channel _ _ _ _ hc]
    _ = s.memByte (s.src.toNat + 3 * p + c) ^^^ Spec.mixByte s (3 * p + 3 * q) c := by
        rw [pixelAt_channel _ _ hc, State.sourceImage, State.readBuf_getD _ _ _ _ (by omega),
          ← Nat.add_assoc, mixByte_keyBytes hkey]

/-- Settles O48: each pixel of a whole block and each trailing pixel is a move of `remap`. -/
theorem bremapMovesAndMixes : Obligations.BremapMovesAndMixes := by
  unfold Obligations.BremapMovesAndMixes
  intro s h hpermOk W H
  have hexec := exec_bremap h
  obtain ⟨hkey, -, -, hnblk, -⟩ := h
  have hperm := hpermOk.permEntries_perm
  rw [hnblk] at hperm
  refine ⟨_, hexec, rfl, fun b px py c hb hpx hpy hc => ?_, fun x y c hx hy hc htail => ?_,
    fun a ha => exec_bremap_memByte hexec fun _ => ha⟩
  · have hmem : (blockPixel W b px py, blockPixel W (Spec.entry s b) px py) ∈ remapMoves W H s.permEntries :=
      mem_remapMoves_iff.2 (.inl ⟨b, hnblk ▸ hb, px, hpx, py, hpy, rfl, by rw [entry_eq_getD]⟩)
    simp only [idx_eq]
    exact State.afterBremap_memByte_of_move hkey hperm hmem hc
  · have hmem : (pixelNumber W x y, pixelNumber W x y) ∈ remapMoves W H s.permEntries := by
      refine mem_remapMoves_iff.2 (.inr ⟨mem_tailPixels_iff.2 ⟨pixelNumber_lt hx hy, ?_⟩, rfl⟩)
      rw [pixelNumber_mod hx, pixelNumber_div hx]
      exact inTail_eq_true_iff.2 htail
    simp only [idx_eq]
    rw [Nat.two_mul]
    exact State.afterBremap_memByte_of_move hkey hperm hmem hc

/-! ## Encryption, then decryption (rules R156 to R158) -/

/-- The index array that PBUILD builds in a state. -/
def State.builtArray (s : State) : List Nat := processBlocks s.blockCount s.keyBytes s.iters.toNat

/-- A state after PBUILD. -/
def State.afterPbuild (s : State) : State := (s.withMapping s.blockCount s.builtArray).complete

theorem State.builtArray_perm (s : State) : s.builtArray.Perm (List.range s.blockCount) :=
  processBlocks_perm _ _ _

theorem State.afterPbuild_permEntries (s : State) : s.afterPbuild.permEntries = s.builtArray :=
  State.withMapping_complete_permEntries s.blockCount_lt s.builtArray_perm

theorem State.afterPbuild_permOk {s : State} (h : s.blockCount ≤ s.nblkMax) : s.afterPbuild.PermOk :=
  State.permOk_withMapping s.blockCount_lt h s.builtArray_perm

theorem State.afterPbuild_nblk (s : State) : s.afterPbuild.nblk.toNat = s.blockCount := by
  rw [State.afterPbuild, State.complete_nblk, State.withMapping_nblk, BitVec.toNat_ofNat,
    Nat.mod_eq_of_lt s.blockCount_lt]

/-- The images at SRC and DST lie inside MEM and apart from each other. -/
def State.ImagesFit (s : State) : Prop :=
  s.src.toNat + s.imageBytes ≤ s.memBytes ∧ s.dst.toNat + s.imageBytes ≤ s.memBytes ∧
    (s.src.toNat + s.imageBytes ≤ s.dst.toNat ∨ s.dst.toNat + s.imageBytes ≤ s.src.toNat)

/-- After PBUILD only the placement of the images is left to check. -/
theorem State.afterPbuild_bremapReady {s : State} (h : Spec.PbuildReady s) (hfit : s.ImagesFit) :
    Spec.BremapReady s.afterPbuild := by
  obtain ⟨hkey, hwidth, hheight, -⟩ := h
  exact ⟨hkey, hwidth, hheight, s.afterPbuild_nblk, hfit⟩

theorem State.afterPbuild_afterPinv_bremapReady {s : State} (h : Spec.PbuildReady s) (hfit : s.ImagesFit) :
    Spec.BremapReady s.afterPbuild.afterPinv := State.afterPbuild_bremapReady h hfit

/-- The state after PBUILD and BREMAP, the encryption of rule R156. -/
def State.encrypted (s : State) : State := s.afterPbuild.afterBremap

/-- Encryption stored the source remapped by the built array. -/
theorem State.encrypted_readBuf (s : State) :
    s.encrypted.readBuf s.dst.toNat s.imageBytes =
      remap s.sourceImage s.width.toNat s.height.toNat s.builtArray s.keyBytes :=
  calc s.encrypted.readBuf s.dst.toNat s.imageBytes
      = s.afterPbuild.remappedImage := s.afterPbuild.afterBremap_readBuf
    _ = remap s.sourceImage s.width.toNat s.height.toNat s.builtArray s.keyBytes := by
        rw [State.remappedImage, s.afterPbuild_permEntries]
        rfl

/-- The encrypted state, with SRC at the ciphertext and DST at a third place. -/
def State.atCiphertext (s : State) (back : Word) : State := Spec.withBuffers s.encrypted s.dst back

/-- The state after PBUILD and PINV, the first two commands of the decryption of rule R157. -/
def State.inverted (s : State) : State := s.afterPbuild.afterPinv

/-- PINV writes nothing that BREMAP checks. -/
theorem State.inverted_bremapReady {s : State} (h : Spec.PbuildReady s) (hfit : s.ImagesFit) :
    Spec.BremapReady s.inverted := State.afterPbuild_bremapReady h hfit

theorem State.inverted_permEntries {s : State} (h : s.blockCount ≤ s.nblkMax) :
    s.inverted.permEntries = invert s.builtArray := by
  rw [State.inverted, (State.afterPbuild_permOk h).afterPinv_permEntries, s.afterPbuild_permEntries]

/-- Decryption builds the array of the encryption again, and so stores the image that encryption read. -/
theorem State.remappedImage_atCiphertext {s : State} (h : s.blockCount ≤ s.nblkMax) (back : Word) :
    (s.atCiphertext back).inverted.remappedImage = s.sourceImage := by
  have hinverse : (s.atCiphertext back).inverted.permEntries = invert s.builtArray :=
    State.inverted_permEntries h
  have hsrc : s.sourceImage.length = 3 * (s.width.toNat * s.height.toNat) := by
    rw [s.sourceImage_length, s.imageBytes_eq]
  calc (s.atCiphertext back).inverted.remappedImage
      = remap (s.encrypted.readBuf s.dst.toNat s.imageBytes) s.width.toNat s.height.toNat
          (invert s.builtArray) s.keyBytes := by rw [State.remappedImage, hinverse]; rfl
    _ = s.sourceImage := by rw [s.encrypted_readBuf, remap_remap_invert s.builtArray_perm hsrc]

/-- Settles O49: the second BREMAP stores the source image at the third place. -/
theorem decryptRestoresImage : Obligations.DecryptRestoresImage := by
  unfold Obligations.DecryptRestoresImage
  rintro s back hready ⟨hsrc, hdst, hback, hencrypt, hdecrypt⟩
  have hready' : Spec.PbuildReady (s.atCiphertext back) := hready
  have hfit' : (s.atCiphertext back).ImagesFit := ⟨hdst, hback, hdecrypt.symm⟩
  refine ⟨s.afterPbuild, s.encrypted, (s.atCiphertext back).afterPbuild, (s.atCiphertext back).inverted,
    (s.atCiphertext back).inverted.afterBremap, exec_pbuild hready,
    exec_bremap (State.afterPbuild_bremapReady hready ⟨hsrc, hdst, hencrypt⟩), exec_pbuild hready',
    exec_pinv _, exec_bremap (State.inverted_bremapReady hready' hfit'), fun i hi => ?_⟩
  obtain ⟨-, -, -, hmax⟩ := hready
  calc (s.atCiphertext back).inverted.afterBremap.memByte (back.toNat + i)
      = (s.atCiphertext back).inverted.remappedImage.getD i 0 := State.afterBremap_memByte _ hi
    _ = s.sourceImage.getD i 0 := by rw [State.remappedImage_atCiphertext hmax]
    _ = s.memByte (s.src.toNat + i) := s.readBuf_getD _ _ _ hi

end Sys2Proof.Machine
end

section
/-! SUPPORT. The histogram as a function of a buffer, and the command HIST (rules R165 to R167): each counter
holds the number of pixels whose channel byte has its value. -/

namespace Sys2Proof.Machine

/-! ## Counters (rule R165) -/

theorem bumpCounter_get (h : RegFile 32 Config.nBucket) (b : Byte) (v : Nat) :
    (bumpCounter h b).get v = h.get v + if b.toNat = v then 1 else 0 := by
  by_cases hv : b.toNat = v
  · subst hv
    rw [bumpCounter, RegFile.get_set_same (n := Config.nBucket) _ _ _ b.isLt, if_pos rfl]
  · rw [bumpCounter, RegFile.get_set_other _ _ _ _ (Ne.symm hv), if_neg hv]
    exact (BitVec.add_zero _).symm

/-- Count the byte `b.1` of buffer offset `b.2` if it belongs to channel `c`. -/
def countSample (c : Nat) (h : RegFile 32 Config.nBucket) (b : Byte × Nat) : RegFile 32 Config.nBucket :=
  if b.2 % channels = c then bumpCounter h b.1 else h

/-- Is this byte, with its buffer offset, a sample of value `v` in channel `c`? -/
def isSample (c v : Nat) (b : Byte × Nat) : Bool := decide (b.2 % channels = c) && decide (b.1.toNat = v)

theorem channelHistogram_eq_foldl (c : Nat) (buf : List Byte) :
    channelHistogram c buf = buf.zipIdx.foldl (countSample c) (.zero 32 Config.nBucket) := rfl

theorem countSample_get (c v : Nat) (h : RegFile 32 Config.nBucket) (b : Byte × Nat) :
    (countSample c h b).get v = h.get v + if isSample c v b then 1 else 0 := by
  by_cases hc : b.2 % channels = c
  · simp [countSample, isSample, hc, bumpCounter_get]
  · simp [countSample, isSample, hc]

theorem foldl_countSample_get (c v : Nat) (l : List (Byte × Nat)) (h : RegFile 32 Config.nBucket) :
    (l.foldl (countSample c) h).get v = h.get v + BitVec.ofNat 32 (l.countP (isSample c v)) := by
  induction l generalizing h with
  | nil => simp
  | cons b l ih =>
    rw [List.foldl_cons, ih, countSample_get, List.countP_cons, BitVec.ofNat_add, BitVec.add_assoc,
      BitVec.add_comm (BitVec.ofNat 32 _)]
    split <;> rfl

theorem channelHistogram_get (c v : Nat) (buf : List Byte) :
    (channelHistogram c buf).get v = BitVec.ofNat 32 (buf.zipIdx.countP (isSample c v)) := by
  rw [channelHistogram_eq_foldl, foldl_countSample_get, RegFile.zero_get]
  exact BitVec.zero_add _

/-! ## Samples of a pixel buffer in MEM (rule R52) -/

/-- Of the offsets of `n` pixels, those of channel `c` are `3 * p + c`. -/
theorem countP_range_channel {c : Nat} (hc : c < 3) (q : Nat → Bool) (n : Nat) :
    (List.range (3 * n)).countP (fun i => decide (i % 3 = c) && q i) =
      (List.range n).countP (fun p => q (3 * p + c)) := by
  induction n with
  | zero => rfl
  | succ n ih =>
    have h0 : 3 * n % 3 = 0 := by omega
    have h1 : (3 * n + 1) % 3 = 1 := by omega
    have h2 : (3 * n + 2) % 3 = 2 := by omega
    rw [Nat.mul_succ, List.range_succ (n := n), List.countP_append, ← ih]
    interval_cases c <;> simp [List.range_succ, List.countP_cons, h0, h1, h2]

theorem State.readBuf_zipIdx (s : State) (a n : Nat) :
    (s.readBuf a n).zipIdx = (List.range n).map fun i => (s.memByte (a + i), i) :=
  List.ext_getElem (by simp) (by simp [State.readBuf])

theorem channelCount_eq_countP (s : State) (c v : Nat) :
    Spec.channelCount s c v = (List.range (s.len.toNat / 3)).countP fun p =>
      decide ((s.memByte (s.src.toNat + (3 * p + c))).toNat = v) := by
  simp only [Spec.channelCount, List.countP_eq_length_filter, Nat.add_assoc]

/-- The samples of a channel in a buffer of whole pixels are one for each pixel. -/
theorem countP_isSample {s : State} (hlen : s.len.toNat % 3 = 0) {c : Nat} (hc : c < 3) (v : Nat) :
    (s.readBuf s.src.toNat s.len.toNat).zipIdx.countP (isSample c v) = Spec.channelCount s c v := by
  obtain ⟨n, hn⟩ := Nat.dvd_of_mod_eq_zero hlen
  rw [channelCount_eq_countP, State.readBuf_zipIdx, List.countP_map, hn, Nat.mul_div_cancel_left n (by decide),
    ← countP_range_channel hc fun i => decide ((s.memByte (s.src.toNat + i)).toNat = v)]
  rfl

theorem channelCount_lt (s : State) (c v : Nat) : Spec.channelCount s c v < 2 ^ 32 := by
  have hle : Spec.channelCount s c v ≤ s.len.toNat / 3 := by
    simpa [channelCount_eq_countP] using
      List.countP_le_length (l := List.range (s.len.toNat / 3))
  have hlen := s.len.isLt
  omega

/-! ## HIST (rule R166) -/

theorem State.lenNotPixels_passes {s : State} (h : s.len.toNat % 3 = 0) : s.lenNotPixels.1 = false :=
  decide_eq_false (not_not.2 h)

theorem State.outOfMem_passes {s : State} {a : Word} {n : Nat} (h : a.toNat + n ≤ s.memBytes) :
    (s.outOfMem a n).1 = false := by
  simpa [State.outOfMem, State.inRange] using h

/-- The counters of channel `c` that HIST leaves. -/
def State.sourceHistogram (s : State) (c : Nat) : RegFile 32 Config.nBucket :=
  channelHistogram c (s.readBuf s.src.toNat s.len.toNat)

/-- A state after HIST: the three histograms of the buffer at SRC, DONE set. -/
def State.afterHist (s : State) : State :=
  (s.withHistogram (s.sourceHistogram 0) (s.sourceHistogram 1) (s.sourceHistogram 2)).complete

theorem exec_hist {s : State} (h : Spec.HistReady s) : exec .hist s = .next s.afterHist := by
  obtain ⟨hpos, hpixels, hsrc⟩ := h
  have hpass : firstFault [s.zeroLen, s.lenNotPixels, s.outOfMem s.src s.len.toNat] = none := by
    simp [firstFault_eq_none_iff, State.zeroLen_passes hpos, State.lenNotPixels_passes hpixels,
      State.outOfMem_passes hsrc]
  unfold exec execHist
  exact runCommand_done _ _ s hpass

/-- No counter wraps: a 32-bit LEN holds fewer than `2^32` pixels. -/
theorem State.sourceHistogram_get {s : State} (h : Spec.HistReady s) {c : Nat} (hc : c < 3) (v : Nat) :
    ((s.sourceHistogram c).get v).toNat = Spec.channelCount s c v := by
  obtain ⟨-, hpixels, -⟩ := h
  rw [State.sourceHistogram, channelHistogram_get, countP_isSample hpixels hc, BitVec.toNat_ofNat,
    Nat.mod_eq_of_lt (channelCount_lt s c v)]

/-- Settles O50: each counter is the fold of `countSample` over the buffer's bytes, hence a count of pixels. -/
theorem histCountsChannels : Obligations.HistCountsChannels := by
  unfold Obligations.HistCountsChannels
  intro s h
  exact ⟨_, exec_hist h, rfl, fun v _ =>
    ⟨State.sourceHistogram_get h (by decide) v, State.sourceHistogram_get h (by decide) v,
      State.sourceHistogram_get h (by decide) v⟩⟩

/-! ## The counters of a channel sum to the number of pixels (rule R167) -/

/-- The elements of a register file, read one by one. -/
theorem RegFile.cells_eq_map_get {w n : Nat} (f : RegFile w n) : f.cells = (List.range n).map f.get := by
  refine List.ext_getElem (by simp [f.size]) fun i hi _ => ?_
  simp [RegFile.get, hi]

/-- Each pixel's channel byte has exactly one of the 256 values. -/
theorem sum_channelCount (s : State) (c : Nat) :
    ((List.range 256).map (Spec.channelCount s c)).sum = s.len.toNat / 3 := by
  have hbyte : ∀ p ∈ Finset.range (s.len.toNat / 3),
      (s.memByte (s.src.toNat + 3 * p + c)).toNat ∈ Finset.range 256 :=
    fun p _ => Finset.mem_range.2 (s.memByte _).isLt
  calc ((List.range 256).map (Spec.channelCount s c)).sum
      = ∑ v ∈ Finset.range 256, ((Finset.range (s.len.toNat / 3)).filter fun p =>
          (s.memByte (s.src.toNat + 3 * p + c)).toNat = v).card := rfl
    _ = (Finset.range (s.len.toNat / 3)).card := (Finset.card_eq_sum_card_fiberwise hbyte).symm
    _ = s.len.toNat / 3 := Finset.card_range _

theorem State.sourceHistogram_sum {s : State} (h : Spec.HistReady s) {c : Nat} (hc : c < 3) :
    ((s.sourceHistogram c).cells.map BitVec.toNat).sum = s.len.toNat / 3 := by
  have hcells : (s.sourceHistogram c).cells.map BitVec.toNat =
      (List.range 256).map (Spec.channelCount s c) := by
    rw [RegFile.cells_eq_map_get, List.map_map]
    exact List.map_congr_left fun v _ => State.sourceHistogram_get h hc v
  rw [hcells, sum_channelCount]

/-- Settles O51: the values partition the pixels, and LEN is three times their number. -/
theorem histogramConserved : Obligations.HistogramConserved := by
  unfold Obligations.HistogramConserved
  intro s h
  have hred := State.sourceHistogram_sum h (c := 0) (by decide)
  have hgreen := State.sourceHistogram_sum h (c := 1) (by decide)
  have hblue := State.sourceHistogram_sum h (c := 2) (by decide)
  have htotal : s.len.toNat / 3 + s.len.toNat / 3 + s.len.toNat / 3 = s.len.toNat := by
    obtain ⟨-, hpixels, -⟩ := h
    omega
  exact ⟨_, exec_hist h, hred, hgreen, hblue,
    (congrArg₂ (· + ·) (congrArg₂ (· + ·) hred hgreen) hblue).trans htotal⟩

end Sys2Proof.Machine
end

section
/-! SUPPORT. The adjacent-pixel differences as sums over the existing pairs, and the command CORR (rules R169 to
R172). The 16-bit WIDTH and HEIGHT keep every count within 32 bits and every sum within 64. -/

namespace Sys2Proof.Machine

/-! ## The sums over an image buffer (rules R169, R170) -/

theorem absDiff_eq_natAbs (a b : Nat) : absDiff a b = ((a : Int) - b).natAbs := by
  rw [absDiff]
  omega

theorem pixelSum_sourceImage (s : State) {x y : Nat} (hx : x < s.width.toNat) (hy : y < s.height.toNat) :
    pixelSum s.sourceImage s.width.toNat x y = Spec.pixelSum s x y := by
  have hp := pixelNumber_lt hx hy
  have himage := s.imageBytes_eq
  have hbyte (c : Nat) (hc : c < 3) :
      s.sourceImage.getD (3 * pixelNumber s.width.toNat x y + c) 0 =
        s.memByte (s.src.toNat + 3 * pixelNumber s.width.toNat x y + c) := by
    rw [State.sourceImage, State.readBuf_getD _ _ _ _ (by omega), ← Nat.add_assoc]
  rw [Spec.pixelSum, idx_eq, ← hbyte 1 (by decide), ← hbyte 2 (by decide)]
  exact congrArg (fun b => b.toNat + _ + _) (hbyte 0 (by decide))

/-- The terms with a neighbour at distance `d` in a row (or column) of `n` are the first `n - d`. -/
theorem sum_range_ite_add_lt (n d : Nat) (f : Nat → Nat) :
    ∑ x ∈ Finset.range n, (if x + d < n then f x else 0) = ∑ x ∈ Finset.range (n - d), f x := by
  have hrange : (Finset.range n).filter (fun x => x + d < n) = Finset.range (n - d) := by
    ext x
    simp only [Finset.mem_filter, Finset.mem_range]
    omega
  rw [← Finset.sum_filter, hrange]

theorem diffSum_eq_sum (buf : List Byte) (W H dx dy : Nat) :
    diffSum buf W H dx dy = ∑ y ∈ Finset.range (H - dy), ∑ x ∈ Finset.range (W - dx),
      absDiff (pixelSum buf W x y) (pixelSum buf W (x + dx) (y + dy)) := by
  calc diffSum buf W H dx dy
      = ∑ y ∈ Finset.range H, ∑ x ∈ Finset.range W, (if x + dx < W ∧ y + dy < H then
          absDiff (pixelSum buf W x y) (pixelSum buf W (x + dx) (y + dy)) else 0) := rfl
    _ = ∑ y ∈ Finset.range H, (if y + dy < H then ∑ x ∈ Finset.range (W - dx),
          absDiff (pixelSum buf W x y) (pixelSum buf W (x + dx) (y + dy)) else 0) := by
        refine Finset.sum_congr rfl fun y _ => ?_
        by_cases hy : y + dy < H
        · simp only [hy, and_true, if_true, sum_range_ite_add_lt]
        · simp [hy]
    _ = _ := sum_range_ite_add_lt ..

theorem diffSum_sourceImage (s : State) (dx dy : Nat) :
    diffSum s.sourceImage s.width.toNat s.height.toNat dx dy = Spec.diffs s dx dy := by
  rw [diffSum_eq_sum, Spec.diffs]
  refine Finset.sum_congr rfl fun y hy => Finset.sum_congr rfl fun x hx => ?_
  rw [Finset.mem_range, Nat.lt_sub_iff_add_lt] at hx hy
  rw [pixelSum_sourceImage s (by omega) (by omega), pixelSum_sourceImage s hx hy, absDiff_eq_natAbs]

/-! ## Bounds (rule R171) -/

/-- Three channel bytes sum to at most 765. -/
theorem State.pixelSum_le (s : State) (x y : Nat) : Spec.pixelSum s x y ≤ 765 := by
  have hbyte (a : Nat) : (s.memByte a).toNat ≤ 255 := Nat.le_of_lt_succ (s.memByte a).isLt
  exact Nat.add_le_add (Nat.add_le_add (hbyte _) (hbyte _)) (hbyte _)

theorem State.diffs_le (s : State) (dx dy : Nat) :
    Spec.diffs s dx dy ≤ 765 * ((s.width.toNat - dx) * (s.height.toNat - dy)) := by
  have hterm (x y : Nat) : ((Spec.pixelSum s x y : Int) - Spec.pixelSum s (x + dx) (y + dy)).natAbs ≤ 765 := by
    have hfirst := s.pixelSum_le x y
    have hsecond := s.pixelSum_le (x + dx) (y + dy)
    omega
  calc Spec.diffs s dx dy
      ≤ ∑ _y ∈ Finset.range (s.height.toNat - dy), ∑ _x ∈ Finset.range (s.width.toNat - dx), 765 :=
        Finset.sum_le_sum fun y _ => Finset.sum_le_sum fun x _ => hterm x y
    _ = 765 * ((s.width.toNat - dx) * (s.height.toNat - dy)) := by
        simp only [Finset.sum_const, Finset.card_range, smul_eq_mul]
        ring

/-- WIDTH and HEIGHT are 16-bit registers, so a pair count fits its 32-bit register. -/
theorem State.pairCount_lt (s : State) (dx dy : Nat) :
    (s.width.toNat - dx) * (s.height.toNat - dy) < 2 ^ 32 := by
  have hwidth : s.width.toNat - dx ≤ 2 ^ 16 - 1 := by have := s.width.isLt; omega
  have hheight : s.height.toNat - dy ≤ 2 ^ 16 - 1 := by have := s.height.isLt; omega
  exact (Nat.mul_le_mul hwidth hheight).trans_lt (by decide)

theorem State.diffs_lt (s : State) (dx dy : Nat) : Spec.diffs s dx dy < 2 ^ 64 := by
  have hsum := s.diffs_le dx dy
  have hcount := s.pairCount_lt dx dy
  omega

/-! ## The registers of a sum and of a count (rule R35) -/

theorem join_sumHi_sumLo {A : Nat} (h : A < 2 ^ 64) : Spec.join (sumHi A) (sumLo A) = A := by
  simp only [Spec.join, sumHi, sumLo, BitVec.extractLsb'_toNat, BitVec.toNat_ofNat, Nat.shiftRight_eq_div_pow]
  omega

theorem join_diffSum (s : State) (dx dy : Nat) :
    Spec.join (sumHi (diffSum s.sourceImage s.width.toNat s.height.toNat dx dy))
      (sumLo (diffSum s.sourceImage s.width.toNat s.height.toNat dx dy)) = Spec.diffs s dx dy := by
  rw [diffSum_sourceImage, join_sumHi_sumLo (s.diffs_lt dx dy)]

theorem State.pairCount_toNat (s : State) (dx dy : Nat) :
    (BitVec.ofNat 32 (pairCount s.width.toNat s.height.toNat dx dy)).toNat =
      (s.width.toNat - dx) * (s.height.toNat - dy) := by
  rw [BitVec.toNat_ofNat, pairCount, Nat.mod_eq_of_lt (s.pairCount_lt dx dy)]

/-! ## CORR (rule R172) -/

/-- A state after CORR: the nine results of the image at SRC, DONE set. -/
def State.afterCorr (s : State) : State :=
  (s.withCorr s.sourceImage s.width.toNat s.height.toNat).complete

theorem exec_corr {s : State} (h : Spec.CorrReady s) : exec .corr s = .next s.afterCorr := by
  obtain ⟨hwidth, hheight, hsrc⟩ := h
  have hpass : firstFault [s.zeroDimension, s.outOfMem s.src s.imageBytes] = none := by
    simp [firstFault_eq_none_iff, State.zeroDimension_passes hwidth hheight,
      State.outOfMem_passes (n := s.imageBytes) hsrc]
  unfold exec execCorr
  exact runCommand_done _ _ s hpass

/-- Settles O52: each accumulator is the sum over the existing pairs, and no register overflows. -/
theorem corrAccumulatesDifferences : Obligations.CorrAccumulatesDifferences := by
  unfold Obligations.CorrAccumulatesDifferences
  intro s h
  exact ⟨_, exec_corr h, rfl, join_diffSum s 1 0, join_diffSum s 0 1, join_diffSum s 1 1,
    s.pairCount_toNat 1 0, s.pairCount_toNat 0 1, s.pairCount_toNat 1 1⟩

/-- An image inside a legal MEM has fewer than `2^32 / 3` pairs in each direction. -/
theorem State.three_mul_pairCount_lt {s : State} (hparams : s.ParamsOk) (h : Spec.CorrReady s) {dx dy : Nat}
    (hd : 0 < dx ∨ 0 < dy) : 3 * ((s.width.toNat - dx) * (s.height.toNat - dy)) < 2 ^ 32 := by
  obtain ⟨hwidth, hheight, hsrc⟩ := h
  have hless : (s.width.toNat - dx) * (s.height.toNat - dy) < s.width.toNat * s.height.toNat := by
    rcases hd with hdx | hdy
    · exact Nat.mul_lt_mul_of_lt_of_le (by omega) (by omega) (by omega)
    · exact Nat.mul_lt_mul_of_le_of_lt (by omega) (by omega) (by omega)
  obtain ⟨-, hmem, -⟩ := hparams
  rw [Nat.mul_assoc] at hsrc
  omega

/-- Settles O53: the sums and counts of O52 are bounded by the size of MEM. -/
theorem corrBounds : Obligations.CorrBounds := by
  unfold Obligations.CorrBounds
  intro s hparams h
  obtain ⟨t, hexec, -, hah, hav, had, hnh, hnv, hnd⟩ := corrAccumulatesDifferences s h
  have hhor := s.diffs_le 1 0
  have hver := s.diffs_le 0 1
  have hdia := s.diffs_le 1 1
  have hhorCount := State.three_mul_pairCount_lt (dx := 1) (dy := 0) hparams h (by decide)
  have hverCount := State.three_mul_pairCount_lt (dx := 0) (dy := 1) hparams h (by decide)
  have hdiaCount := State.three_mul_pairCount_lt (dx := 1) (dy := 1) hparams h (by decide)
  simp only [Nat.sub_zero, ← hah, ← hav, ← had, ← hnh, ← hnv, ← hnd]
    at hhor hver hdia hhorCount hverCount hdiaCount
  refine ⟨t, hexec, hhor, hver, hdia, by omega, by omega, by omega, hhorCount, hverCount, hdiaCount,
    fun hW => ?_, fun hH => ?_⟩
  · rw [hW, Nat.sub_self, Nat.zero_mul] at hnh hnd
    exact ⟨BitVec.eq_of_toNat_eq hnh, BitVec.eq_of_toNat_eq hnd, by omega, by omega⟩
  · rw [hH, Nat.sub_self, Nat.mul_zero] at hnv hnd
    exact ⟨BitVec.eq_of_toNat_eq hnv, BitVec.eq_of_toNat_eq hnd, by omega, by omega⟩

end Sys2Proof.Machine
end

section
/-! SUPPORT. The check table of rule R205: the checks of each command in the order the spec's table lists them,
and the code of the first that fails. -/

namespace Sys2Proof.Machine

/-! ## The checks of a command -/

/-- The checks each command makes, in order. -/
def commandChecks (i : Instr) (s : State) : List (Bool × FaultKind) :=
  match i with
  | .kseed | .cseed | .shuf => [s.emptyKey, s.longKeyOrIv]
  | .kchunk | .lgen | .prev | .pinv => []
  | .ksgen => [s.emptyKey, s.longKeyOrIv, s.ksgenOutOfMem]
  | .sxf => [s.emptyKey, s.longKeyOrIv, s.zeroLen, s.srcOrDstOutOfMem s.len.toNat, s.partialOverlap]
  | .pinit => [s.tooManyBlocks s.arg.toNat]
  | .pbuild => [s.emptyKey, s.longKey, s.zeroDimension, s.tooManyBlocks s.blockCount]
  | .bremap =>
    [s.emptyKey, s.longKey, s.zeroDimension, s.blockCountMismatch, s.srcOrDstOutOfMem s.imageBytes,
      s.imagesOverlap]
  | .hist => [s.zeroLen, s.lenNotPixels, s.outOfMem s.src s.len.toNat]
  | .corr => [s.zeroDimension, s.outOfMem s.src s.imageBytes]

/-- `commandChecks` lists what the model's commands check. -/
theorem exec_eq_runCommand_commandChecks (i : Instr) (s : State) :
    ∃ e, exec i s = runCommand (commandChecks i s) e s := by
  cases i with
  | kseed => unfold exec execKseed; exact ⟨_, rfl⟩
  | kchunk => unfold exec execKchunk; exact ⟨_, rfl⟩
  | ksgen => unfold exec execKsgen; exact ⟨_, rfl⟩
  | sxf => unfold exec execSxf; exact ⟨_, rfl⟩
  | cseed => unfold exec execCseed; exact ⟨_, rfl⟩
  | lgen => unfold exec execLgen; exact ⟨_, rfl⟩
  | pinit => unfold exec execPinit; exact ⟨_, rfl⟩
  | shuf => unfold exec execShuf; exact ⟨_, rfl⟩
  | prev => exact ⟨_, exec_prev_eq_runCommand s⟩
  | pbuild => unfold exec execPbuild; exact ⟨_, rfl⟩
  | pinv => unfold exec execPinv; exact ⟨_, rfl⟩
  | bremap => unfold exec execBremap; exact ⟨_, rfl⟩
  | hist => unfold exec execHist; exact ⟨_, rfl⟩
  | corr => unfold exec execCorr; exact ⟨_, rfl⟩

/-- All a command can do to STATUS and ERRCODE: enter a fault it may raise, or set DONE. -/
theorem exec_status_cases {i : Instr} {s t : State} (h : exec i s = .next t) :
    (∃ f, f ≠ .dimensionMismatch ∧ t = s.takeFault f) ∨
      (t.status = statusWithDone s.status ∧ t.errcode = s.errcode) := by
  obtain hfault | ⟨u, hframe, -, -, rfl⟩ := exec_cases h
  · exact .inl hfault
  · have hstatus : u.withoutResults.status = s.withoutResults.status := congrArg State.status hframe
    have herrcode : u.withoutResults.errcode = s.withoutResults.errcode := congrArg State.errcode hframe
    exact .inr ⟨congrArg statusWithDone hstatus, herrcode⟩

/-- A command that passes its checks completes, and its effect reaches neither STATUS nor ERRCODE. -/
theorem exec_passed {i : Instr} {s : State} (h : firstFault (commandChecks i s) = none) :
    ∃ t, exec i s = .next t ∧ t.status = statusWithDone s.status ∧ t.errcode = s.errcode := by
  obtain ⟨e, hrun⟩ := exec_eq_runCommand_commandChecks i s
  have hexec : exec i s = .next (e s).complete := hrun.trans (runCommand_done _ e s h)
  obtain ⟨f, -, hfault⟩ | hdone := exec_status_cases hexec
  · have hflag : true = false := by
      rw [← (e s).complete_doneFlag, hfault, State.takeFault_doneFlag]
    cases hflag
  · exact ⟨_, hexec, hdone⟩

/-- A command takes the fault of its first check that fails. -/
theorem exec_faulted {i : Instr} {s : State} {f : FaultKind}
    (h : firstFault (commandChecks i s) = some f) : exec i s = .next (s.takeFault f) := by
  obtain ⟨e, hrun⟩ := exec_eq_runCommand_commandChecks i s
  exact hrun.trans (runCommand_fault _ e s f h)

/-! ## The code of the first check that fails -/

/-- The ERRCODE that a list of checks gives. -/
def firstCode (cs : List (Bool × FaultKind)) : Option Nat := (firstFault cs).map fun f => f.code.toNat

theorem firstCode_nil : firstCode [] = none := rfl

/-- A check in the words of the spec's table: its condition as a proposition. -/
theorem firstCode_cons {c : Bool × FaultKind} {p : Prop} [Decidable p] (h : c.1 = true ↔ p)
    (cs : List (Bool × FaultKind)) :
    firstCode (c :: cs) = if p then some c.2.code.toNat else firstCode cs := by
  obtain ⟨b, f⟩ := c
  simp only [firstCode, firstFault_cons, ← h]
  cases b <;> rfl

section
variable (s : State) (cs : List (Bool × FaultKind))

theorem firstCode_emptyKey :
    firstCode (s.emptyKey :: cs) = if s.keylen.toNat = 0 then some 4 else firstCode cs :=
  firstCode_cons decide_eq_true_iff cs

theorem firstCode_longKey :
    firstCode (s.longKey :: cs) = if s.keylen.toNat > 16 then some 1 else firstCode cs :=
  firstCode_cons decide_eq_true_iff cs

theorem firstCode_longKeyOrIv :
    firstCode (s.longKeyOrIv :: cs) =
      if s.keylen.toNat > 16 ∨ s.ivlen.toNat > 16 then some 1 else firstCode cs :=
  firstCode_cons (by simp [State.longKeyOrIv, Config.keyMax, Config.ivMax]) cs

theorem firstCode_zeroLen :
    firstCode (s.zeroLen :: cs) = if s.len.toNat = 0 then some 1 else firstCode cs :=
  firstCode_cons decide_eq_true_iff cs

theorem firstCode_zeroDimension :
    firstCode (s.zeroDimension :: cs) =
      if s.width.toNat = 0 ∨ s.height.toNat = 0 then some 1 else firstCode cs :=
  firstCode_cons (by simp [State.zeroDimension]) cs

theorem firstCode_outOfMem (a : Word) (n : Nat) :
    firstCode (s.outOfMem a n :: cs) = if a.toNat + n > s.memBytes then some 1 else firstCode cs :=
  firstCode_cons (by simp [State.outOfMem, State.inRange]) cs

theorem firstCode_srcOrDstOutOfMem (n : Nat) :
    firstCode (s.srcOrDstOutOfMem n :: cs) =
      if s.src.toNat + n > s.memBytes ∨ s.dst.toNat + n > s.memBytes then some 1 else firstCode cs :=
  firstCode_cons (by simp [State.srcOrDstOutOfMem, State.inRange]) cs

theorem firstCode_ksgenOutOfMem :
    firstCode (s.ksgenOutOfMem :: cs) =
      if s.len.toNat > 0 ∧ s.dst.toNat + s.len.toNat > s.memBytes then some 1 else firstCode cs :=
  firstCode_cons (by simp [State.ksgenOutOfMem, State.inRange]) cs

theorem firstCode_partialOverlap :
    firstCode (s.partialOverlap :: cs) =
      if s.src.toNat ≠ s.dst.toNat ∧
          ¬(s.src.toNat + s.len.toNat ≤ s.dst.toNat ∨ s.dst.toNat + s.len.toNat ≤ s.src.toNat) then some 1
      else firstCode cs :=
  firstCode_cons (by simp [State.partialOverlap, disjoint]) cs

theorem firstCode_blockCountMismatch :
    firstCode (s.blockCountMismatch :: cs) =
      if s.nblk.toNat ≠ s.width.toNat / 8 * (s.height.toNat / 8) then some 1 else firstCode cs :=
  firstCode_cons decide_eq_true_iff cs

theorem firstCode_imagesOverlap :
    firstCode (s.imagesOverlap :: cs) =
      if ¬(s.src.toNat + s.imageBytes ≤ s.dst.toNat ∨ s.dst.toNat + s.imageBytes ≤ s.src.toNat) then some 1
      else firstCode cs :=
  firstCode_cons (by simp [State.imagesOverlap, disjoint]) cs

theorem firstCode_lenNotPixels :
    firstCode (s.lenNotPixels :: cs) = if s.len.toNat % 3 ≠ 0 then some 1 else firstCode cs :=
  firstCode_cons decide_eq_true_iff cs

theorem firstCode_tooManyBlocks (n : Nat) :
    firstCode (s.tooManyBlocks n :: cs) = if n > s.nblkMax then some 1 else firstCode cs :=
  firstCode_cons decide_eq_true_iff cs

end

/-- The model's checks are those of the spec's table, command by command. -/
theorem firstCode_commandChecks (i : Instr) (s : State) :
    firstCode (commandChecks i s) = Spec.faultCode i s := by
  cases i with
  | kseed | cseed | shuf =>
    simp only [commandChecks, firstCode_emptyKey, firstCode_longKeyOrIv, firstCode_nil, Spec.faultCode]
  | kchunk | lgen | prev | pinv => rfl
  | ksgen =>
    simp only [commandChecks, firstCode_emptyKey, firstCode_longKeyOrIv, firstCode_ksgenOutOfMem,
      firstCode_nil, Spec.faultCode]
  | sxf =>
    simp only [commandChecks, firstCode_emptyKey, firstCode_longKeyOrIv, firstCode_zeroLen,
      firstCode_srcOrDstOutOfMem, firstCode_partialOverlap, firstCode_nil, Spec.faultCode]
  | pinit => simp only [commandChecks, firstCode_tooManyBlocks, firstCode_nil, Spec.faultCode]
  | pbuild =>
    simp only [commandChecks, firstCode_emptyKey, firstCode_longKey, firstCode_zeroDimension,
      firstCode_tooManyBlocks, firstCode_nil, Spec.faultCode, State.blockCount, blockSide]
  | bremap =>
    simp only [commandChecks, firstCode_emptyKey, firstCode_longKey, firstCode_zeroDimension,
      firstCode_blockCountMismatch, firstCode_srcOrDstOutOfMem, firstCode_imagesOverlap, firstCode_nil]
    rfl
  | hist =>
    simp only [commandChecks, firstCode_zeroLen, firstCode_lenNotPixels, firstCode_outOfMem,
      firstCode_nil, Spec.faultCode]
  | corr =>
    simp only [commandChecks, firstCode_zeroDimension, firstCode_outOfMem, firstCode_nil, Spec.faultCode,
      State.imageBytes, channels]

/-- Settles O23: the spec's table gives the code of the first failing check of `commandChecks`, which decides
between `exec_faulted` and `exec_passed`. -/
theorem checkTableDecidesFaults : Obligations.CheckTableDecidesFaults := by
  unfold Obligations.CheckTableDecidesFaults
  intro i s
  rw [← firstCode_commandChecks, firstCode]
  cases h : firstFault (commandChecks i s) with
  | some f =>
    have hcode : BitVec.ofNat 8 f.code.toNat = f.code := by simp
    simpa only [Option.map_some, hcode, State.takeFault_eq] using exec_faulted h
  | none => exact exec_passed h

end Sys2Proof.Machine
end

section
/-! SUPPORT. The faults a CMD write can raise (rules R203, R207), and that no step latches the code of
DimensionMismatch (rule R213). -/

namespace Sys2Proof.Machine

/-! ## Fault codes -/

/-- The codes of the kinds that the block raises (rules R200, R213). -/
theorem FaultKind.code_mem {f : FaultKind} (h : f ≠ .dimensionMismatch) : f.code ∈ [1#8, 2#8, 4#8] := by
  cases f with
  | dimensionMismatch => exact absurd rfl h
  | _ => decide

theorem State.takeFault_errcode_ne (s : State) {f : FaultKind} (h : f ≠ .dimensionMismatch) :
    (s.takeFault f).errcode ≠ 3#8 :=
  ne_of_mem_of_not_mem (FaultKind.code_mem h) (by decide)

/-! ## CMD writes -/

/-- A word with a reserved bit set or an opcode that is no `match` value is none of the command words. -/
theorem notMem_matchValues {n : Nat} (h : n / 2 ^ 8 ≠ 0 ∨ n % 2 ^ 8 ∉ Spec.matchValues) :
    n ∉ Spec.matchValues := by
  intro hn
  have hbyte : ∀ m ∈ Spec.matchValues, m < 2 ^ 8 := by decide
  rcases h with hrsv | hopc
  · exact hrsv (Nat.div_eq_of_lt (hbyte n hn))
  · exact hopc (by rwa [Nat.mod_eq_of_lt (hbyte n hn)])

theorem State.writeCmd_illegal {s : State} {v : Word} (h : s.errFlag = false)
    (hv : v.toNat ∉ Spec.matchValues) :
    s.writeCmd v = .next ((s.withCmd v).takeFault .unsupportedAlgorithm) := by
  obtain ⟨e, he⟩ := (decode_rejects_iff v).2 hv
  simp [State.writeCmd, h, he]

/-- Settles O6: the word does not decode. -/
theorem illegalWordFaults : Obligations.IllegalWordFaults := by
  unfold Obligations.IllegalWordFaults
  intro s v herr hv
  have hwrite := State.writeCmd_illegal herr (notMem_matchValues hv)
  rw [State.takeFault_eq] at hwrite
  exact step_offer_regWrite ((s.regWrite_cmd v).trans hwrite)

/-- While ERR is clear, a CMD write after which ERR is set has stored the word and entered a fault, and nothing
else: a command that completes leaves ERR clear. -/
theorem State.writeCmd_faulted {s t : State} {v : Word} (h : s.writeCmd v = .next t)
    (hclear : s.errFlag = false) (hset : t.errFlag = true) :
    ∃ f, f ≠ .dimensionMismatch ∧ t = (s.withCmd v).takeFault f := by
  obtain ⟨herr, -⟩ | ⟨-, -, rfl⟩ | ⟨-, i, -, hexec⟩ := s.writeCmd_cases t v h
  · rw [hclear] at herr
    cases herr
  · exact ⟨.unsupportedAlgorithm, by decide, rfl⟩
  · obtain ⟨f, hf, rfl⟩ | ⟨hstatus, -⟩ := exec_status_cases hexec
    · exact ⟨f, hf, rfl⟩
    · have herr : t.errFlag = s.errFlag := by
        rw [State.errFlag, hstatus]
        exact (statusWithDone_bits s.status).2
      rw [herr, hclear] at hset
      cases hset

/-- Settles O7: fault entry on the state that has stored the word. -/
theorem faultEntryChangesStatusOnly : Obligations.FaultEntryChangesStatusOnly := by
  unfold Obligations.FaultEntryChangesStatusOnly
  intro s t v hclear hstep hset
  obtain ⟨u, hwrite⟩ := s.writeCmd_next v
  rw [step_offer_regWrite ((s.regWrite_cmd v).trans hwrite)] at hstep
  cases hstep
  obtain ⟨f, hf, rfl⟩ := State.writeCmd_faulted hwrite hclear hset
  exact ⟨f, by rw [State.takeFault_eq]; rfl, FaultKind.code_mem hf⟩

/-! ## DimensionMismatch is never raised -/

theorem exec_errcode_ne {i : Instr} {s t : State} (h : exec i s = .next t) (hs : s.errcode ≠ 3#8) :
    t.errcode ≠ 3#8 := by
  obtain ⟨f, hf, rfl⟩ | ⟨-, herrcode⟩ := exec_status_cases h
  · exact s.takeFault_errcode_ne hf
  · rwa [herrcode]

theorem State.writeCmd_errcode_ne {s t : State} {v : Word} (h : s.writeCmd v = .next t)
    (hs : s.errcode ≠ 3#8) : t.errcode ≠ 3#8 := by
  obtain ⟨-, rfl⟩ | ⟨-, -, rfl⟩ | ⟨-, i, -, hexec⟩ := s.writeCmd_cases t v h
  · exact hs
  · exact State.takeFault_errcode_ne _ (by decide)
  · exact exec_errcode_ne hexec hs

theorem State.softReset_errcode (s : State) : s.softReset.errcode = 0#8 := rfl

theorem State.externalReset_errcode (s : State) : s.externalReset.errcode = 0#8 := rfl

theorem State.writeCtrl_errcode_ne {s : State} (hs : s.errcode ≠ 3#8) (v : Word) :
    (s.writeCtrl v).errcode ≠ 3#8 := by
  unfold State.writeCtrl
  split
  · rw [State.softReset_errcode]
    decide
  · exact hs

theorem State.regWrite_errcode_ne {s t : State} {i v : Word} (h : s.regWrite i v = .next t)
    (hs : s.errcode ≠ 3#8) : t.errcode ≠ 3#8 := by
  obtain ⟨-, rfl⟩ | ⟨-, hcmd⟩ | ⟨-, rfl⟩ | ⟨r, -, -, -, rfl⟩ := s.regWrite_cases t i v h
  · exact hs
  · exact State.writeCmd_errcode_ne hcmd hs
  · exact State.writeCtrl_errcode_ne hs v
  · obtain ⟨-, herrcode, -⟩ := s.storeReg_frame r v
    rwa [herrcode]

theorem serve_errcode_ne {x : Transaction} {s t : State} (h : serve x s = .next t) (hs : s.errcode ≠ 3#8) :
    t.errcode ≠ 3#8 := by
  cases x with
  | regWrite i v => exact State.regWrite_errcode_ne h hs
  | regRead i => cases h; exact hs
  | memRead a => cases h; exact hs
  | memWrite a b => cases h; rwa [State.memWrite_errcode]
  | externalReset => cases h; rw [State.externalReset_errcode]; decide

/-- Settles O22: whatever transaction the step serves, `serve_errcode_ne`. -/
theorem dimensionMismatchNeverRaised : Obligations.DimensionMismatchNeverRaised := by
  unfold Obligations.DimensionMismatchNeverRaised
  intro s t hs hstep
  obtain ⟨-, rfl⟩ | ⟨x, rest, u, -, hserve, rfl⟩ := step_cases s t hstep
  · exact hs
  · have hu : u.errcode ≠ 3#8 := serve_errcode_ne (s := s.withInbox rest) hserve hs
    exact hu

end Sys2Proof.Machine
end

section
/-! SUPPORT. What STATUS decides (rule R209): the refusal of a CMD write while ERR is set, and of every other
transaction only the answer to a read of STATUS. -/

namespace Sys2Proof.Machine

/-! ## A state with another STATUS -/

/-- STATUS replaced by any value. -/
def State.withStatus (s : State) (x : BitVec 2) : State := { s with status := x }

theorem State.storeReg_withStatus (s : State) (x : BitVec 2) (r : Reg) (v : Word) :
    (s.withStatus x).storeReg r v = (s.storeReg r v).withStatus x := by
  cases r <;> rfl

theorem State.memWrite_withStatus (s : State) (x : BitVec 2) (a : Nat) (b : Byte) :
    (s.withStatus x).memWrite a b = (s.memWrite a b).withStatus x :=
  (apply_ite (State.withStatus · x) (a < s.memBytes) (s.writeMem a [b]) s).symm

theorem State.externalReset_withStatus (s : State) (x : BitVec 2) :
    (s.withStatus x).externalReset = s.externalReset := rfl

theorem State.softReset_withStatus (s : State) (x : BitVec 2) :
    (s.withStatus x).softReset = s.softReset := rfl

/-- Only the register STATUS itself reads differently. -/
theorem State.readReg_withStatus (s : State) (x : BitVec 2) {r : Reg} (h : r ≠ .status) :
    (s.withStatus x).readReg r = s.readReg r := by
  cases r with
  | status => exact absurd rfl h
  | _ => rfl

/-! ## Serving -/

/-- Only CMD's own index reaches it. -/
theorem index_of_regAt_cmd {nblkMax : Nat} {i : Word} (h : regAt nblkMax i = some .cmd) : i = 0#32 :=
  index_unique h rfl

/-- Only STATUS's own index reaches it. -/
theorem index_of_regAt_status {nblkMax : Nat} {i : Word} (h : regAt nblkMax i = some .status) : i = 1#32 :=
  index_unique h rfl

theorem State.regRead_withStatus (s : State) (x : BitVec 2) {i : Word} (hi : i ≠ 1#32) :
    (s.withStatus x).regRead i = s.regRead i := by
  cases h : regAt s.nblkMax i with
  | none => simp only [State.regRead, State.withStatus, h]
  | some r =>
    have hr : r ≠ .status := by rintro rfl; exact hi (index_of_regAt_status h)
    rw [State.regRead_of_regAt h, State.regRead_of_regAt (s := s.withStatus x) h, s.readReg_withStatus x hr]

theorem replyTo_withStatus (s : State) (x : BitVec 2) {t : Transaction} (ht : t ≠ .regRead 1#32) :
    replyTo t (s.withStatus x) = replyTo t s := by
  cases t with
  | regRead i =>
    have hi : i ≠ 1#32 := by rintro rfl; exact ht rfl
    exact congrArg Reply.word (s.regRead_withStatus x hi)
  | _ => rfl

/-- A register write that runs no command and resets nothing does the same under every STATUS, and keeps it. -/
theorem State.regWrite_withStatus (s : State) {i v : Word} (hcmd : i ≠ 0#32)
    (hctrl : i = 3#32 → v.getLsbD 0 = false) :
    ∃ u : State, ∀ x, (s.withStatus x).regWrite i v = .next (u.withStatus x) := by
  cases h : regAt s.nblkMax i with
  | none => exact ⟨s, fun x => State.regWrite_unmapped (s := s.withStatus x) h v⟩
  | some r =>
    by_cases hr : r = .ctrl
    · subst hr
      obtain rfl := index_of_regAt_ctrl h
      exact ⟨s, fun x => by rw [State.regWrite_ctrl, State.writeCtrl_clear _ (hctrl rfl)]⟩
    · have hrcmd : r ≠ .cmd := by rintro rfl; exact hcmd (index_of_regAt_cmd h)
      exact ⟨s.storeReg r v, fun x => by
        rw [State.regWrite_store (s := s.withStatus x) h hrcmd hr, State.storeReg_withStatus]⟩

theorem serve_withStatus (s : State) {t : Transaction}
    (hwrite : ∀ i v, t = .regWrite i v → i ≠ 0#32 ∧ (i = 3#32 → v.getLsbD 0 = false))
    (hext : t ≠ .externalReset) : ∃ u : State, ∀ x, serve t (s.withStatus x) = .next (u.withStatus x) := by
  cases t with
  | regWrite i v =>
    obtain ⟨hcmd, hctrl⟩ := hwrite i v rfl
    exact s.regWrite_withStatus hcmd hctrl
  | regRead i => exact ⟨s, fun x => rfl⟩
  | memRead a => exact ⟨s, fun x => rfl⟩
  | memWrite a b => exact ⟨s.memWrite a b, fun x => congrArg _ (s.memWrite_withStatus x a b)⟩
  | externalReset => exact absurd rfl hext

/-- The step that serves such a transaction, under every STATUS: one outcome but for STATUS itself. -/
theorem step_offer_withStatus (s : State) {t : Transaction}
    (hwrite : ∀ i v, t = .regWrite i v → i ≠ 0#32 ∧ (i = 3#32 → v.getLsbD 0 = false))
    (hext : t ≠ .externalReset) (hread : t ≠ .regRead 1#32) :
    ∃ u : State, ∀ x, step (Spec.offer (s.withStatus x) t) = .next (u.withStatus x) := by
  obtain ⟨u, hserve⟩ := serve_withStatus s hwrite hext
  exact ⟨Spec.answered u (replyTo t s), fun x => by
    rw [step_offer (hserve x), replyTo_withStatus s x hread]; rfl⟩

/-- A reset forgets STATUS. -/
theorem step_offer_reset_withStatus (s : State) (x : BitVec 2) {t : Transaction}
    (ht : t = .externalReset ∨ ∃ v : Word, v.getLsbD 0 = true ∧ t = .regWrite 3#32 v) :
    step (Spec.offer (s.withStatus x) t) = step (Spec.offer s t) := by
  obtain rfl | ⟨v, hv, rfl⟩ := ht
  · exact (step_offer (congrArg _ (s.externalReset_withStatus x))).trans (step_offer rfl).symm
  · rw [step_offer_regWrite (State.regWrite_ctrl _ v), step_offer_regWrite (State.regWrite_ctrl _ v),
      State.writeCtrl_set _ hv, State.writeCtrl_set _ hv, State.softReset_withStatus]

/-- Settles O5: `writeCmd` refuses, and nothing else that is served looks at STATUS but a read of it. -/
theorem cmdWriteRefusedWhileErr : Obligations.CmdWriteRefusedWhileErr := by
  unfold Obligations.CmdWriteRefusedWhileErr
  intro s herr
  refine ⟨fun v => ?_, fun x t hwrite hext hread => ?_, fun x t ht => step_offer_reset_withStatus s x ht,
    step_offer_regRead s 1#32⟩
  · exact step_offer_regWrite ((s.regWrite_cmd v).trans (State.writeCmd_refused herr v))
  · obtain ⟨u, hstep⟩ := step_offer_withStatus s hwrite hext hread
    exact ⟨u.withStatus x, hstep x, hstep s.status⟩

end Sys2Proof.Machine
end

section
/-! SUPPORT. That a step always answers (rules R243, R232), and what the two resets restore and keep (rules R225,
R46, R210). -/

namespace Sys2Proof.Machine

/-! ## Steps -/

/-- Settles O8: idle, or the service of the first transaction and its reply. -/
theorem stepAlwaysAnswersNext : Obligations.StepAlwaysAnswersNext := by
  unfold Obligations.StepAlwaysAnswersNext
  intro s
  cases hinbox : s.inbox with
  | nil => exact ⟨s, step_idle s hinbox⟩
  | cons x rest =>
    obtain ⟨u, hserve⟩ := serve_next x (s.withInbox rest)
    exact ⟨_, step_serve s u x rest hinbox hserve⟩

/-- Settles O10: the idle case of a step. -/
theorem stepWithoutTransactionIdles : Obligations.StepWithoutTransactionIdles := step_idle

/-! ## Resets -/

/-- A reply is no register. -/
theorem registerValue_answered (s : State) (r : Reply) (n : Nat) :
    Spec.registerValue (Spec.answered s r) n = Spec.registerValue s n := rfl

/-- No register reads from what a soft reset keeps beside the sizes. -/
theorem State.softReset_registerValue (s : State) (i : Word) :
    Spec.registerValue s.softReset i.toNat = Spec.resetValue i.toNat :=
  registerValue_resetOf s.memBytes s.nblkMax i

/-- An external reset differs from a soft one in MEM alone, which no register reads from. -/
theorem State.externalReset_registerValue (s : State) (i : Word) :
    Spec.registerValue s.externalReset i.toNat = Spec.resetValue i.toNat :=
  s.softReset_registerValue i

theorem State.softReset_memByte (s : State) (a : Nat) : s.softReset.memByte a = s.memByte a := rfl

theorem State.externalReset_memByte (s : State) (a : Nat) :
    s.externalReset.memByte a = Config.powerOnByte (s.memEpoch + 1) a := rfl

theorem step_offer_softReset (s : State) {v : Word} (hv : v.getLsbD 0 = true) :
    step (Spec.offer s (.regWrite 3#32 v)) = .next (Spec.answered s.softReset .nothing) := by
  rw [step_offer_regWrite (s.regWrite_ctrl v), State.writeCtrl_set s hv]

theorem step_offer_externalReset (s : State) :
    step (Spec.offer s .externalReset) = .next (Spec.answered s.externalReset .nothing) := step_offer rfl

/-- Whatever is no reset keeps STATUS while ERR is set, so what clears ERR is a reset (rule R210). -/
theorem reset_of_step_offer_clears_err {s t : State} {x : Transaction} (herr : s.errFlag = true)
    (hstep : step (Spec.offer s x) = .next t) (hclear : t.errFlag = false) :
    x = .externalReset ∨ ∃ v : Word, v.getLsbD 0 = true ∧ x = .regWrite 3#32 v := by
  by_contra hreset
  obtain ⟨hext, hsoft⟩ := not_or.1 hreset
  have hctrl : ∀ v, x = .regWrite 3#32 v → v.getLsbD 0 = false := fun v hx =>
    Bool.eq_false_iff.2 fun hv => hsoft ⟨v, hv, hx⟩
  obtain ⟨u, hserve⟩ := serve_next x s
  rw [step_offer hserve] at hstep
  cases hstep
  obtain ⟨hstatus, -⟩ := serve_latched hserve herr hctrl hext
  have hkept : u.errFlag = s.errFlag := congrArg (BitVec.getLsbD · 1) hstatus
  exact Bool.false_ne_true (hclear.symm.trans (hkept.trans herr))

/-- Settles O17: the two resets one by one, and the latch of ERR against every other transaction. -/
theorem resetsRestoreRegisters : Obligations.ResetsRestoreRegisters := by
  unfold Obligations.ResetsRestoreRegisters
  intro s
  refine ⟨fun v hv => ⟨_, step_offer_softReset s hv, fun i => ?_, rfl, fun a => s.softReset_memByte a, rfl,
      rfl, rfl, rfl⟩,
    ⟨_, step_offer_externalReset s, fun i => ?_, rfl, fun a => s.externalReset_memByte a, rfl, rfl, rfl, rfl⟩,
    fun x t herr hstep hclear => reset_of_step_offer_clears_err herr hstep hclear⟩
  · rw [registerValue_answered, State.softReset_registerValue]
  · rw [registerValue_answered, State.externalReset_registerValue]

end Sys2Proof.Machine
end
